-- ==== Sys2Proof/Word.lean ====
section
/-! DEFINITION. The two fixed-width words of CRCENG: the 32-bit command word (30_encoding.md R45) and the byte
(20_memory.md R31). A bit vector of S bits, S chosen at run time, is a natural number below `2 ^ S`, as 00_scope.md R7
defines it; the operations on those are in Machine/Ops.lean. -/

namespace Sys2Proof

/-- A command word `cw[31:0]` (30_encoding.md R45). -/
abbrev Word := BitVec 32

/-- One byte of BUF, or of a message (20_memory.md R31, R33). -/
abbrev Byte := BitVec 8

end Sys2Proof
end

