-- ==== Sys2Proof/Syntax.lean ====
section
/-! DEFINITION. The eight commands of command set CRCENG-v1 (30_encoding.md R46), with their decoded fields
(R48 to R55). Operands that travel in the bundle (R56) are not syntax: they stand in `Machine.Bundle`. -/

namespace Sys2Proof

/-- The register shapes, field `shape` (30_encoding.md R50). -/
inductive Shape where
  | n8 | n16 | n32 | n64
  | s8 | s16 | s32 | s64
  | d128
deriving DecidableEq, Repr

/-- The table strategy, field `tmode` (30_encoding.md R51): bit-serial, 256 entries, 256 x 16 entries. -/
inductive TMode where
  | none | t256 | t4096
deriving DecidableEq, Repr

/-- Where the table comes from, field `tsrc` (30_encoding.md R51). -/
inductive TSrc where
  | build | explicit
deriving DecidableEq, Repr

/-- The widths of the scalar reflector and of limbs, fields `bw` and `lb` (30_encoding.md R53, R54). -/
inductive LimbWidth where
  | w8 | w16 | w32 | w64
deriving DecidableEq, Repr

/-- A command, one constructor per row of spec/opcode_table.json. -/
inductive Instr where
  /-- `CFG`, format C (44_engine_native.md R101). -/
  | cfg (width : BitVec 16) (tsrc : TSrc) (tmode : TMode) (refout refin : Bool) (shape : Shape)
  /-- `UPD`, format U (44_engine_native.md R102). -/
  | upd (byte : Byte)
  /-- `UPDB`, format Z (44_engine_native.md R104). -/
  | updb
  /-- `FIN`, format Z (44_engine_native.md R107). -/
  | fin
  /-- `RST`, format Z (44_engine_native.md R109). -/
  | rst
  /-- `REFL`, format R (41_bitreflector.md R70). -/
  | refl (bw : LimbWidth)
  /-- `REFLM`, format M (41_bitreflector.md R71). -/
  | reflm (count : BitVec 16) (lb : LimbWidth)
  /-- `TCLONE`, format Z (43_tablebuilder.md R94). -/
  | tclone
deriving DecidableEq, Repr

end Sys2Proof
end

