-- ==== Sys2Proof/WellFormed.lean ====
section
/-! DEFINITION. Which decoded commands a legal word can stand for (30_encoding.md R57). Reserved shapes, table modes and
opcodes have no constructor; the one combination of legal field values that R57 reserves is `tsrc = 1` with `tmode = 0`. -/

namespace Sys2Proof

/-- The command is one that a legal command word encodes (30_encoding.md R51, R57). -/
def Instr.wf : Instr → Bool
  | .cfg _ tsrc tmode _ _ _ => !(tsrc == .explicit && tmode == .none)
  | .upd _ => true
  | .updb => true
  | .fin => true
  | .rst => true
  | .refl _ => true
  | .reflm _ _ => true
  | .tclone => true

end Sys2Proof
end

