-- ==== Sys2Proof/Decode.lean ====
section
/-! DEFINITION. Decoding and encoding of command words (30_encoding.md R45 to R57): total on all 2^32 words, every
illegal word rejected by name. -/

namespace Sys2Proof

/-- Why a command word is illegal (30_encoding.md R57). -/
inductive Illegal where
  /-- `cw[3:0]` is 0x0 or 0x9..0xF. -/
  | reservedOpcode
  /-- A "rsv" bit of the word's format is 1. -/
  | reservedBit
  /-- CFG with `shape` in 9..15. -/
  | reservedShape
  /-- CFG with `tmode` = 3. -/
  | reservedTmode
  /-- CFG with `tsrc` = 1 and `tmode` = 0. -/
  | explicitWithoutTable
deriving DecidableEq, Repr

/-- `shape` codes (30_encoding.md R50). -/
def Shape.code : Shape → BitVec 4
  | .n8 => 0 | .n16 => 1 | .n32 => 2 | .n64 => 3
  | .s8 => 4 | .s16 => 5 | .s32 => 6 | .s64 => 7
  | .d128 => 8

/-- The shape a code names, none for the reserved codes 9..15 (30_encoding.md R50). -/
def shapeOfCode (c : BitVec 4) : Option Shape :=
  match c.toNat with
  | 0 => some .n8 | 1 => some .n16 | 2 => some .n32 | 3 => some .n64
  | 4 => some .s8 | 5 => some .s16 | 6 => some .s32 | 7 => some .s64
  | 8 => some .d128
  | _ => none

/-- `tmode` codes (30_encoding.md R51). -/
def TMode.code : TMode → BitVec 2
  | .none => 0 | .t256 => 1 | .t4096 => 2

/-- The table mode a code names, none for the reserved code 3 (30_encoding.md R51). -/
def tmodeOfCode (c : BitVec 2) : Option TMode :=
  match c.toNat with
  | 0 => some .none | 1 => some .t256 | 2 => some .t4096
  | _ => none

/-- `tsrc` codes (30_encoding.md R51). -/
def TSrc.code : TSrc → BitVec 1
  | .build => 0 | .explicit => 1

/-- The table source a code names (30_encoding.md R51). -/
def tsrcOfCode (c : BitVec 1) : TSrc :=
  if c = 1 then .explicit else .build

/-- `bw` and `lb` codes (30_encoding.md R53, R54). -/
def LimbWidth.code : LimbWidth → BitVec 2
  | .w8 => 0 | .w16 => 1 | .w32 => 2 | .w64 => 3

/-- The width a `bw` or `lb` code names; all four are legal (30_encoding.md R53, R54). -/
def limbWidthOfCode (c : BitVec 2) : LimbWidth :=
  match c.toNat with
  | 0 => .w8 | 1 => .w16 | 2 => .w32
  | _ => .w64

/-- Format C (30_encoding.md R47, R57). -/
def decodeC (cw : Word) : Except Illegal Instr :=
  if cw.extractLsb' 13 3 = 0 then
    match shapeOfCode (cw.extractLsb' 4 4), tmodeOfCode (cw.extractLsb' 10 2) with
    | some shape, some tmode =>
      let i := Instr.cfg (cw.extractLsb' 16 16) (tsrcOfCode (cw.extractLsb' 12 1)) tmode
        (cw.getLsbD 9) (cw.getLsbD 8) shape
      if i.wf then .ok i else .error .explicitWithoutTable
    | none, _ => .error .reservedShape
    | some _, none => .error .reservedTmode
  else .error .reservedBit

/-- Format U (30_encoding.md R47). -/
def decodeU (cw : Word) : Except Illegal Instr :=
  if cw.extractLsb' 16 16 = 0 ∧ cw.extractLsb' 4 4 = 0 then .ok (.upd (cw.extractLsb' 8 8))
  else .error .reservedBit

/-- Format Z: no fields (30_encoding.md R47, R55). -/
def decodeZ (i : Instr) (cw : Word) : Except Illegal Instr :=
  if cw.extractLsb' 4 28 = 0 then .ok i else .error .reservedBit

/-- Format R (30_encoding.md R47). -/
def decodeR (cw : Word) : Except Illegal Instr :=
  if cw.extractLsb' 6 26 = 0 then .ok (.refl (limbWidthOfCode (cw.extractLsb' 4 2)))
  else .error .reservedBit

/-- Format M (30_encoding.md R47). -/
def decodeM (cw : Word) : Except Illegal Instr :=
  if cw.extractLsb' 6 10 = 0 then
    .ok (.reflm (cw.extractLsb' 16 16) (limbWidthOfCode (cw.extractLsb' 4 2)))
  else .error .reservedBit

/-- The decoder: opcode map of 30_encoding.md R46, reserved forms of R57. -/
def decode (cw : Word) : Except Illegal Instr :=
  match (cw.extractLsb' 0 4).toNat with
  | 0x1 => decodeC cw
  | 0x2 => decodeU cw
  | 0x3 => decodeZ .updb cw
  | 0x4 => decodeZ .fin cw
  | 0x5 => decodeZ .rst cw
  | 0x6 => decodeR cw
  | 0x7 => decodeM cw
  | 0x8 => decodeZ .tclone cw
  | _ => .error .reservedOpcode

/-- Bits 12..0 of format C: tsrc, tmode, refout, refin, shape, opcode (30_encoding.md R47). -/
def encodeCLow (tsrc : TSrc) (tmode : TMode) (refout refin : Bool) (shape : Shape) : BitVec 13 :=
  tsrc.code ++ tmode.code ++ BitVec.ofBool refout ++ BitVec.ofBool refin ++ shape.code ++ 0x1#4

/-- Bits 5..0 of format M: lb, opcode (30_encoding.md R47). -/
def encodeMLow (lb : LimbWidth) : BitVec 6 := lb.code ++ 0x7#4

/-- The encoder: the formats of 30_encoding.md R47 read from bit 31 down, opcodes of R46, field codes of R48 to R54. -/
def encode : Instr → Word
  | .cfg width tsrc tmode refout refin shape =>
    width ++ 0#3 ++ encodeCLow tsrc tmode refout refin shape
  | .upd byte => 0#16 ++ byte ++ 0#4 ++ 0x2#4
  | .updb => 0#28 ++ 0x3#4
  | .fin => 0#28 ++ 0x4#4
  | .rst => 0#28 ++ 0x5#4
  | .refl bw => 0#26 ++ bw.code ++ 0x6#4
  | .reflm count lb => count ++ 0#10 ++ encodeMLow lb
  | .tclone => 0#28 ++ 0x8#4

/-- The command word numbered as spec/opcode_table.json numbers it: one 32-bit word, bit 0 least significant
(30_encoding.md R45, R58). Bits at or above `nbits` are 0; more than 32 bits is no command. -/
def tableWord (nbits w : Nat) : Option Word :=
  if nbits ≤ 32 then some (BitVec.ofNat 32 (w % 2 ^ nbits)) else none

/-- What the decoder reads from a table row's bits. -/
def decodeTableWord (nbits w : Nat) : Option Instr :=
  match tableWord nbits w with
  | some cw => (decode cw).toOption
  | none => none

end Sys2Proof
end

