-- ==== Sys2Proof/Config.lean ====
section
/-! DEFINITION. The implementation parameters of 00_scope.md R5 that the spec leaves OPEN, as the values State.reset
starts from (State holds them as `plat`, so every statement over all states holds for every value), and the free values. -/

namespace Sys2Proof.Config

/-- MAX_WIDTH at reset: 65535, the spec's "none" (00_scope.md R5, 92_eei_decisions.md D9).
DESIGN CHOICE (log 3), unsafe for claims about the reset state only. -/
def maxWidth : Nat := 65535

/-- ADDR_BITS at reset: the value 00_scope.md R5 suggests. DESIGN CHOICE (log 3), unsafe for claims about reset only. -/
def addrBits : Nat := 32

/-- A byte of BUF that nobody has written: the host's memory, whose power-on contents no rule gives.
A free value, one fixed unknown byte per address (20_memory.md R36: a read is idempotent). DESIGN CHOICE (log 4), safe. -/
opaque bufInitial : Nat → Byte

/-- Whether a BUF write that another agent makes while a command runs comes before that command's read of the byte: each such
read "may return either the old or the new value of its byte" (20_memory.md R39). A free value, a fresh one for every such
write (State's counter `draws`). DESIGN CHOICE (log 9), safe. -/
opaque writeSeen : Nat → Bool

/-- What an operation leaves where its limb shifts would break their precondition `bits <= L` (45_engine_sharded.md R129), by the
limb width, the shift and the operands. No such call is made: the geometry that would need one is in no state a run reaches.
A free value. DESIGN CHOICE (log 13), safe. -/
opaque overlongShift : Nat → Nat → List Nat → Nat

/-- What FIN's number comes from where Finalize's steps give one at or above `2^WIDTH`, by WIDTH and that number; FIN delivers it
below `2^WIDTH` (30_encoding.md R59; `Machine.boundedResult`). A free value. DESIGN CHOICE (log 19). -/
opaque resultOutOfRange : BitVec 16 → Nat → Nat

end Sys2Proof.Config
end

