-- ==== Sys2Proof/Machine/State.lean ====
section
/-! DEFINITION. The state of one CRCENG engine (10_state.md R10), of the host that drives it and of the platform it sits in,
the reasons a step can stop, and the state after power-on reset. -/

namespace Sys2Proof.Machine

/-- `STATE` (10_state.md R14). Value 2 FINALIZING is never observable and is not represented (R14, log 5). -/
inductive Phase where
  | unconfigured | accumulating
deriving DecidableEq, Repr

/-- The codes of `ERR` and of a response's status (60_exceptions.md R180); codes 4 to 15 are never produced. -/
inductive ErrCode where
  | ok | invalidParameter | notConfigured | illegalCommand
deriving DecidableEq, Repr

/-- One engine instance: exactly the state of 10_state.md R10. An S-bit vector is a number below `2 ^ s` (00_scope.md R7);
limb `j` of one is its slice of 10_state.md R11. -/
structure Engine where
  /-- `STATE` (R14). -/
  status : Phase
  /-- `ERR` (R15). -/
  err : ErrCode
  /-- `SHAPE` (R16). -/
  shape : Shape
  /-- `L`, limb width in bits (R16). -/
  l : Nat
  /-- `NL`, limb count (R16). -/
  nl : Nat
  /-- `S`, storage bits (R16). -/
  s : Nat
  /-- `WIDTH` (R16, R19). -/
  width : BitVec 16
  /-- `MOVES`, padding bits (R16). -/
  moves : Nat
  /-- `REFIN` (R17). -/
  refin : Bool
  /-- `REFOUT` (R17). -/
  refout : Bool
  /-- `TMODE` (R17). -/
  tmode : TMode
  /-- `POLY_P` (R18). -/
  polyP : Nat
  /-- `INIT_P` (R18). -/
  initP : Nat
  /-- `XOROUT_P` (R18). -/
  xoroutP : Nat
  /-- `CKLEN` (R19). -/
  cklen : Nat
  /-- `WITHTABLE` (R19). -/
  withTable : Bool
  /-- `REG` (R11). -/
  reg : Nat
  /-- `TABLE`, entry `k*256 + i` at that index (R20). -/
  table : List Nat
deriving DecidableEq, Repr

/-- The payload of a successful response (30_encoding.md R59). -/
inductive Payload where
  /-- No payload: CFG, UPD, UPDB, RST, and every fault. -/
  | none
  /-- FIN: `(WIDTH, result)`. -/
  | result (width : BitVec 16) (value : Nat)
  /-- REFL: one value of the selected width. -/
  | scalar (width : LimbWidth) (value : Nat)
  /-- REFLM: the limbs, limb 0 most significant. -/
  | limbs (width : LimbWidth) (value : List Nat)
  /-- TCLONE: `(TMODE, entries)`. -/
  | table (tmode : TMode) (entries : List Nat)
deriving DecidableEq, Repr

/-- The one response of a command (30_encoding.md R59). -/
structure Response where
  status : ErrCode
  payload : Payload
deriving DecidableEq, Repr

/-- The operand bundle presented with a command word (30_encoding.md R56). A command ignores the operands it does not list. -/
structure Bundle where
  opPoly : Nat
  opInit : Nat
  opXorout : Nat
  opTable : List Nat
  opBase : Nat
  opOff : Nat
  opLen : Nat
  opA : BitVec 64
  opLimbs : List Nat
deriving DecidableEq, Repr

/-- What the host, or the platform, does next (00_scope.md R6). -/
inductive HostEvent where
  /-- The host issues a command: word, bundle, and the BUF bytes other agents write between its issue and its response
  (20_memory.md R39; empty for a host that keeps rule R205). -/
  | command (word : Word) (bundle : Bundle) (writes : List Host.Cell)
  /-- The host writes a byte of BUF between two commands (20_memory.md R40). -/
  | bufWrite (addr : Nat) (byte : Byte)
  /-- Power-on reset (70_reset_and_hazards.md R200). -/
  | por
deriving DecidableEq, Repr

/-- A range of BUF addresses, `base` to `base + size - 1`. -/
structure Region where
  base : Nat
  size : Nat
deriving DecidableEq, Repr

/-- The OPEN parameters of 00_scope.md R5. No step changes them. -/
structure Platform where
  /-- `MAX_WIDTH`, 128..65535; 65535 stands for "none" (92_eei_decisions.md D9). -/
  maxWidth : Nat
  /-- `ADDR_BITS`, at least 1. -/
  addrBits : Nat
  /-- `BufReadable`: the readable addresses are those of these regions. -/
  readable : List Region
deriving DecidableEq, Repr

/-- Bytes at addresses, addresses strictly rising; an unlisted address holds no listed byte. -/
abbrev Memory := List Host.Cell

/-- The whole model: the engine, and around it the host and the platform. -/
structure State where
  /-- The engine instance. -/
  eng : Engine
  /-- `BUF`: the bytes the host has written (20_memory.md R30, R31). -/
  buf : Memory
  /-- The platform's parameters. -/
  plat : Platform
  /-- The operand bundle at the command port; host wires, not engine state (10_state.md R22, log 1). -/
  port : Bundle
  /-- What the host does next, first event first (log 1). -/
  inbox : List HostEvent
  /-- The responses delivered to the host, newest first; the engine latches none (10_state.md R22, log 8). -/
  responses : List Response
  /-- How many free values `Config.writeSeen` have been drawn; the model's own field (20_memory.md R39, log 9). -/
  draws : Nat
deriving DecidableEq, Repr

/-- Why the machine stops with a fault. The spec's own three faults stop nothing: they are taken as next states
(60_exceptions.md R183). -/
inductive Fault where
  /-- Raised when the HOST writes a BUF address at or above `2 ^ ADDR_BITS`, which 20_memory.md R31 says does not exist.
  No command raises it. Safe: the machine stops where no behaviour exists (log 15). -/
  | noSuchAddress
deriving DecidableEq, Repr

/-- Why a step is refused (60_exceptions.md R193). -/
inductive Refusal where
  /-- Raised by `exec` for an instruction without a meaning. No arm raises it. Safe. -/
  | notModelled (mnemonic : String)
  /-- Raised by CFG with `op_poly`, `op_init` or `op_xorout` at or above `2 ^ width` (42_normalizer.md R80, R193 (a)). Safe. -/
  | operandAboveWidth
  /-- Raised by CFG, UPDB and REFLM for an operand that the port cannot carry (30_encoding.md R56: an operand outside its
  range "cannot be presented"). Safe: no such command reaches the hardware (log 7). -/
  | operandNotPresentable
  /-- Raised by UPDB whose range overflows `2 ^ ADDR_BITS` (20_memory.md R32, R193 (b)). Safe. -/
  | bufRangeOverflow
  /-- Raised by UPDB whose range includes an address that is not BufReadable (20_memory.md R32, R193 (b)). Safe. -/
  | bufNotReadable
deriving DecidableEq, Repr

/-- The engine after POR (10_state.md R23, 70_reset_and_hazards.md R200): STATE and ERR as the spec gives them.
Every other register is unspecified there; the values here are DESIGN CHOICES (log 2), unsafe, and no command's behaviour
depends on them (statement UnspecifiedRegistersNeverMatter). -/
def Engine.reset : Engine where
  status := .unconfigured
  err := .ok
  shape := .n8
  l := 0
  nl := 0
  s := 0
  width := 0
  moves := 0
  refin := false
  refout := false
  tmode := .none
  polyP := 0
  initP := 0
  xoroutP := 0
  cklen := 0
  withTable := false
  reg := 0
  table := []

/-- A bundle of zeros: nothing is presented at the port. -/
def Bundle.zero : Bundle where
  opPoly := 0
  opInit := 0
  opXorout := 0
  opTable := []
  opBase := 0
  opOff := 0
  opLen := 0
  opA := 0
  opLimbs := []

/-- The machine right after power-on reset (70_reset_and_hazards.md R200), with nothing issued, BUF unwritten and the
platform of Config. -/
def State.reset : State where
  eng := Engine.reset
  buf := []
  plat :=
    { maxWidth := Config.maxWidth
      addrBits := Config.addrBits
      readable := [{ base := 0, size := 2 ^ Config.addrBits }] }
  port := Bundle.zero
  inbox := []
  responses := []
  draws := 0

end Sys2Proof.Machine
end

