-- ==== Sys2Proof/Machine/Ops.lean ====
section
/-! DEFINITION. The shared operations: S-bit vectors (00_scope.md R7), BUF (20_memory.md R30 to R33), the delivery of a
response (30_encoding.md R59), taking a fault (60_exceptions.md R183) and power-on reset (70_reset_and_hazards.md R200). -/

namespace Sys2Proof.Machine

/-! ### S-bit vectors (00_scope.md R7) -/

/-- `shl_S(v, k) = (v * 2^k) mod 2^S`. -/
def shl (S v k : Nat) : Nat := v * 2 ^ k % 2 ^ S

/-- `shr(v, k) = floor(v / 2^k)`. -/
def shr (v k : Nat) : Nat := v / 2 ^ k

/-- `v[lo+len-1 : lo] = floor(v / 2^lo) mod 2^len`. -/
def slice (v lo len : Nat) : Nat := v / 2 ^ lo % 2 ^ len

/-- `val_L(x)`, the sum of `x[j] * 2^(L*(n-1-j))`: limb 0 most significant. -/
def limbVal (L : Nat) : List Nat → Nat
  | [] => 0
  | d :: rest => d * 2 ^ (L * rest.length) + limbVal L rest

/-- `limbs_{L,n}(v)[j] = v[L*(n-j)-1 : L*(n-1-j)]`. -/
def limbsOf (L : Nat) : Nat → Nat → List Nat
  | 0, _ => []
  | n + 1, v => slice v (L * n) L :: limbsOf L n v

/-- An operation whose limb shifts go up to `k` bits, on limbs of `L` bits: with `k <= L` the operation; else no shift is made
and the result is `free`, a free value (45_engine_sharded.md R129, log 13). -/
def withinLimb {α : Type} (k L : Nat) (op : k ≤ L → α) (free : α) : α := if h : k ≤ L then op h else free

/-! ### BUF -/

/-- The listed byte at an address. -/
def Memory.read : Memory → Nat → Option Byte
  | [], _ => none
  | (a, b) :: rest, addr => if a = addr then some b else Memory.read rest addr

/-- List a byte at an address, addresses kept strictly rising. -/
def Memory.write : Memory → Nat → Byte → Memory
  | [], addr, byte => [(addr, byte)]
  | (a, b) :: rest, addr, byte =>
    if addr < a then (addr, byte) :: (a, b) :: rest
    else if addr = a then (addr, byte) :: rest
    else (a, b) :: Memory.write rest addr byte

/-- Every listed address lies above `lo`, and they strictly rise. -/
def Memory.risesAbove : Nat → Memory → Bool
  | _, [] => true
  | lo, (a, _) :: rest => decide (lo < a) && Memory.risesAbove a rest

/-- The canonical form: strictly rising addresses. An unlisted address reads as no listed byte, so no entry equals what an
unlisted address reads as. -/
def Memory.wf : Memory → Bool
  | [] => true
  | (a, _) :: rest => Memory.risesAbove a rest

/-- `BUF[a]`: the byte the host has written there, else the unknown byte the host's memory holds (log 4). -/
def bufByte (buf : Memory) (addr : Nat) : Byte := (buf.read addr).getD (Config.bufInitial addr)

/-- `MemRead(a, 1)`, the only memory primitive: a value 0..255, no side effect (20_memory.md R33). -/
def memRead (s : State) (addr : Nat) : Nat := (bufByte s.buf addr).toNat

/-- `BufReadable(a)` (00_scope.md R5, 20_memory.md R31). -/
def Platform.bufReadable (p : Platform) (addr : Nat) : Bool :=
  p.readable.any fun r => decide (r.base ≤ addr) && decide (addr < r.base + r.size)

/-- The host writes one byte of its memory (20_memory.md R30, R31); an address at or above `2 ^ ADDR_BITS` does not exist. -/
def hostWrite (addr : Nat) (byte : Byte) (s : State) : Host.Outcome State Fault Refusal :=
  if addr < 2 ^ s.plat.addrBits then .next { s with buf := s.buf.write addr byte } else .fault .noSuchAddress

/-- Several host writes, in order. -/
def hostWrites : List Host.Cell → State → Host.Outcome State Fault Refusal
  | [], s => .next s
  | (a, b) :: rest, s =>
    match hostWrite a b s with
    | .next t => hostWrites rest t
    | .fault f => .fault f
    | .refused r => .refused r

/-! ### Responses, faults, reset -/

/-- Deliver a response to the host; nothing else changes (30_encoding.md R59, 10_state.md R22). -/
def deliver (r : Response) (s : State) : State := { s with responses := r :: s.responses }

/-- `respond(p)`: end the command with status 0 (00_scope.md R7, 60_exceptions.md R182). -/
def respond (p : Payload) (s : State) : State := deliver { status := .ok, payload := p } s

/-- Replace the engine's `ERR`. -/
def setErr (c : ErrCode) (s : State) : State := { s with eng := { s.eng with err := c } }

/-- Replace the engine's `REG`. -/
def setReg (v : Nat) (s : State) : State := { s with eng := { s.eng with reg := v } }

/-- `raise F`: ERR takes the code, the response carries it without payload, nothing else is written (60_exceptions.md R183).
There is no return from a fault: the next command runs normally (R187). -/
def raiseFault (c : ErrCode) (s : State) : State := deliver { status := c, payload := .none } (setErr c s)

/-- POR: the engine takes its reset state; the host's memory, what it has received and the platform stay
(70_reset_and_hazards.md R200, log 11). -/
def powerOnReset (s : State) : State := { s with eng := Engine.reset }

end Sys2Proof.Machine
end

