-- ==== Sys2Proof/Machine/Operands.lean ====
section
/-! DEFINITION. Operands: the meaning of the decoded fields (30_encoding.md R50, R51, R53, R54), the ranges and conditions of
the bundle (R56), and the addresses of UPDB (20_memory.md R32). -/

namespace Sys2Proof.Machine

/-- The number of bits a `bw` or `lb` field selects (30_encoding.md R53, R54). -/
def limbBits : LimbWidth → Nat
  | .w8 => 8 | .w16 => 16 | .w32 => 32 | .w64 => 64

/-- How a shape holds its register: one native word, an array of limbs, or two 64-bit limbs (30_encoding.md R50). -/
inductive ShapeKind where
  | native | sharded | twoLimb
deriving DecidableEq, Repr

/-- Column "Kind" of 30_encoding.md R50. -/
def shapeKind : Shape → ShapeKind
  | .n8 => .native | .n16 => .native | .n32 => .native | .n64 => .native
  | .s8 => .sharded | .s16 => .sharded | .s32 => .sharded | .s64 => .sharded
  | .d128 => .twoLimb

/-- Column "L" of 30_encoding.md R50. -/
def shapeLimbBits : Shape → Nat
  | .n8 => 8 | .n16 => 16 | .n32 => 32 | .n64 => 64
  | .s8 => 8 | .s16 => 16 | .s32 => 32 | .s64 => 64
  | .d128 => 64

/-- Entries of the table: 0, 256 or 4096 (10_state.md R20). -/
def tableCount : TMode → Nat
  | .none => 0 | .t256 => 256 | .t4096 => 4096

/-- Slices of the table: 256 entries each (43_tablebuilder.md R85). -/
def tableSlices : TMode → Nat
  | .none => 0 | .t256 => 1 | .t4096 => 16

/-- The port carries `count` numbers of `bits` bits (30_encoding.md R56, rows `op_table` and `op_limbs`). -/
def presentableList (count bits : Nat) (xs : List Nat) : Bool :=
  decide (xs.length = count) && xs.all fun x => decide (x < 2 ^ bits)

/-- `op_poly`, `op_init` and `op_xorout` meet the condition of 42_normalizer.md R80. -/
def operandsBelowWidth (width : Nat) (p : Bundle) : Bool :=
  decide (p.opPoly < 2 ^ width) && decide (p.opInit < 2 ^ width) && decide (p.opXorout < 2 ^ width)

/-- `op_base`, `op_off` and `op_len` are numbers of ADDR_BITS bits (30_encoding.md R56). -/
def addressesPresentable (s : State) : Bool :=
  decide (s.port.opBase < 2 ^ s.plat.addrBits) && decide (s.port.opOff < 2 ^ s.plat.addrBits) &&
    decide (s.port.opLen < 2 ^ s.plat.addrBits)

/-- `EA(i) = op_base + op_off + i`, over the naturals, without wrap-around (20_memory.md R32). -/
def effectiveAddress (p : Bundle) (i : Nat) : Nat := p.opBase + p.opOff + i

/-- `op_len = 0`, or the range ends inside the address space (20_memory.md R32). -/
def rangeInside (s : State) : Bool :=
  decide (s.port.opLen = 0) || decide (s.port.opBase + s.port.opOff + s.port.opLen ≤ 2 ^ s.plat.addrBits)

/-- Every byte of the range is BufReadable (20_memory.md R32). -/
def rangeReadable (s : State) : Bool :=
  (List.range s.port.opLen).all fun i => s.plat.bufReadable (effectiveAddress s.port i)

/-- The bytes of the range, in the order they are read: `EA(0)` first, each once (20_memory.md R33). -/
def rangeBytes (s : State) : List Nat :=
  (List.range s.port.opLen).map fun i => memRead s (effectiveAddress s.port i)

/-- `op_a[w-1:0]`: higher bits are ignored (41_bitreflector.md R70). -/
def scalarOperand (w : LimbWidth) (p : Bundle) : Nat := slice p.opA.toNat 0 (limbBits w)

/-- The bundle of zeros in the form a command's port has: its table or limb operand holds as many zeros as the command takes
(30_encoding.md R56). -/
def zeroBundleFor : Instr → Bundle
  | .cfg _ tsrc tmode _ _ _ =>
    match tsrc with
    | .build => Bundle.zero
    | .explicit => { Bundle.zero with opTable := List.replicate (tableCount tmode) 0 }
  | .upd _ => Bundle.zero
  | .updb => Bundle.zero
  | .fin => Bundle.zero
  | .rst => Bundle.zero
  | .refl _ => Bundle.zero
  | .reflm count _ => { Bundle.zero with opLimbs := List.replicate count.toNat 0 }
  | .tclone => Bundle.zero

end Sys2Proof.Machine
end

