-- ==== Sys2Proof/Machine/Reflector.lean ====
section
/-! DEFINITION. The bit-reflector unit and its commands REFL and REFLM (41_bitreflector.md R65 to R72). -/

namespace Sys2Proof.Machine

/-- `reflect_w(v)`: bit `i` of the result is bit `w-1-i` of `v` (41_bitreflector.md R66). The contract, for every `w`. -/
def reflect : Nat → Nat → Nat
  | 0, _ => 0
  | w + 1, v => v % 2 * 2 ^ w + reflect w (v / 2)

/-- The groups `g` and masks `M_g` of the swap network, 64 bits wide (41_bitreflector.md R67). -/
def swapMasks : List (Nat × Nat) :=
  [(1, 0x5555555555555555), (2, 0x3333333333333333), (4, 0x0F0F0F0F0F0F0F0F),
   (8, 0x00FF00FF00FF00FF), (16, 0x0000FFFF0000FFFF), (32, 0x00000000FFFFFFFF)]

/-- One stage: adjacent groups of `g` bits change places (41_bitreflector.md R67). -/
def swapStage (w v : Nat) (gm : Nat × Nat) : Nat :=
  (shr v gm.1 &&& gm.2 % 2 ^ w) ||| shl w (v &&& gm.2 % 2 ^ w) gm.1

/-- `reflect_swap_w(v)`: the stages g = 1, 2, 4, ..., w/2 (41_bitreflector.md R67). The scalar unit, for w in 8, 16, 32, 64. -/
def reflectSwap (w v : Nat) : Nat := (swapMasks.filter fun gm => gm.1 < w).foldl (swapStage w) v

/-- `Reverse_L(x)`: limb order reversed, each limb reflected by the scalar unit (41_bitreflector.md R69, R71). -/
def limbReverse (L : Nat) (x : List Nat) : List Nat := x.reverse.map (reflectSwap L)

/-- `REFL w, v` (41_bitreflector.md R70): legal in any STATE, writes no engine state. -/
def execRefl (bw : LimbWidth) (s : State) : Host.Outcome State Fault Refusal :=
  .next (respond (.scalar bw (reflectSwap (limbBits bw) (scalarOperand bw s.port))) s)

/-- `REFLM L, [x0, ..., x(n-1)]` (41_bitreflector.md R71): legal in any STATE, writes no engine state. -/
def execReflm (count : BitVec 16) (lb : LimbWidth) (s : State) : Host.Outcome State Fault Refusal :=
  if presentableList count.toNat (limbBits lb) s.port.opLimbs then
    .next (respond (.limbs lb (limbReverse (limbBits lb) s.port.opLimbs)) s)
  else .refused .operandNotPresentable

end Sys2Proof.Machine
end

