-- ==== Sys2Proof/Machine/Normalizer.lean ====
section
/-! DEFINITION. Register geometry and the parameter normaliser on one S-bit register (42_normalizer.md R75 to R80). The same
functions on limb arrays are in Machine/Limbs.lean and Machine/TwoLimb.lean. -/

namespace Sys2Proof.Machine

/-- What `Geometry` returns: `(L, n, S, moves)` (42_normalizer.md R76). -/
structure Geom where
  l : Nat
  nl : Nat
  s : Nat
  moves : Nat
deriving DecidableEq, Repr

/-- The geometry with limbs of `l` bits, `nl` of them: `S = L * n`, `moves = S - width` (42_normalizer.md R76, R77). -/
def geomOf (l nl width : Nat) : Geom := { l := l, nl := nl, s := l * nl, moves := l * nl - width }

/-- `Geometry(shape, width)`; `none` is `raise INVALID_PARAMETER` (42_normalizer.md R76, 60_exceptions.md R181). -/
def geometry (maxWidth : Nat) (shape : Shape) (width : Nat) : Option Geom :=
  if width = 0 then none
  else
    match shapeKind shape with
    | .native => if width > shapeLimbBits shape then none else some (geomOf (shapeLimbBits shape) 1 width)
    | .sharded =>
      if width > maxWidth then none
      else some (geomOf (shapeLimbBits shape) ((width + shapeLimbBits shape - 1) / shapeLimbBits shape) width)
    | .twoLimb => if width ≤ 64 ∨ width > 128 then none else some (geomOf 64 2 width)

/-- The two steps of `parse`, shift first and then reflect, with the reflection given (42_normalizer.md R78). -/
def parseWith (refl : Nat → Nat) (raw S moves : Nat) (refin : Bool) : Nat :=
  let v := if moves > 0 then shl S raw moves else raw
  if refin then refl v else v

/-- `parse(raw, S, width, refin)` (42_normalizer.md R78). -/
def parse (raw S width : Nat) (refin : Bool) : Nat := parseWith (reflect S) raw S (S - width) refin

/-- `parse` as a native shape carries it out: its reflection is the swap network (41_bitreflector.md R72). -/
def nativeParse (raw S moves : Nat) (refin : Bool) : Nat := parseWith (reflectSwap S) raw S moves refin

/-- `truncateLeft(x, S, moves) = x mod 2^(S - moves)` (42_normalizer.md R79). -/
def truncateLeft (x S moves : Nat) : Nat := x % 2 ^ (S - moves)

/-- `CKLEN = ceil(WIDTH / 8)` (10_state.md R19). -/
def checksumBytes (width : Nat) : Nat := (width + 7) / 8

end Sys2Proof.Machine
end

