-- ==== Sys2Proof/Machine/TableBuilder.lean ====
section
/-! DEFINITION. The division steps and the table builder on one S-bit register (43_tablebuilder.md R85 to R90), and the
command TCLONE (R94). The multi-limb builder (R91) is in Machine/Limbs.lean and Machine/TwoLimb.lean. -/

namespace Sys2Proof.Machine

/-- One forward bit-serial step: the top bit is tested before the shift, the xor comes after it (43_tablebuilder.md R86). -/
def bitStepF (S polyP r : Nat) : Nat :=
  if r.testBit (S - 1) then shl S r 1 ^^^ polyP else shl S r 1

/-- One reflected bit-serial step: the bottom bit is tested before the shift (43_tablebuilder.md R87). -/
def bitStepR (polyP r : Nat) : Nat :=
  if r.testBit 0 then shr r 1 ^^^ polyP else shr r 1

/-- `DivF(R)`: eight forward steps (43_tablebuilder.md R86). -/
def divF (S polyP r : Nat) : Nat := (bitStepF S polyP)^[8] r

/-- `DivR(R)`: eight reflected steps (43_tablebuilder.md R87). -/
def divR (polyP r : Nat) : Nat := (bitStepR polyP)^[8] r

/-- `Div`: `DivF` when refin = 0, `DivR` when refin = 1 (43_tablebuilder.md R90). -/
def divStep (S polyP : Nat) (refin : Bool) (r : Nat) : Nat := if refin then divR polyP r else divF S polyP r

/-- The seed of entry `i`: the top 8 bits (forward) or the bottom 8 bits (reflected) (43_tablebuilder.md R88, R89). -/
def tableSeed (S : Nat) (refin : Bool) (i : Nat) : Nat := if refin then i else shl S i (S - 8)

/-- Slices laid one after another, each the previous one advanced by `div` (43_tablebuilder.md R90). -/
def chainSlices {α : Type} (div : α → α) : Nat → List α → List α
  | 0, _ => []
  | n + 1, first => first ++ chainSlices div n (first.map div)

/-- `BuildTable(polyP, S, refin, slices)` (43_tablebuilder.md R85 to R90): entry `k*256 + i` is k+1 applications of `Div`
to seed `i`. -/
def buildTable (S polyP : Nat) (refin : Bool) (slices : Nat) : List Nat :=
  chainSlices (divStep S polyP refin) slices
    ((List.range 256).map fun i => divStep S polyP refin (tableSeed S refin i))

/-- `TABLE[e]` (20_memory.md R44). The index is in range by construction once a CFG has succeeded; beyond the entries, in
states no run reaches, the read gives 0 (log 16). -/
def tableAt (table : List Nat) (e : Nat) : Nat := table.getD e 0

/-- `TCLONE` (43_tablebuilder.md R94). -/
def execTclone (s : State) : Host.Outcome State Fault Refusal :=
  match s.eng.status with
  | .unconfigured => .next (raiseFault .notConfigured s)
  | .accumulating => .next (respond (.table s.eng.tmode s.eng.table) s)

end Sys2Proof.Machine
end

