-- ==== Sys2Proof/Machine/Native.lean ====
section
/-! DEFINITION. The engine's arithmetic on one S-bit register (44_engine_native.md R103, R105, R108). For the native shapes it
is the implementation (R110); for the other shapes it is what their limb-level realisation must agree with
(45_engine_sharded.md R135). -/

namespace Sys2Proof.Machine

/-- `ByteStep(R, b)`, the four variants (44_engine_native.md R103). -/
def byteStep (S : Nat) (tmode : TMode) (refin : Bool) (polyP : Nat) (table : List Nat) (r b : Nat) : Nat :=
  match tmode, refin with
  | .none, false => divF S polyP (r ^^^ shl S b (S - 8))
  | .none, true => divR polyP (r ^^^ b)
  | .t256, false | .t4096, false => shl S r 8 ^^^ tableAt table (shr r (S - 8) ^^^ b)
  | .t256, true | .t4096, true => shr r 8 ^^^ tableAt table ((r ^^^ b) % 256)

/-- `rb(j)`: byte j of R counted from the end the data enters, 0 beyond the register (44_engine_native.md R105). -/
def registerByte (S : Nat) (refin : Bool) (r j : Nat) : Nat :=
  if j < S / 8 then (if refin then slice r (8 * j) 8 else slice r (S - 8 - 8 * j) 8) else 0

/-- `Block16(R, d[0..15])` (44_engine_native.md R105). -/
def block16 (S : Nat) (refin : Bool) (table : List Nat) (r : Nat) (d : List Nat) : Nat :=
  let acc := (List.range 16).foldl
    (fun acc j => acc ^^^ tableAt table ((15 - j) * 256 + (d.getD j 0 ^^^ registerByte S refin r j))) 0
  (if refin then shr r 128 else shl S r 128) ^^^ acc

/-- The three steps of `Finalize`, with the reflection given (44_engine_native.md R108). -/
def finalizeWith (refl : Nat → Nat) (moves : Nat) (refin refout : Bool) (xoroutP r : Nat) : Nat :=
  let v := if refout != refin then refl r else r
  let v := if moves > 0 ∧ refout = false then shr v moves else v
  v ^^^ xoroutP

/-- `Finalize(R)` (44_engine_native.md R108). -/
def finalize (S moves : Nat) (refin refout : Bool) (xoroutP r : Nat) : Nat :=
  finalizeWith (reflect S) moves refin refout xoroutP r

/-- `Finalize` as a native shape carries it out: its reflection is the swap network (44_engine_native.md R110). -/
def nativeFinalize (S moves : Nat) (refin refout : Bool) (xoroutP r : Nat) : Nat :=
  finalizeWith (reflectSwap S) moves refin refout xoroutP r

/-- FIN's result from the number `v` of Finalize's steps: `result < 2^WIDTH` (30_encoding.md R59, 20_memory.md R34 (d),
47_interface.md R154). The steps give such a number wherever the padding is zero (R108, 10_state.md R25). Where they do not
(refout = 1 after an explicit table that breaks the padding, 43_tablebuilder.md R93) no rule states the value, and it is a free
value within the bound. DESIGN CHOICE (log 19). -/
def boundedResult (width : BitVec 16) (v : Nat) : Nat :=
  if v < 2 ^ width.toNat then v else Config.resultOutOfRange width v % 2 ^ width.toNat

end Sys2Proof.Machine
end

