-- ==== Sys2Proof/Machine/Limbs.lean ====
section
/-! DEFINITION. The sharded shapes: registers, constants and table entries as arrays of limbs of L bits, limb 0 most
significant (45_engine_sharded.md R125 to R134, 42_normalizer.md R81, 43_tablebuilder.md R91). -/

namespace Sys2Proof.Machine

/-- `ShiftLeft_L(x, bits)` (45_engine_sharded.md R126). `bits <= L` is its precondition: a call with more cannot be written
(R129). -/
def limbShiftLeft (L bits : Nat) (h : bits ≤ L) : List Nat → List Nat
  | [] => []
  | d :: rest => (d * 2 ^ bits % 2 ^ L ||| rest.headD 0 / 2 ^ (L - bits)) :: limbShiftLeft L bits h rest

/-- `ShiftRight_L` with `prv` the limb before the first (45_engine_sharded.md R127, R129). -/
def limbShiftRightFrom (L bits : Nat) (h : bits ≤ L) : Nat → List Nat → List Nat
  | _, [] => []
  | prv, d :: rest => (d / 2 ^ bits ||| prv * 2 ^ (L - bits) % 2 ^ L) :: limbShiftRightFrom L bits h d rest

/-- `ShiftRight_L(x, bits)` (45_engine_sharded.md R127). `bits <= L` is its precondition: a call with more cannot be written
(R129). -/
def limbShiftRight (L bits : Nat) (h : bits ≤ L) (x : List Nat) : List Nat := limbShiftRightFrom L bits h 0 x

/-- `Xor(x, y)`, element-wise (45_engine_sharded.md R128). -/
def limbXor (x y : List Nat) : List Nat := List.zipWith (· ^^^ ·) x y

/-- `x[0] <- x[0] ^ v`. -/
def xorFirst (v : Nat) : List Nat → List Nat
  | [] => []
  | d :: rest => (d ^^^ v) :: rest

/-- `x[n-1] <- x[n-1] ^ v`. -/
def xorLast (v : Nat) : List Nat → List Nat
  | [] => []
  | [d] => [d ^^^ v]
  | d :: e :: rest => d :: xorLast v (e :: rest)

/-- `parse_limbs(x, L, moves, refin)` (42_normalizer.md R81): the shift comes before the reversal (45_engine_sharded.md R130). -/
def limbParse (L moves : Nat) (h : moves ≤ L) (refin : Bool) (x : List Nat) : List Nat :=
  let x := if moves > 0 then limbShiftLeft L moves h x else x
  if refin then limbReverse L x else x

/-- `truncateLeft_limbs(x, L, moves)`: only limb 0 is masked (42_normalizer.md R81). -/
def limbTruncateLeft (L moves : Nat) : List Nat → List Nat
  | [] => []
  | d :: rest => d % 2 ^ (L - moves) :: rest

/-- One forward bit-serial step on limbs: `top` is bit L-1 of limb 0 (45_engine_sharded.md R131). -/
def limbBitStepF (L : Nat) (h : 1 ≤ L) (polyP x : List Nat) : List Nat :=
  let y := limbShiftLeft L 1 h x
  if x.headD 0 / 2 ^ (L - 1) = 1 then limbXor y polyP else y

/-- One reflected bit-serial step on limbs: `bot` is bit 0 of the last limb (45_engine_sharded.md R131). -/
def limbBitStepR (L : Nat) (h : 1 ≤ L) (polyP x : List Nat) : List Nat :=
  let y := limbShiftRight L 1 h x
  if x.getLastD 0 % 2 = 1 then limbXor y polyP else y

/-- Eight steps in the direction of REFIN (45_engine_sharded.md R131, 43_tablebuilder.md R91). -/
def limbDivStep (L : Nat) (h : 1 ≤ L) (polyP : List Nat) (refin : Bool) (x : List Nat) : List Nat :=
  if refin then (limbBitStepR L h polyP)^[8] x else (limbBitStepF L h polyP)^[8] x

/-- The seed of entry `i`: `limb[0] = shl_L(i, L-8)` forward, `limb[n-1] = i` reflected, other limbs 0 (43_tablebuilder.md R91). -/
def limbTableSeed (L n : Nat) (refin : Bool) (i : Nat) : List Nat :=
  if refin then xorLast i (List.replicate n 0) else xorFirst (shl L i (L - 8)) (List.replicate n 0)

/-- The multi-limb table (43_tablebuilder.md R91, 45_engine_sharded.md R132). -/
def limbBuildTable (L n : Nat) (h : 1 ≤ L) (polyP : List Nat) (refin : Bool) (slices : Nat) : List (List Nat) :=
  chainSlices (limbDivStep L h polyP refin) slices
    ((List.range 256).map fun i => limbDivStep L h polyP refin (limbTableSeed L n refin i))

/-- `ByteStep` on a limb array (45_engine_sharded.md R131); `entry e` is `TABLE[e]` cut into limbs. The index is computed
before the shift. -/
def limbByteStep (L : Nat) (h : 8 ≤ L) (tmode : TMode) (refin : Bool) (polyP : List Nat) (entry : Nat → List Nat)
    (x : List Nat) (b : Nat) : List Nat :=
  match tmode, refin with
  | .none, false => limbDivStep L (by omega) polyP false (xorFirst (b * 2 ^ (L - 8)) x)
  | .none, true => limbDivStep L (by omega) polyP true (xorLast b x)
  | .t256, false | .t4096, false =>
    limbXor (limbShiftLeft L 8 h x) (entry (x.headD 0 / 2 ^ (L - 8) ^^^ b))
  | .t256, true | .t4096, true =>
    limbXor (limbShiftRight L 8 h x) (entry (x.getLastD 0 % 256 ^^^ b))

/-- `rb(j)` on a limb array, `per = L/8` bytes in a limb (45_engine_sharded.md R133). -/
def limbRegisterByte (L : Nat) (refin : Bool) (x : List Nat) (j : Nat) : Nat :=
  let per := L / 8
  if j < x.length * per then
    if refin then x.getD (x.length - 1 - j / per) 0 / 2 ^ (8 * (j % per)) % 256
    else x.getD (j / per) 0 / 2 ^ (L - 8 * (j % per + 1)) % 256
  else 0

/-- `Block16` on a limb array: the shift by 128 bits is sixteen limb shifts by 8 (45_engine_sharded.md R133). -/
def limbBlock16 (L : Nat) (h : 8 ≤ L) (refin : Bool) (entry : Nat → List Nat) (x : List Nat) (d : List Nat) : List Nat :=
  let acc := (List.range 16).foldl
    (fun acc j => limbXor acc (entry ((15 - j) * 256 + (d.getD j 0 ^^^ limbRegisterByte L refin x j))))
    (List.replicate x.length 0)
  let shifted := if refin then (limbShiftRight L 8 h)^[16] x else (limbShiftLeft L 8 h)^[16] x
  limbXor shifted acc

/-- `Finalize` on a limb array, up to `val_L` (45_engine_sharded.md R134). -/
def limbFinalize (L moves : Nat) (h : moves ≤ L) (refin refout : Bool) (xoroutP x : List Nat) : List Nat :=
  let v := if refout != refin then limbReverse L x else x
  let v := if moves > 0 ∧ refout = false then limbShiftRight L moves h v else v
  limbXor v xoroutP

end Sys2Proof.Machine
end

