-- ==== Sys2Proof/Machine/TwoLimb.lean ====
section
/-! DEFINITION. Shape D128: two 64-bit limbs, the formulas written out without a loop over limbs
(46_engine_128.md R145 to R147). -/

namespace Sys2Proof.Machine

/-- `hi = limb[0]`, bits 127..64; `lo = limb[1]`, bits 63..0 (46_engine_128.md R145). -/
structure Pair where
  hi : Nat
  lo : Nat
deriving DecidableEq, Repr

/-- The two limbs of a 128-bit vector (46_engine_128.md R145). -/
def pairOf (v : Nat) : Pair := { hi := slice v 64 64, lo := slice v 0 64 }

/-- The 128-bit vector of two limbs. -/
def pairVal (x : Pair) : Nat := x.hi * 2 ^ 64 + x.lo

/-- `hi <- hi ^ t.hi; lo <- lo ^ t.lo` (46_engine_128.md R146). -/
def pairXor (x t : Pair) : Pair := { hi := x.hi ^^^ t.hi, lo := x.lo ^^^ t.lo }

/-- `hi <- ((hi << k) & M) | (lo >> (64 - k)); lo <- (lo << k) & M`; for k = 0 the identity (46_engine_128.md R146, R147). The
precondition is that of the limb shifts it writes out (45_engine_sharded.md R129). -/
def pairShiftLeft (k : Nat) (_ : k ≤ 64) (x : Pair) : Pair :=
  if k = 0 then x
  else { hi := x.hi * 2 ^ k % 2 ^ 64 ||| x.lo / 2 ^ (64 - k), lo := x.lo * 2 ^ k % 2 ^ 64 }

/-- `lo <- (lo >> k) | ((hi << (64 - k)) & M); hi <- hi >> k`; for k = 0 the identity (46_engine_128.md R146, R147). Same
precondition. -/
def pairShiftRight (k : Nat) (_ : k ≤ 64) (x : Pair) : Pair :=
  if k = 0 then x
  else { hi := x.hi / 2 ^ k, lo := x.lo / 2 ^ k ||| x.hi * 2 ^ (64 - k) % 2 ^ 64 }

/-- `Reverse`: `(hi, lo) <- (reflect_64(lo), reflect_64(hi))` (46_engine_128.md R147). -/
def pairReverse (x : Pair) : Pair := { hi := reflectSwap 64 x.lo, lo := reflectSwap 64 x.hi }

/-- `parse` on two limbs (46_engine_128.md R147, 42_normalizer.md R81). -/
def pairParse (moves : Nat) (h : moves ≤ 64) (refin : Bool) (x : Pair) : Pair :=
  let y := pairShiftLeft moves h x
  if refin then pairReverse y else y

/-- `truncateLeft` masks `hi` to its low `64 - MOVES` bits (46_engine_128.md R147). -/
def pairTruncateLeft (moves : Nat) (x : Pair) : Pair := { x with hi := x.hi % 2 ^ (64 - moves) }

/-- One forward table-free step (46_engine_128.md R146). -/
def pairBitStepF (polyP x : Pair) : Pair :=
  let y := pairShiftLeft 1 (by decide) x
  if x.hi / 2 ^ 63 = 1 then pairXor y polyP else y

/-- One reflected table-free step (46_engine_128.md R146). -/
def pairBitStepR (polyP x : Pair) : Pair :=
  let y := pairShiftRight 1 (by decide) x
  if x.lo % 2 = 1 then pairXor y polyP else y

/-- Eight table-free steps in the direction of REFIN (46_engine_128.md R146). -/
def pairDivStep (polyP : Pair) (refin : Bool) (x : Pair) : Pair :=
  if refin then (pairBitStepR polyP)^[8] x else (pairBitStepF polyP)^[8] x

/-- The seeds `(i << 56, 0)` forward and `(0, i)` reflected (46_engine_128.md R147). -/
def pairTableSeed (refin : Bool) (i : Nat) : Pair :=
  if refin then { hi := 0, lo := i } else { hi := i * 2 ^ 56 % 2 ^ 64, lo := 0 }

/-- Table entries are pairs built by the unrolled steps (46_engine_128.md R147). -/
def pairBuildTable (polyP : Pair) (refin : Bool) (slices : Nat) : List Pair :=
  chainSlices (pairDivStep polyP refin) slices
    ((List.range 256).map fun i => pairDivStep polyP refin (pairTableSeed refin i))

/-- `ByteStep` for D128, the four variants (46_engine_128.md R146). -/
def pairByteStep (tmode : TMode) (refin : Bool) (polyP : Pair) (entry : Nat → Pair) (x : Pair) (b : Nat) : Pair :=
  match tmode, refin with
  | .none, false => pairDivStep polyP false { x with hi := x.hi ^^^ b * 2 ^ 56 }
  | .none, true => pairDivStep polyP true { x with lo := x.lo ^^^ b }
  | .t256, false | .t4096, false => pairXor (pairShiftLeft 8 (by decide) x) (entry (x.hi / 2 ^ 56 ^^^ b))
  | .t256, true | .t4096, true => pairXor (pairShiftRight 8 (by decide) x) (entry ((x.lo ^^^ b) % 256))

/-- The sixteen register bytes: those of `hi` then of `lo`, top first (forward); of `lo` then of `hi`, bottom first
(reflected) (46_engine_128.md R147). -/
def pairRegisterByte (refin : Bool) (x : Pair) (j : Nat) : Nat :=
  if refin then (if j < 8 then slice x.lo (8 * j) 8 else slice x.hi (8 * (j - 8)) 8)
  else (if j < 8 then slice x.hi (56 - 8 * j) 8 else slice x.lo (56 - 8 * (j - 8)) 8)

/-- `Block16` for D128: the shifted register term is zero, `REG <- acc` (46_engine_128.md R147). -/
def pairBlock16 (refin : Bool) (entry : Nat → Pair) (x : Pair) (d : List Nat) : Pair :=
  (List.range 16).foldl
    (fun acc j => pairXor acc (entry ((15 - j) * 256 + (d.getD j 0 ^^^ pairRegisterByte refin x j))))
    { hi := 0, lo := 0 }

/-- `Finalize` on two limbs (46_engine_128.md R147, 44_engine_native.md R108). -/
def pairFinalize (moves : Nat) (h : moves ≤ 64) (refin refout : Bool) (xoroutP x : Pair) : Pair :=
  let v := if refout != refin then pairReverse x else x
  let v := if refout = false then pairShiftRight moves h v else v
  pairXor v xoroutP

end Sys2Proof.Machine
end

