-- ==== Sys2Proof/Machine/Shapes.lean ====
section
/-! DEFINITION. The engine's operations on the stored S-bit register, each carried out as the configured shape carries it out:
natively (44_engine_native.md R110), on limbs (45_engine_sharded.md R131 to R134) or on two limbs (46_engine_128.md R146,
R147). In every state a run reaches, limbs have at least 8 bits and MOVES is below L (R129); `withinLimb` asks for it. -/

namespace Sys2Proof.Machine

/-- POLY_P and INIT_P from a raw operand (10_state.md R18, 42_normalizer.md R78, R81). -/
def shapeParse (shape : Shape) (g : Geom) (refin : Bool) (raw : Nat) : Nat :=
  match shapeKind shape with
  | .native => nativeParse raw g.s g.moves refin
  | .sharded =>
    withinLimb g.moves g.l (fun h => limbVal g.l (limbParse g.l g.moves h refin (limbsOf g.l g.nl raw)))
      (Config.overlongShift g.l g.moves [raw])
  | .twoLimb =>
    withinLimb g.moves 64 (fun h => pairVal (pairParse g.moves h refin (pairOf raw)))
      (Config.overlongShift 64 g.moves [raw])

/-- XOROUT_P from a raw operand (10_state.md R18, 42_normalizer.md R79, R81). -/
def shapeTruncate (shape : Shape) (g : Geom) (raw : Nat) : Nat :=
  match shapeKind shape with
  | .native => truncateLeft raw g.s g.moves
  | .sharded => limbVal g.l (limbTruncateLeft g.l g.moves (limbsOf g.l g.nl raw))
  | .twoLimb => pairVal (pairTruncateLeft g.moves (pairOf raw))

/-- The table CFG builds (43_tablebuilder.md R88 to R91, 46_engine_128.md R147). -/
def shapeTable (shape : Shape) (g : Geom) (polyP : Nat) (refin : Bool) (slices : Nat) : List Nat :=
  match shapeKind shape with
  | .native => buildTable g.s polyP refin slices
  | .sharded =>
    withinLimb 1 g.l (fun h => (limbBuildTable g.l g.nl h (limbsOf g.l g.nl polyP) refin slices).map (limbVal g.l))
      ((List.range (256 * slices)).map fun e => Config.overlongShift g.l 1 [polyP, e])
  | .twoLimb => (pairBuildTable (pairOf polyP) refin slices).map pairVal

/-- `ByteStep` of the configured engine on register value `r` (44_engine_native.md R102, R103). -/
def engineByteStep (e : Engine) (r b : Nat) : Nat :=
  match shapeKind e.shape with
  | .native => byteStep e.s e.tmode e.refin e.polyP e.table r b
  | .sharded =>
    withinLimb 8 e.l
      (fun h => limbVal e.l (limbByteStep e.l h e.tmode e.refin (limbsOf e.l e.nl e.polyP)
        (fun i => limbsOf e.l e.nl (tableAt e.table i)) (limbsOf e.l e.nl r) b))
      (Config.overlongShift e.l 8 [r, b])
  | .twoLimb =>
    pairVal (pairByteStep e.tmode e.refin (pairOf e.polyP) (fun i => pairOf (tableAt e.table i)) (pairOf r) b)

/-- `Block16` of the configured engine on register value `r` (44_engine_native.md R105). -/
def engineBlock16 (e : Engine) (r : Nat) (d : List Nat) : Nat :=
  match shapeKind e.shape with
  | .native => block16 e.s e.refin e.table r d
  | .sharded =>
    withinLimb 8 e.l
      (fun h => limbVal e.l (limbBlock16 e.l h e.refin (fun i => limbsOf e.l e.nl (tableAt e.table i))
        (limbsOf e.l e.nl r) d))
      (Config.overlongShift e.l 8 (r :: d))
  | .twoLimb => pairVal (pairBlock16 e.refin (fun i => pairOf (tableAt e.table i)) (pairOf r) d)

/-- `Finalize` of the configured engine on register value `r` (44_engine_native.md R107, R108). -/
def engineFinalize (e : Engine) (r : Nat) : Nat :=
  match shapeKind e.shape with
  | .native => nativeFinalize e.s e.moves e.refin e.refout e.xoroutP r
  | .sharded =>
    withinLimb e.moves e.l
      (fun h => limbVal e.l (limbFinalize e.l e.moves h e.refin e.refout (limbsOf e.l e.nl e.xoroutP)
        (limbsOf e.l e.nl r)))
      (Config.overlongShift e.l e.moves [r])
  | .twoLimb =>
    withinLimb e.moves 64 (fun h => pairVal (pairFinalize e.moves h e.refin e.refout (pairOf e.xoroutP) (pairOf r)))
      (Config.overlongShift 64 e.moves [r])

/-- The number FIN delivers when the register holds `r`: Finalize's, kept below `2^WIDTH` (44_engine_native.md R107,
30_encoding.md R59, log 19). -/
def engineResult (e : Engine) (r : Nat) : Nat := boundedResult e.width (engineFinalize e r)

end Sys2Proof.Machine
end

