-- ==== Sys2Proof/Machine/Commands.lean ====
section
/-! DEFINITION. The engine commands CFG, UPD, UPDB, FIN and RST (44_engine_native.md R100 to R109). -/

namespace Sys2Proof.Machine

/-- The engine instance a successful CFG commits (44_engine_native.md R101): one atomic write of everything. -/
def newEngine (g : Geom) (width : BitVec 16) (tsrc : TSrc) (tmode : TMode) (refout refin : Bool) (shape : Shape)
    (p : Bundle) : Engine :=
  let polyP := shapeParse shape g refin p.opPoly
  let initP := shapeParse shape g refin p.opInit
  { status := .accumulating
    err := .ok
    shape := shape
    l := g.l
    nl := g.nl
    s := g.s
    width := width
    moves := g.moves
    refin := refin
    refout := refout
    tmode := tmode
    polyP := polyP
    initP := initP
    xoroutP := shapeTruncate shape g p.opXorout
    cklen := checksumBytes width.toNat
    withTable := tmode != .none
    reg := initP
    table :=
      match tmode, tsrc with
      | .none, _ => []
      | .t256, .build => shapeTable shape g polyP refin 1
      | .t4096, .build => shapeTable shape g polyP refin 16
      | .t256, .explicit => p.opTable
      | .t4096, .explicit => p.opTable }

/-- `CFG` (44_engine_native.md R101): the faults in their order, then the refusals (60_exceptions.md R186, R193), then the
commit. A decoded command never meets the first test; it is the word's own illegality (30_encoding.md R57). -/
def execCfg (width : BitVec 16) (tsrc : TSrc) (tmode : TMode) (refout refin : Bool) (shape : Shape) (s : State) :
    Host.Outcome State Fault Refusal :=
  if tsrc = .explicit ∧ tmode = .none then .next (raiseFault .illegalCommand s)
  else
    match geometry s.plat.maxWidth shape width.toNat with
    | none => .next (raiseFault .invalidParameter s)
    | some g =>
      if ¬ operandsBelowWidth width.toNat s.port then .refused .operandAboveWidth
      else if tsrc = .explicit ∧ ¬ presentableList (tableCount tmode) g.s s.port.opTable then
        .refused .operandNotPresentable
      else .next (respond .none { s with eng := newEngine g width tsrc tmode refout refin shape s.port })

/-- `UPD` (44_engine_native.md R102). -/
def execUpd (byte : Byte) (s : State) : Host.Outcome State Fault Refusal :=
  match s.eng.status with
  | .unconfigured => .next (raiseFault .notConfigured s)
  | .accumulating => .next (respond .none (setReg (engineByteStep s.eng s.eng.reg byte.toNat) s))

/-- Byte steps over the bytes in order (44_engine_native.md R104). -/
def feedBytes (e : Engine) (r : Nat) (d : List Nat) : Nat := d.foldl (engineByteStep e) r

/-- `k` blocks of sixteen bytes from the front (44_engine_native.md R104). -/
def feedBlocks (e : Engine) : Nat → Nat → List Nat → Nat
  | 0, r, _ => r
  | k + 1, r, d => feedBlocks e k (engineBlock16 e r (d.take 16)) (d.drop 16)

/-- What UPDB does to REG: in T4096 mode whole blocks from the first byte and then the tail, else byte steps
(44_engine_native.md R104). -/
def consume (e : Engine) (r : Nat) (d : List Nat) : Nat :=
  match e.tmode with
  | .t4096 => feedBytes e (feedBlocks e (d.length / 16) r d) (d.drop (16 * (d.length / 16)))
  | .none => feedBytes e r d
  | .t256 => feedBytes e r d

/-- `UPDB` (44_engine_native.md R104): refused as a whole, with no byte consumed, unless 20_memory.md R32 admits it. -/
def execUpdb (s : State) : Host.Outcome State Fault Refusal :=
  match s.eng.status with
  | .unconfigured => .next (raiseFault .notConfigured s)
  | .accumulating =>
    if ¬ addressesPresentable s then .refused .operandNotPresentable
    else if ¬ rangeInside s then .refused .bufRangeOverflow
    else if ¬ rangeReadable s then .refused .bufNotReadable
    else .next (respond .none (setReg (consume s.eng s.eng.reg (rangeBytes s)) s))

/-- `FIN` (44_engine_native.md R107): the snapshot is transformed and delivered, REG takes INIT_P; STATE is ACCUMULATING
before and after. The result is below `2^WIDTH` (30_encoding.md R59, log 19). -/
def execFin (s : State) : Host.Outcome State Fault Refusal :=
  match s.eng.status with
  | .unconfigured => .next (raiseFault .notConfigured s)
  | .accumulating =>
    .next (respond (.result s.eng.width (engineResult s.eng s.eng.reg)) (setReg s.eng.initP s))

/-- `RST` (44_engine_native.md R109). -/
def execRst (s : State) : Host.Outcome State Fault Refusal :=
  match s.eng.status with
  | .unconfigured => .next (raiseFault .notConfigured s)
  | .accumulating => .next (respond .none (setReg s.eng.initP s))

end Sys2Proof.Machine
end

