-- ==== Sys2Proof/Machine/Dispatch.lean ====
section
/-! DEFINITION. One arm per command of the opcode map (30_encoding.md R46). -/

namespace Sys2Proof.Machine

def exec (i : Instr) (s : State) : Host.Outcome State Fault Refusal :=
  match i with
  | .cfg width tsrc tmode refout refin shape => Sys2Proof.Machine.execCfg width tsrc tmode refout refin shape s
  | .upd byte => Sys2Proof.Machine.execUpd byte s
  | .updb => Sys2Proof.Machine.execUpdb s
  | .fin => Sys2Proof.Machine.execFin s
  | .rst => Sys2Proof.Machine.execRst s
  | .refl bw => Sys2Proof.Machine.execRefl bw s
  | .reflm count lb => Sys2Proof.Machine.execReflm count lb s
  | .tclone => Sys2Proof.Machine.execTclone s

end Sys2Proof.Machine
end

