-- ==== Sys2Proof/Machine/Flags.lean ====
section
/-! DEFINITION. There are no condition codes and no command computes a flag (10_state.md R13). What stands here is the only
status the engine has: the codes of STATE and ERR (R14, R15), the FLAGS register, and the host's read of the numbered
registers (R24). -/

namespace Sys2Proof.Machine

/-- The code of STATE (10_state.md R14). -/
def Phase.code : Phase → BitVec 2
  | .unconfigured => 0 | .accumulating => 1

/-- The code of ERR and of a response's status (60_exceptions.md R180). -/
def ErrCode.code : ErrCode → BitVec 4
  | .ok => 0 | .invalidParameter => 1 | .notConfigured => 2 | .illegalCommand => 3

/-- Register 6, `FLAGS`: `[0] REFIN, [1] REFOUT, [3:2] TMODE` (10_state.md R24). -/
def flagsWord (e : Engine) : BitVec 4 := e.tmode.code ++ BitVec.ofBool e.refout ++ BitVec.ofBool e.refin

/-- The value the host reads from a numbered register, zero-extended to 16 bits (10_state.md R24). STATE and ERR always hold
one; the descriptors are unspecified while UNCONFIGURED (R19), and no other number names a register: no value (log 14). -/
def hostRead (n : Nat) (s : State) : Option (BitVec 16) :=
  match n with
  | 0 => some (s.eng.status.code.zeroExtend 16)
  | 1 => some (s.eng.err.code.zeroExtend 16)
  | n =>
    match s.eng.status with
    | .unconfigured => none
    | .accumulating =>
      match n with
      | 2 => some s.eng.width
      | 3 => some (BitVec.ofNat 16 s.eng.cklen)
      | 4 => some ((BitVec.ofBool s.eng.withTable).zeroExtend 16)
      | 5 => some (s.eng.shape.code.zeroExtend 16)
      | 6 => some ((flagsWord s.eng).zeroExtend 16)
      | _ => none

end Sys2Proof.Machine
end

