-- ==== Sys2Proof/Machine/Port.lean ====
section
/-! DEFINITION. The command port: what one host event does (00_scope.md R6, 30_encoding.md R45, 70_reset_and_hazards.md R200,
R204, R205). -/

namespace Sys2Proof.Machine

/-- Decode and execute the word at the port; an illegal word raises ILLEGAL_COMMAND in any STATE, decided from the word alone
(30_encoding.md R57, 60_exceptions.md R185, R186). -/
def runWord (cw : Word) (s : State) : Host.Outcome State Fault Refusal :=
  match decode cw with
  | .ok i => exec i s
  | .error _ => .next (raiseFault .illegalCommand s)

/-- BUF as a running command reads it while the host or another agent makes `writes`, in their order: each write is there or
not yet there, by a free value (20_memory.md R39; `n` counts the free values drawn). -/
def seenBuf : Nat → List Host.Cell → Memory → Memory
  | _, [], buf => buf
  | n, (a, b) :: rest, buf => seenBuf (n + 1) rest (if Config.writeSeen n then buf.write a b else buf)

/-- The command runs on what it sees; then all the writes have taken effect in BUF, which no command writes (20_memory.md R36,
R39). -/
def serveAmidWrites (cw : Word) (writes : List Host.Cell) (s : State) : Host.Outcome State Fault Refusal :=
  match runWord cw { s with buf := seenBuf s.draws writes s.buf } with
  | .next t => hostWrites writes { t with buf := s.buf, draws := s.draws + writes.length }
  | .fault f => .fault f
  | .refused r => .refused r

/-- One command, from issue to response (00_scope.md R6, 30_encoding.md R45): the bundle is sampled with the word, and the
command runs to completion, alone or amid writes to BUF. -/
def serveCommand (cw : Word) (bundle : Bundle) (writes : List Host.Cell) (s : State) :
    Host.Outcome State Fault Refusal :=
  match writes with
  | [] => runWord cw { s with port := bundle }
  | w :: rest => serveAmidWrites cw (w :: rest) { s with port := bundle }

/-- One host event. -/
def serveEvent (ev : HostEvent) (s : State) : Host.Outcome State Fault Refusal :=
  match ev with
  | .command cw bundle writes => serveCommand cw bundle writes s
  | .bufWrite addr byte => hostWrite addr byte s
  | .por => .next (powerOnReset s)

/-- The next event of the queue; with none the engine does nothing (00_scope.md R6, 60_exceptions.md R190). -/
def serveNext (s : State) : Host.Outcome State Fault Refusal :=
  match s.inbox with
  | [] => .next s
  | ev :: rest => serveEvent ev { s with inbox := rest }

/-- The event that issues a table row's word with operands of zeros; a word that is no command is presented all the same. -/
def tableWordEvent (nbits w : Nat) : HostEvent :=
  let cw := (tableWord nbits w).getD 0
  match decode cw with
  | .ok i => .command cw (zeroBundleFor i) []
  | .error _ => .command cw Bundle.zero []

/-- Put an event at the head of the host's queue. -/
def presentNext (ev : HostEvent) (s : State) : State := { s with inbox := ev :: s.inbox }

end Sys2Proof.Machine
end

