-- ==== Sys2Proof/Machine/Step.lean ====
section
/-! DEFINITION. One step: the next host event, each command completely (00_scope.md R6, 70_reset_and_hazards.md R210). -/

namespace Sys2Proof.Machine

/-- One step of the machine. -/
def step (s : State) : Host.Outcome State Fault Refusal := serveNext s

/-- The state whose very next step runs the command with these bits: it is issued at the head of the host's queue, with
operands of zeros. -/
def State.withFetchWord (s : State) (nbits w : Nat) : State := presentNext (tableWordEvent nbits w) s

end Sys2Proof.Machine
end

