-- ==== Sys2Proof/Machine/Reference.lean ====
section
/-! DEFINITION. The textbook ("Rocksoft") definition of a parametrised CRC that 48_required_properties.md R174 gives as an
independent specification, and the checksum of a whole session of an engine. No command uses the textbook definition. -/

namespace Sys2Proof.Machine

/-- One message bit: the register's top bit xor the message bit decides whether `poly` is xored in after a one-bit left shift
mod `2^width` (48_required_properties.md R174). -/
def textbookBit (width poly r : Nat) (bit : Bool) : Nat :=
  if r.testBit (width - 1) != bit then shl width r 1 ^^^ poly else shl width r 1

/-- The bits of a message byte, bit 7 first if refin = 0 and bit 0 first if refin = 1 (48_required_properties.md R174). -/
def textbookByteBits (refin : Bool) (b : Nat) : List Bool :=
  if refin then (List.range 8).map b.testBit else (List.range 8).reverse.map b.testBit

/-- The CRC of a message in the textbook model (48_required_properties.md R174). -/
def textbookCrc (width poly init : Nat) (refin refout : Bool) (xorout : Nat) (message : List Nat) : Nat :=
  let r := (message.flatMap (textbookByteBits refin)).foldl (textbookBit width poly) init
  (if refout then reflect width r else r) ^^^ xorout

/-- `crc(P, m)` on a configured engine: the message byte by byte from INIT_P, then FIN's result (48_required_properties.md, the
paragraph before R165). -/
def sessionCrc (e : Engine) (message : List Nat) : Nat := engineResult e (feedBytes e e.initP message)

end Sys2Proof.Machine
end

