-- ==== Sys2Proof/Safety.lean ====
section
/-! DEFINITION. What the statements speak of: the invariants of the state (10_state.md R16 to R20, R25), the built table
(43_tablebuilder.md R93), and runs of several commands. -/

namespace Sys2Proof.Machine

/-- The geometry registers L, NL, S, MOVES (10_state.md R16). -/
def Engine.geom (e : Engine) : Geom := { l := e.l, nl := e.nl, s := e.s, moves := e.moves }

/-- The registers of a configured engine hang together as 10_state.md R16 to R20 say, and hold values of their widths. -/
structure Engine.Coherent (maxWidth : Nat) (e : Engine) : Prop where
  geom_eq : geometry maxWidth e.shape e.width.toNat = some e.geom
  cklen_eq : e.cklen = (e.width.toNat + 7) / 8
  withTable_eq : e.withTable = (e.tmode != .none)
  table_length : e.table.length = tableCount e.tmode
  table_lt : ∀ t ∈ e.table, t < 2 ^ e.s
  polyP_lt : e.polyP < 2 ^ e.s
  initP_lt : e.initP < 2 ^ e.s
  reg_lt : e.reg < 2 ^ e.s
  xoroutP_lt : e.xoroutP < 2 ^ e.width.toNat

/-- The platform's parameters are ones 00_scope.md R5 allows. -/
def Platform.legal (p : Platform) : Prop := 128 ≤ p.maxWidth ∧ p.maxWidth ≤ 65535 ∧ 1 ≤ p.addrBits

/-- The invariant of the whole model. -/
structure State.Inv (s : State) : Prop where
  platform : s.plat.legal
  buf_wf : s.buf.wf = true
  buf_inside : ∀ c ∈ s.buf, c.1 < 2 ^ s.plat.addrBits
  configured : s.eng.status = .accumulating → s.eng.Coherent s.plat.maxWidth

/-- TABLE holds what the builder makes of POLY_P (43_tablebuilder.md R93); with TMODE = NONE it holds nothing. -/
def Engine.TableBuilt (e : Engine) : Prop := e.table = buildTable e.s e.polyP e.refin (tableSlices e.tmode)

/-- The padding bits of an S-bit vector are zero: the low MOVES bits of a forward engine, the bits from WIDTH up of a reflected
one (10_state.md R25). -/
def Engine.PaddingZero (e : Engine) (v : Nat) : Prop :=
  if e.refin then v < 2 ^ e.width.toNat else v % 2 ^ e.moves = 0

/-- 10_state.md R25: while ACCUMULATING with the built table, all padding is zero. -/
def State.PaddingInv (s : State) : Prop :=
  s.eng.status = .accumulating → s.eng.TableBuilt →
    s.eng.PaddingZero s.eng.reg ∧ s.eng.PaddingZero s.eng.polyP ∧ s.eng.PaddingZero s.eng.initP ∧
      (∀ t ∈ s.eng.table, s.eng.PaddingZero t) ∧ s.eng.xoroutP < 2 ^ s.eng.width.toNat

/-- The commands that need an engine instance (60_exceptions.md R184). -/
def needsInstance : Instr → Bool
  | .cfg _ _ _ _ _ _ => false
  | .upd _ => true
  | .updb => true
  | .fin => true
  | .rst => true
  | .refl _ => false
  | .reflm _ _ => false
  | .tclone => true

/-- CFG, the one command that builds an instance. -/
def isCfg : Instr → Bool
  | .cfg _ _ _ _ _ _ => true
  | .upd _ => false
  | .updb => false
  | .fin => false
  | .rst => false
  | .refl _ => false
  | .reflm _ _ => false
  | .tclone => false

/-- CFG's width is outside the legal range of its shape, read off the table of 60_exceptions.md R181. -/
def widthIllegal (maxWidth : Nat) (shape : Shape) (width : Nat) : Bool :=
  match shape with
  | .n8 => decide (width = 0 ∨ width > 8)
  | .n16 => decide (width = 0 ∨ width > 16)
  | .n32 => decide (width = 0 ∨ width > 32)
  | .n64 => decide (width = 0 ∨ width > 64)
  | .s8 => decide (width = 0 ∨ width > maxWidth)
  | .s16 => decide (width = 0 ∨ width > maxWidth)
  | .s32 => decide (width = 0 ∨ width > maxWidth)
  | .s64 => decide (width = 0 ∨ width > maxWidth)
  | .d128 => decide (width ≤ 64 ∨ width > 128)

/-- The command word `n` is illegal, read off 30_encoding.md R57 and the formats of R47: a reserved opcode, a nonzero "rsv" bit,
or for CFG a reserved shape, a reserved tmode, or tsrc = 1 with tmode = 0. -/
def wordIllegal (n : Nat) : Prop :=
  let op := slice n 0 4
  op = 0 ∨ 9 ≤ op ∨
  ((op = 3 ∨ op = 4 ∨ op = 5 ∨ op = 8) ∧ slice n 4 28 ≠ 0) ∨
  (op = 1 ∧ slice n 13 3 ≠ 0) ∨
  (op = 2 ∧ (slice n 16 16 ≠ 0 ∨ slice n 4 4 ≠ 0)) ∨
  (op = 6 ∧ slice n 6 26 ≠ 0) ∨
  (op = 7 ∧ slice n 6 10 ≠ 0) ∨
  (op = 1 ∧ (9 ≤ slice n 4 4 ∨ slice n 10 2 = 3 ∨ (slice n 12 1 = 1 ∧ slice n 10 2 = 0)))

/-- Which fault a command word meets first, `ok` for none (60_exceptions.md R186). -/
def faultOf (maxWidth : Nat) (phase : Phase) (cw : Word) : ErrCode :=
  match decode cw with
  | .error _ => .illegalCommand
  | .ok i =>
    if needsInstance i && phase == .unconfigured then .notConfigured
    else
      match i with
      | .cfg width _ _ _ _ shape => if widthIllegal maxWidth shape width.toNat then .invalidParameter else .ok
      | .upd _ => .ok
      | .updb => .ok
      | .fin => .ok
      | .rst => .ok
      | .refl _ => .ok
      | .reflm _ _ => .ok
      | .tclone => .ok

/-- The state after a fault: ERR holds the code, the response carries it, nothing else differs (60_exceptions.md R183). -/
def faulted (c : ErrCode) (s : State) : State :=
  { s with eng := { s.eng with err := c }, responses := { status := c, payload := .none } :: s.responses }

/-- The same engine under the shape code S64 (46_engine_128.md R148). -/
def asS64 (s : State) : State := { s with eng := { s.eng with shape := .s64 } }

/-- Apply a function to the next state of an outcome. -/
def mapNext (f : State → State) : Host.Outcome State Fault Refusal → Host.Outcome State Fault Refusal
  | .next s => .next (f s)
  | .fault r => .fault r
  | .refused r => .refused r

/-- Commands in issue order, each with its bundle (00_scope.md R6). -/
def runCommands : List (Instr × Bundle) → State → Host.Outcome State Fault Refusal
  | [], s => .next s
  | (i, p) :: rest, s =>
    match exec i { s with port := p } with
    | .next t => runCommands rest t
    | .fault f => .fault f
    | .refused r => .refused r

end Sys2Proof.Machine
end

