-- ==== Sys2Proof/Certificates/Slice0/Obligations.lean ====
section
/-! DEFINITION. The statements for the provers, from the numbered rules of spec/. -/

open Sys2Proof Sys2Proof.Machine

/-! ### Command words -/

/-- Decoding an encoded well-formed command gives it back, every field at every value (30_encoding.md R46 to R55). -/
def Obligations.DecodeEncodeRoundTrip : Prop :=
  ∀ i : Instr, i.wf = true → decode (encode i) = .ok i

/-- Each word has at most one meaning: a word that decodes is the encoding of what it decodes to, which is well-formed
(30_encoding.md R57, R58). -/
def Obligations.EncodeDecodeRoundTrip : Prop :=
  ∀ (cw : Word) (i : Instr), decode cw = .ok i → encode i = cw ∧ i.wf = true

/-- 30_encoding.md R57, 60_exceptions.md R185: exactly the words R57 lists decode to no command; issued in any STATE with any
bundle, such a word responds ILLEGAL_COMMAND and changes ERR only. -/
def Obligations.IllegalWordsFault : Prop :=
  ∀ cw : Word,
    (wordIllegal cw.toNat ↔ ∀ i, decode cw ≠ .ok i) ∧
    ∀ (s : State) (p : Bundle) (rest : List HostEvent), wordIllegal cw.toNat →
      s.inbox = .command cw p [] :: rest →
      step s = .next (faulted .illegalCommand { s with port := p, inbox := rest })

/-- 30_encoding.md R62: the worked encodings, and the five illegal words. -/
def Obligations.WorkedEncodings : Prop :=
  decode 0x00200721 = .ok (.cfg 32 .build .t256 true true .n32) ∧
  decode 0x00080001 = .ok (.cfg 8 .build .none false false .n8) ∧
  decode 0x00520B41 = .ok (.cfg 82 .build .t4096 true true .s8) ∧
  decode 0x00521781 = .ok (.cfg 82 .explicit .t256 true true .d128) ∧
  decode 0x00003102 = .ok (.upd 0x31) ∧
  decode 0x00000003 = .ok .updb ∧
  decode 0x00000004 = .ok .fin ∧
  decode 0x00000005 = .ok .rst ∧
  decode 0x00000026 = .ok (.refl .w32) ∧
  decode 0x00030007 = .ok (.reflm 3 .w8) ∧
  decode 0x00000008 = .ok .tclone ∧
  decode 0x00000000 = .error .reservedOpcode ∧
  decode 0x00000014 = .error .reservedBit ∧
  decode 0x00200F21 = .error .reservedTmode ∧
  decode 0x00201321 = .error .explicitWithoutTable ∧
  decode 0x00200791 = .error .reservedShape

/-! ### The step -/

/-- 00_scope.md R6, 30_encoding.md R45: a step runs the command the host issues next, with its bundle at the port; with nothing
issued the engine does nothing. -/
def Obligations.StepRunsIssuedCommand : Prop :=
  ∀ s : State,
    (∀ (cw : Word) (p : Bundle) (rest : List HostEvent) (i : Instr), s.inbox = .command cw p [] :: rest →
      decode cw = .ok i → step s = exec i { s with port := p, inbox := rest }) ∧
    (s.inbox = [] → step s = .next s)

/-- 20_memory.md R39, R36, 70_reset_and_hazards.md R205: a command that runs while other agents write BUF does what it does on
some BUF that holds at every address the old byte or one written there (a free value each, log 9), and then all the writes have
landed; where no write falls in the range of a UPDB, the command does what it does without them. -/
def Obligations.WritesDuringCommand : Prop :=
  ∀ (s : State) (cw : Word) (p : Bundle) (ws : List Host.Cell) (rest : List HostEvent) (i : Instr),
    s.inbox = .command cw p ws :: rest → decode cw = .ok i → (∀ w ∈ ws, w.1 < 2 ^ s.plat.addrBits) →
    let s₀ := { s with port := p, inbox := rest }
    let landed := fun t : State =>
      { t with buf := ws.foldl (fun m w => m.write w.1 w.2) s.buf, draws := s.draws + ws.length }
    (∃ seen : Memory,
      (∀ a, bufByte seen a = bufByte s.buf a ∨ ∃ w ∈ ws, w.1 = a ∧ bufByte seen a = w.2) ∧
      step s = mapNext landed (exec i { s₀ with buf := seen })) ∧
    ((i = .updb → ∀ w ∈ ws, w.1 < p.opBase + p.opOff ∨ p.opBase + p.opOff + p.opLen ≤ w.1) →
      step s = mapNext landed (exec i s₀))

/-- 20_memory.md R30, R31, R40: a host write between commands changes one byte of BUF and nothing of the engine; at an address
that does not exist the model stops (log 15). -/
def Obligations.HostWriteChangesOneByte : Prop :=
  ∀ (s : State) (a : Nat) (b : Byte) (rest : List HostEvent), s.inbox = .bufWrite a b :: rest →
    (a < 2 ^ s.plat.addrBits → ∃ t, step s = .next t ∧ memRead t a = b.toNat ∧
      (∀ x, x ≠ a → memRead t x = memRead s x) ∧ t.eng = s.eng ∧ t.plat = s.plat ∧ t.port = s.port ∧
      t.inbox = rest ∧ t.responses = s.responses ∧ t.draws = s.draws) ∧
    (2 ^ s.plat.addrBits ≤ a → step s = .fault .noSuchAddress)

/-- 70_reset_and_hazards.md R200, 10_state.md R23: POR, as an event and as the reset state, leaves STATE = 0 and ERR = 0; it
delivers no response and leaves the host's memory and the platform alone (log 11). -/
def Obligations.PowerOnResetUnconfigures : Prop :=
  (∀ (s : State) (rest : List HostEvent), s.inbox = .por :: rest →
    ∃ t, step s = .next t ∧ t.eng.status = .unconfigured ∧ t.eng.err = .ok ∧ t.responses = s.responses ∧
      t.buf = s.buf ∧ t.plat = s.plat ∧ t.inbox = rest) ∧
  State.reset.eng.status = .unconfigured ∧ State.reset.eng.err = .ok

/-! ### Responses and faults -/

/-- 60_exceptions.md R183: a command word that is answered with a fault, whichever, has written ERR and nothing else; the
response carries the code and no payload. -/
def Obligations.FaultWritesOnlyErr : Prop :=
  ∀ (s t : State) (cw : Word) (p : Bundle) (rest : List HostEvent) (r : Response),
    s.inbox = .command cw p [] :: rest → step s = .next t → t.responses = r :: s.responses → r.status ≠ .ok →
    t = faulted r.status { s with port := p, inbox := rest } ∧ r.payload = .none

/-- 30_encoding.md R59: every command that completes delivers exactly one response, with the payload of its row. -/
def Obligations.ExactlyOneResponse : Prop :=
  ∀ (i : Instr) (s t : State), exec i s = .next t →
    ∃ r : Response, t.responses = r :: s.responses ∧ (r.status ≠ .ok → r.payload = .none) ∧
      (r.status = .ok →
        match i with
        | .cfg _ _ _ _ _ _ => r.payload = .none
        | .upd _ => r.payload = .none
        | .updb => r.payload = .none
        | .fin => ∃ v, v < 2 ^ s.eng.width.toNat ∧ r.payload = .result s.eng.width v
        | .rst => r.payload = .none
        | .refl bw => ∃ v, v < 2 ^ limbBits bw ∧ r.payload = .scalar bw v
        | .reflm count lb => ∃ xs : List Nat, xs.length = count.toNat ∧ (∀ x ∈ xs, x < 2 ^ limbBits lb) ∧
            r.payload = .limbs lb xs
        | .tclone => r.payload = .table s.eng.tmode s.eng.table)

/-- 10_state.md R15, 60_exceptions.md R182: a faulting command writes the response's code to ERR and has no payload; a
successful CFG and POR clear ERR; every other success leaves it. The host reads it as register 1, the codes are 0 to 3, and
no other code is produced. -/
def Obligations.ErrIsSticky : Prop :=
  ∀ (s t : State) (rest : List HostEvent), step s = .next t →
    (∀ (cw : Word) (p : Bundle) (r : Response), s.inbox = .command cw p [] :: rest →
      t.responses = r :: s.responses →
      (r.status ≠ .ok → t.eng.err = r.status ∧ r.payload = .none) ∧
      (r.status = .ok → ∃ i, decode cw = .ok i ∧ t.eng.err = if isCfg i then .ok else s.eng.err)) ∧
    (s.inbox = .por :: rest → t.eng.err = .ok) ∧
    hostRead 1 t = some (t.eng.err.code.zeroExtend 16) ∧ t.eng.err.code.toNat ≤ 3 ∧
    (ErrCode.ok.code = 0 ∧ ErrCode.invalidParameter.code = 1 ∧ ErrCode.notConfigured.code = 2 ∧
      ErrCode.illegalCommand.code = 3)

/-- 60_exceptions.md R184: UPD, UPDB, FIN, RST and TCLONE raise NOT_CONFIGURED when STATE = UNCONFIGURED, and nothing else
raises it. -/
def Obligations.NotConfiguredExactly : Prop :=
  ∀ s : State,
    (s.eng.status = .unconfigured → ∀ b : Byte,
      exec (.upd b) s = .next (faulted .notConfigured s) ∧ exec .updb s = .next (faulted .notConfigured s) ∧
      exec .fin s = .next (faulted .notConfigured s) ∧ exec .rst s = .next (faulted .notConfigured s) ∧
      exec .tclone s = .next (faulted .notConfigured s)) ∧
    (∀ (i : Instr) (t : State) (r : Response), exec i s = .next t → t.responses = r :: s.responses →
      r.status = .notConfigured → needsInstance i = true ∧ s.eng.status = .unconfigured)

/-- 60_exceptions.md R181: CFG, and only CFG, raises INVALID_PARAMETER, exactly for the widths of the table; no other property of
the operands is checked, so with a legal width and operands below `2^width` it responds OK. -/
def Obligations.InvalidParameterExactly : Prop :=
  ∀ s : State,
    (∀ (width : BitVec 16) (tsrc : TSrc) (tmode : TMode) (refout refin : Bool) (shape : Shape),
      (Instr.cfg width tsrc tmode refout refin shape).wf = true →
      (widthIllegal s.plat.maxWidth shape width.toNat = true →
        exec (.cfg width tsrc tmode refout refin shape) s = .next (faulted .invalidParameter s)) ∧
      (widthIllegal s.plat.maxWidth shape width.toNat = false → operandsBelowWidth width.toNat s.port = true →
        (tsrc = .explicit → ∀ g, geometry s.plat.maxWidth shape width.toNat = some g →
          presentableList (tableCount tmode) g.s s.port.opTable = true) →
        ∃ t, exec (.cfg width tsrc tmode refout refin shape) s = .next t ∧
          t.responses = { status := .ok, payload := .none } :: s.responses)) ∧
    (∀ (i : Instr) (t : State) (r : Response), exec i s = .next t → t.responses = r :: s.responses →
      r.status = .invalidParameter → isCfg i = true)

/-- 60_exceptions.md R186: the order ILLEGAL_COMMAND, NOT_CONFIGURED, INVALID_PARAMETER, then refusals. -/
def Obligations.FaultPriority : Prop :=
  ∀ (s : State) (cw : Word) (p : Bundle) (rest : List HostEvent), s.inbox = .command cw p [] :: rest →
    let f := faultOf s.plat.maxWidth s.eng.status cw
    (f ≠ .ok → step s = .next (faulted f { s with port := p, inbox := rest })) ∧
    (∀ t, step s = .next t → ∃ payload, t.responses = { status := f, payload := payload } :: s.responses) ∧
    (∀ why, step s = .refused why → f = .ok)

/-- 60_exceptions.md R193 (a), (b): when CFG and UPDB refuse, beside a bundle the port cannot carry (log 7); no command ends in
an outcome that stops the machine with a fault. -/
def Obligations.RefusalsExactly : Prop :=
  ∀ (i : Instr) (s : State),
    (exec i s = .refused .operandAboveWidth ↔
      ∃ width tsrc tmode refout refin shape, i = .cfg width tsrc tmode refout refin shape ∧ i.wf = true ∧
        widthIllegal s.plat.maxWidth shape width.toNat = false ∧
        (2 ^ width.toNat ≤ s.port.opPoly ∨ 2 ^ width.toNat ≤ s.port.opInit ∨ 2 ^ width.toNat ≤ s.port.opXorout)) ∧
    (exec i s = .refused .bufRangeOverflow ↔
      i = .updb ∧ s.eng.status = .accumulating ∧ addressesPresentable s = true ∧ s.port.opLen ≠ 0 ∧
        2 ^ s.plat.addrBits < s.port.opBase + s.port.opOff + s.port.opLen) ∧
    (exec i s = .refused .bufNotReadable ↔
      i = .updb ∧ s.eng.status = .accumulating ∧ addressesPresentable s = true ∧
        s.port.opBase + s.port.opOff + s.port.opLen ≤ 2 ^ s.plat.addrBits ∧
        ∃ k, k < s.port.opLen ∧ s.plat.bufReadable (s.port.opBase + s.port.opOff + k) = false) ∧
    (∀ f, exec i s ≠ .fault f)

/-! ### The commands -/

/-- 44_engine_native.md R101: CFG with a legal word, a legal width and operands below `2^width` completes and commits the new
instance; nothing outside the engine changes but the response. -/
def Obligations.CfgCommitsInstance : Prop :=
  ∀ (width : BitVec 16) (tsrc : TSrc) (tmode : TMode) (refout refin : Bool) (shape : Shape) (s : State) (g : Geom),
    (Instr.cfg width tsrc tmode refout refin shape).wf = true →
    geometry s.plat.maxWidth shape width.toNat = some g → operandsBelowWidth width.toNat s.port = true →
    (tsrc = .explicit → presentableList (tableCount tmode) g.s s.port.opTable = true) →
    exec (.cfg width tsrc tmode refout refin shape) s =
      .next { s with
        eng := newEngine g width tsrc tmode refout refin shape s.port
        responses := { status := .ok, payload := .none } :: s.responses }

/-- 44_engine_native.md R101 with 42_normalizer.md R78, R79, R81 and 43_tablebuilder.md R88 to R93: whatever the shape, the
registers a successful CFG leaves are those of the S-bit rules. -/
def Obligations.CfgBuildsSBitEngine : Prop :=
  ∀ (width : BitVec 16) (tsrc : TSrc) (tmode : TMode) (refout refin : Bool) (shape : Shape) (s : State) (g : Geom),
    (Instr.cfg width tsrc tmode refout refin shape).wf = true →
    geometry s.plat.maxWidth shape width.toNat = some g → operandsBelowWidth width.toNat s.port = true →
    (tsrc = .explicit → presentableList (tableCount tmode) g.s s.port.opTable = true) →
    ∃ t, exec (.cfg width tsrc tmode refout refin shape) s = .next t ∧
      t.responses = { status := .ok, payload := .none } :: s.responses ∧
      t.eng =
        { status := .accumulating, err := .ok, shape := shape, l := g.l, nl := g.nl, s := g.s, width := width,
          moves := g.moves, refin := refin, refout := refout, tmode := tmode,
          polyP := parse s.port.opPoly g.s width.toNat refin
          initP := parse s.port.opInit g.s width.toNat refin
          xoroutP := s.port.opXorout
          cklen := (width.toNat + 7) / 8
          withTable := (tmode != .none)
          reg := parse s.port.opInit g.s width.toNat refin
          table :=
            match tsrc with
            | .build => buildTable g.s (parse s.port.opPoly g.s width.toNat refin) refin (tableSlices tmode)
            | .explicit => s.port.opTable }

/-- 44_engine_native.md R102: in ACCUMULATING, UPD completes; REG takes one byte step, nothing else of the engine changes. -/
def Obligations.UpdAdvancesRegister : Prop :=
  ∀ (b : Byte) (s : State), s.eng.status = .accumulating →
    exec (.upd b) s =
      .next { s with
        eng := { s.eng with reg := engineByteStep s.eng s.eng.reg b.toNat }
        responses := { status := .ok, payload := .none } :: s.responses }

/-- 44_engine_native.md R104, 20_memory.md R32: in ACCUMULATING an admitted UPDB completes; REG consumes the bytes of the range
in order; a range of length 0 changes nothing. -/
def Obligations.UpdbConsumesRange : Prop :=
  ∀ s : State, s.eng.status = .accumulating → addressesPresentable s = true →
    (s.port.opLen = 0 ∨ s.port.opBase + s.port.opOff + s.port.opLen ≤ 2 ^ s.plat.addrBits) →
    (∀ k, k < s.port.opLen → s.plat.bufReadable (s.port.opBase + s.port.opOff + k) = true) →
    exec .updb s =
      .next { s with
        eng := { s.eng with
          reg := consume s.eng s.eng.reg
            ((List.range s.port.opLen).map fun k => memRead s (s.port.opBase + s.port.opOff + k)) }
        responses := { status := .ok, payload := .none } :: s.responses } ∧
    (s.port.opLen = 0 →
      exec .updb s = .next { s with responses := { status := .ok, payload := .none } :: s.responses })

/-- 44_engine_native.md R107, 30_encoding.md R59: in ACCUMULATING, FIN completes, delivers WIDTH and a number below `2^WIDTH`,
which is Finalize(REG) wherever that is below `2^WIDTH` (elsewhere a free value, log 19), and reloads REG with INIT_P. -/
def Obligations.FinDeliversAndReloads : Prop :=
  ∀ s : State, s.eng.status = .accumulating →
    ∃ v, v < 2 ^ s.eng.width.toNat ∧
      (engineFinalize s.eng s.eng.reg < 2 ^ s.eng.width.toNat → v = engineFinalize s.eng s.eng.reg) ∧
      exec .fin s =
        .next { s with
          eng := { s.eng with reg := s.eng.initP }
          responses := { status := .ok, payload := .result s.eng.width v } :: s.responses }

/-- 44_engine_native.md R109: in ACCUMULATING, RST completes and reloads REG with INIT_P; a second RST changes no register. -/
def Obligations.RstReloadsInit : Prop :=
  ∀ s : State, s.eng.status = .accumulating →
    ∃ t, exec .rst s = .next t ∧
      t = { s with
        eng := { s.eng with reg := s.eng.initP }
        responses := { status := .ok, payload := .none } :: s.responses } ∧
      ∃ u, exec .rst t = .next u ∧ u.eng = t.eng

/-- 41_bitreflector.md R70: REFL completes in every STATE and responds the mirror of the low w bits of op_a; no state is
written. -/
def Obligations.ReflRespondsMirror : Prop :=
  ∀ (bw : LimbWidth) (s : State),
    exec (.refl bw) s =
      .next { s with
        responses :=
          { status := .ok, payload := .scalar bw (reflect (limbBits bw) (s.port.opA.toNat % 2 ^ limbBits bw)) }
            :: s.responses }

/-- 41_bitreflector.md R71: REFLM completes in every STATE and responds the limbs in reverse order, each mirrored; read as one
number that is the whole array mirrored; no state is written. -/
def Obligations.ReflmRespondsMirror : Prop :=
  ∀ (count : BitVec 16) (lb : LimbWidth) (s : State), s.port.opLimbs.length = count.toNat →
    (∀ x ∈ s.port.opLimbs, x < 2 ^ limbBits lb) →
    ∃ y : List Nat, y = (s.port.opLimbs.reverse).map (reflect (limbBits lb)) ∧
      limbVal (limbBits lb) y = reflect (limbBits lb * count.toNat) (limbVal (limbBits lb) s.port.opLimbs) ∧
      exec (.reflm count lb) s =
        .next { s with responses := { status := .ok, payload := .limbs lb y } :: s.responses }

/-- 43_tablebuilder.md R94: in ACCUMULATING, TCLONE completes and responds TMODE and the whole table; no state is written. -/
def Obligations.TcloneRespondsTable : Prop :=
  ∀ s : State, s.eng.status = .accumulating →
    exec .tclone s =
      .next { s with
        responses := { status := .ok, payload := .table s.eng.tmode s.eng.table } :: s.responses }

/-- The frame of every command (10_state.md R10 column "Written by", R92, R201; 20_memory.md R36): no command writes BUF, the
platform or the queue; only CFG writes a configuration register, TABLE or STATE; UPD, UPDB, FIN and RST write REG alone beside
ERR; REFL, REFLM and TCLONE write nothing beside ERR. -/
def Obligations.CommandFrames : Prop :=
  ∀ (i : Instr) (s t : State), exec i s = .next t →
    (∀ a, memRead t a = memRead s a) ∧ t.buf = s.buf ∧ t.plat = s.plat ∧ t.port = s.port ∧ t.inbox = s.inbox ∧
    t.draws = s.draws ∧
    (isCfg i = false → t.eng = { s.eng with reg := t.eng.reg, err := t.eng.err }) ∧
    (∀ bw, i = .refl bw → t.eng = s.eng) ∧ (∀ count lb, i = .reflm count lb → t.eng = s.eng) ∧
    (i = .tclone → t.eng = { s.eng with err := t.eng.err }) ∧
    (∀ r, t.responses = r :: s.responses → r.status = .ok → isCfg i = false → t.eng.err = s.eng.err)

/-! ### Reflector and normaliser -/

/-- 41_bitreflector.md R66: bit `i` of the result is bit `w-1-i` of the operand, and the result has w bits. -/
def Obligations.ReflectMovesBits : Prop :=
  ∀ w v : Nat, reflect w v < 2 ^ w ∧ ∀ i, i < w → (reflect w v).testBit i = v.testBit (w - 1 - i)

/-- 41_bitreflector.md R67: the swap network computes `reflect_w` for w in 8, 16, 32, 64. -/
def Obligations.SwapNetworkReflects : Prop :=
  ∀ (bw : LimbWidth) (v : Nat), v < 2 ^ limbBits bw → reflectSwap (limbBits bw) v = reflect (limbBits bw) v

/-- 41_bitreflector.md R68: self-inverse, fixed points 0 and all ones, xor, and shift left becomes shift right. -/
def Obligations.ReflectAlgebra : Prop :=
  ∀ w v : Nat, v < 2 ^ w →
    reflect w (reflect w v) = v ∧ reflect w 0 = 0 ∧ reflect w (2 ^ w - 1) = 2 ^ w - 1 ∧
    (∀ u, u < 2 ^ w → reflect w (u ^^^ v) = reflect w u ^^^ reflect w v) ∧
    (∀ k, k ≤ w → reflect w (shl w v k) = shr (reflect w v) k)

/-- 41_bitreflector.md R69, 48_required_properties.md R173: multi-limb reversal mirrors the whole bit sequence, is `reflect_L`
for one limb, empty for none, and self-inverse. -/
def Obligations.LimbReverseMirrors : Prop :=
  ∀ (lw : LimbWidth) (x : List Nat), (∀ d ∈ x, d < 2 ^ limbBits lw) →
    limbReverse (limbBits lw) x = x.reverse.map (reflect (limbBits lw)) ∧
    limbVal (limbBits lw) (limbReverse (limbBits lw) x) =
      reflect (limbBits lw * x.length) (limbVal (limbBits lw) x) ∧
    limbReverse (limbBits lw) (limbReverse (limbBits lw) x) = x

/-- 42_normalizer.md R76, R77, 10_state.md R16, 45_engine_sharded.md R129: what `Geometry` returns, and that every limb shift the
engine makes (by 1, 8 or MOVES) is by at most L. -/
def Obligations.GeometryIsLegal : Prop :=
  ∀ (maxWidth : Nat) (shape : Shape) (width : Nat) (g : Geom), geometry maxWidth shape width = some g →
    g.l = shapeLimbBits shape ∧ g.s = g.l * g.nl ∧ g.moves = g.s - width ∧ 1 ≤ width ∧ width ≤ g.s ∧
    8 ≤ g.s ∧ g.s % 8 = 0 ∧ 8 ≤ g.l ∧ g.moves < g.l ∧
    (match shapeKind shape with
     | .native => g.nl = 1 ∧ width ≤ g.l
     | .sharded => (g.nl - 1) * g.l < width ∧ width ≤ g.nl * g.l ∧ width ≤ maxWidth
     | .twoLimb => g.nl = 2 ∧ 64 < width ∧ width ≤ 128)

/-- 42_normalizer.md R78: the closed forms of `parse`; for `width = S` the operand is used as is, subject to refin. -/
def Obligations.ParseClosedForms : Prop :=
  ∀ raw S width : Nat, 1 ≤ width → width ≤ S → raw < 2 ^ width →
    parse raw S width false = raw * 2 ^ (S - width) ∧ parse raw S width true = reflect width raw ∧
    (width = S → parse raw S width false = raw ∧ parse raw S width true = reflect S raw)

/-- 42_normalizer.md R81: `parse` and `truncateLeft` on limb arrays agree with the S-bit functions. -/
def Obligations.LimbNormaliserAgrees : Prop :=
  ∀ (lw : LimbWidth) (n width raw : Nat) (refin : Bool), 1 ≤ width → width ≤ limbBits lw * n →
    raw < 2 ^ width →
    let L := limbBits lw
    let moves := L * n - width
    ∀ hm : moves < L,
      limbVal L (limbParse L moves (Nat.le_of_lt hm) refin (limbsOf L n raw)) = parse raw (L * n) width refin ∧
      ∀ x, x < 2 ^ (L * n) → limbVal L (limbTruncateLeft L moves (limbsOf L n x)) = truncateLeft x (L * n) moves

/-! ### Limb operations -/

/-- 45_engine_sharded.md R126: on the S-bit view `ShiftLeft_L` is `shl_S`. -/
def Obligations.LimbShiftLeftIsShl : Prop :=
  ∀ (L bits : Nat) (x : List Nat) (h : bits ≤ L), (∀ d ∈ x, d < 2 ^ L) →
    limbVal L (limbShiftLeft L bits h x) = shl (L * x.length) (limbVal L x) bits ∧
    (limbShiftLeft L bits h x).length = x.length ∧ (∀ d ∈ limbShiftLeft L bits h x, d < 2 ^ L) ∧
    limbShiftLeft L 0 (Nat.zero_le L) x = x

/-- 45_engine_sharded.md R127: on the S-bit view `ShiftRight_L` is `shr`. -/
def Obligations.LimbShiftRightIsShr : Prop :=
  ∀ (L bits : Nat) (x : List Nat) (h : bits ≤ L), (∀ d ∈ x, d < 2 ^ L) →
    limbVal L (limbShiftRight L bits h x) = shr (limbVal L x) bits ∧
    (limbShiftRight L bits h x).length = x.length ∧ (∀ d ∈ limbShiftRight L bits h x, d < 2 ^ L) ∧
    limbShiftRight L 0 (Nat.zero_le L) x = x

/-- 45_engine_sharded.md R128: on the S-bit view `Xor` is exclusive or. -/
def Obligations.LimbXorIsXor : Prop :=
  ∀ (L : Nat) (x y : List Nat), x.length = y.length → (∀ d ∈ x, d < 2 ^ L) → (∀ d ∈ y, d < 2 ^ L) →
    limbVal L (limbXor x y) = limbVal L x ^^^ limbVal L y ∧ (limbXor x y).length = x.length ∧
    ∀ j, (limbXor x y).getD j 0 = x.getD j 0 ^^^ y.getD j 0

/-! ### Tables, byte steps and blocks -/

/-- 43_tablebuilder.md R88, R89, R90: entry 0 is 0; forward entry 1 and reflected entry 0x80 are POLY_P; a table has 256 entries
per slice and slice 0 of the 16-slice table is the 256-entry table. -/
def Obligations.TableFixedEntries : Prop :=
  ∀ (S polyP : Nat), 8 ≤ S → polyP < 2 ^ S →
    tableAt (buildTable S polyP false 1) 0 = 0 ∧ tableAt (buildTable S polyP true 1) 0 = 0 ∧
    tableAt (buildTable S polyP false 1) 1 = polyP ∧ tableAt (buildTable S polyP true 1) 0x80 = polyP ∧
    ∀ (refin : Bool) (slices : Nat), (buildTable S polyP refin slices).length = 256 * slices ∧
      (1 ≤ slices → ∀ i, i < 256 →
        tableAt (buildTable S polyP refin slices) i = tableAt (buildTable S polyP refin 1) i)

/-- 43_tablebuilder.md R95 (a), (b): each slice is linear in its index, and each slice is the one before it advanced by one zero
byte, which can be computed by table. -/
def Obligations.TableLinearAndChained : Prop :=
  ∀ (S polyP : Nat) (refin : Bool), 8 ≤ S → polyP < 2 ^ S →
    let T := tableAt (buildTable S polyP refin 16)
    (∀ k a b, k < 16 → a < 256 → b < 256 → T (k * 256 + (a ^^^ b)) = T (k * 256 + a) ^^^ T (k * 256 + b)) ∧
    (∀ k i, k < 15 → i < 256 →
      let e := T (k * 256 + i)
      T ((k + 1) * 256 + i) = divStep S polyP refin e ∧
      T ((k + 1) * 256 + i) = if refin then shr e 8 ^^^ T (e % 256) else shl S e 8 ^^^ T (shr e (S - 8)))

/-- 44_engine_native.md R103, 48_required_properties.md R166: with the built table the table-driven byte step equals the
bit-serial one, in both directions and for both table sizes. -/
def Obligations.TableStepEqualsBitSerial : Prop :=
  ∀ (S polyP r b : Nat) (refin : Bool), 8 ≤ S → polyP < 2 ^ S → r < 2 ^ S → b < 256 →
    byteStep S .t256 refin polyP (buildTable S polyP refin 1) r b = byteStep S .none refin polyP [] r b ∧
    byteStep S .t4096 refin polyP (buildTable S polyP refin 16) r b = byteStep S .none refin polyP [] r b

/-- 44_engine_native.md R106: one block step equals sixteen byte steps. -/
def Obligations.BlockEqualsSixteenByteSteps : Prop :=
  ∀ (S polyP r : Nat) (refin : Bool) (d : List Nat), 8 ≤ S → S % 8 = 0 → polyP < 2 ^ S → r < 2 ^ S →
    d.length = 16 → (∀ b ∈ d, b < 256) →
    block16 S refin (buildTable S polyP refin 16) r d =
      d.foldl (byteStep S .t4096 refin polyP (buildTable S polyP refin 16)) r

/-- 45_engine_sharded.md R131, R135, 46_engine_128.md R146: whatever the shape, one byte step is the S-bit rule
44_engine_native.md R103, for any table of S-bit entries. -/
def Obligations.EngineByteStepMeetsRule : Prop :=
  ∀ (maxWidth : Nat) (e : Engine) (r b : Nat), e.Coherent maxWidth → r < 2 ^ e.s → b < 256 →
    engineByteStep e r b = byteStep e.s e.tmode e.refin e.polyP e.table r b

/-- 45_engine_sharded.md R133, R135, 46_engine_128.md R147: whatever the shape, one block step is the S-bit rule
44_engine_native.md R105, for any table of S-bit entries. -/
def Obligations.EngineBlockMeetsRule : Prop :=
  ∀ (maxWidth : Nat) (e : Engine) (r : Nat) (d : List Nat), e.Coherent maxWidth → r < 2 ^ e.s → d.length = 16 →
    (∀ b ∈ d, b < 256) → engineBlock16 e r d = block16 e.s e.refin e.table r d

/-- 45_engine_sharded.md R134, R135, 46_engine_128.md R147: whatever the shape, `Finalize` is the S-bit rule
44_engine_native.md R108. -/
def Obligations.EngineFinalizeMeetsRule : Prop :=
  ∀ (maxWidth : Nat) (e : Engine) (r : Nat), e.Coherent maxWidth → r < 2 ^ e.s →
    engineFinalize e r = finalize e.s e.moves e.refin e.refout e.xoroutP r

/-- 44_engine_native.md R108: the four cases of Finalize, C the width-bit remainder; the result is below `2^WIDTH`. -/
def Obligations.FinalizeFourCases : Prop :=
  ∀ S width C x : Nat, 1 ≤ width → width ≤ S → C < 2 ^ width → x < 2 ^ width →
    let moves := S - width
    finalize S moves false false x (C * 2 ^ moves) = C ^^^ x ∧
    finalize S moves true true x (reflect width C) = reflect width C ^^^ x ∧
    finalize S moves true false x (reflect width C) = C ^^^ x ∧
    finalize S moves false true x (C * 2 ^ moves) = reflect width C ^^^ x ∧
    C ^^^ x < 2 ^ width ∧ reflect width C ^^^ x < 2 ^ width

/-- 48_required_properties.md R167, R168: with the built table an admitted UPDB leaves in REG what byte steps over its bytes in
order leave, in every shape and TMODE. -/
def Obligations.UpdbIsByteByByte : Prop :=
  ∀ s : State, s.Inv → s.eng.status = .accumulating → s.eng.TableBuilt → addressesPresentable s = true →
    rangeInside s = true → rangeReadable s = true →
    exec .updb s =
      .next { s with
        eng := { s.eng with
          reg := (rangeBytes s).foldl (byteStep s.eng.s s.eng.tmode s.eng.refin s.eng.polyP s.eng.table) s.eng.reg }
        responses := { status := .ok, payload := .none } :: s.responses }

/-- 48_required_properties.md R167: with the built table REG depends on the message only, not on where it is cut; a piece of one
byte is a UPD. -/
def Obligations.ChunkingInvariance : Prop :=
  ∀ (maxWidth : Nat) (e : Engine) (r : Nat) (d₁ d₂ : List Nat), e.Coherent maxWidth → e.TableBuilt → r < 2 ^ e.s →
    (∀ b ∈ d₁ ++ d₂, b < 256) →
    consume e (consume e r d₁) d₂ = consume e r (d₁ ++ d₂) ∧
    consume e r d₁ = d₁.foldl (engineByteStep e) r

/-- 46_engine_128.md R148, 48_required_properties.md R171: for widths 65 to 128, CFG with D128 and with S64 give the same
outcome but for the shape code, and so does every other command on engines that differ in the shape code alone. -/
def Obligations.TwoLimbEqualsSharded : Prop :=
  (∀ (width : BitVec 16) (tsrc : TSrc) (tmode : TMode) (refout refin : Bool) (s : State),
    (Instr.cfg width tsrc tmode refout refin .d128).wf = true → 64 < width.toNat → width.toNat ≤ 128 →
    128 ≤ s.plat.maxWidth →
    exec (.cfg width tsrc tmode refout refin .s64) s =
      mapNext asS64 (exec (.cfg width tsrc tmode refout refin .d128) s)) ∧
  (∀ (i : Instr) (s : State), isCfg i = false → s.eng.Coherent s.plat.maxWidth → s.eng.shape = .d128 →
    exec i (asS64 s) = mapNext asS64 (exec i s))

/-! ### Sessions -/

/-- 48_required_properties.md R169, 70_reset_and_hazards.md R201: whatever UPD, UPDB, REFL, REFLM, TCLONE, FIN and RST commands
follow a successful CFG, FIN and RST leave the engine exactly as that CFG left it. -/
def Obligations.FinAndRstRestoreConfiguredEngine : Prop :=
  ∀ (width : BitVec 16) (tsrc : TSrc) (tmode : TMode) (refout refin : Bool) (shape : Shape) (s s₀ s₁ : State)
    (cmds : List (Instr × Bundle)),
    exec (.cfg width tsrc tmode refout refin shape) s = .next s₀ →
    s₀.responses = { status := .ok, payload := .none } :: s.responses →
    (∀ c ∈ cmds, isCfg c.1 = false) → runCommands cmds s₀ = .next s₁ →
    ∀ i, i = .fin ∨ i = .rst → ∃ t, exec i s₁ = .next t ∧ t.eng = s₀.eng

/-- 48_required_properties.md R172: FIN directly after a successful CFG responds `op_init ^ op_xorout` if refout = 0 and
`reflect_width(op_init) ^ op_xorout` if refout = 1. -/
def Obligations.EmptySessionResult : Prop :=
  ∀ (width : BitVec 16) (tsrc : TSrc) (tmode : TMode) (refout refin : Bool) (shape : Shape) (s s₀ : State),
    exec (.cfg width tsrc tmode refout refin shape) s = .next s₀ →
    s₀.responses = { status := .ok, payload := .none } :: s.responses →
    ∃ t, exec .fin s₀ = .next t ∧
      t.responses =
        { status := .ok
          payload := .result width
            ((if refout then reflect width.toNat s.port.opInit else s.port.opInit) ^^^ s.port.opXorout) }
          :: s₀.responses

/-- 48_required_properties.md, before R165: UPDs of a message and then FIN, from any configured engine whose REG is INIT_P,
complete and respond `crc(P, m)`; FIN leaves the engine ready for the next session. -/
def Obligations.SessionRespondsCrc : Prop :=
  ∀ (s : State) (message : List Byte), s.eng.status = .accumulating → s.eng.reg = s.eng.initP →
    ∃ s₁ t, runCommands (message.map fun b => (Instr.upd b, s.port)) s = .next s₁ ∧ exec .fin s₁ = .next t ∧
      t.eng = s.eng ∧
      t.responses.head? =
        some { status := .ok, payload := .result s.eng.width (sessionCrc s.eng (message.map BitVec.toNat)) } ∧
      t.responses.length = s.responses.length + message.length + 1

/-- 48_required_properties.md R174: for every parameter set, in every shape and table mode, the engine computes the CRC of the
textbook model, which the spec takes from general knowledge (log 17). -/
def Obligations.AgreesWithTextbook : Prop :=
  ∀ (maxWidth : Nat) (width : BitVec 16) (tmode : TMode) (refout refin : Bool) (shape : Shape) (g : Geom) (p : Bundle)
    (message : List Nat),
    geometry maxWidth shape width.toNat = some g → operandsBelowWidth width.toNat p = true →
    (∀ b ∈ message, b < 256) →
    sessionCrc (newEngine g width .build tmode refout refin shape p) message =
      textbookCrc width.toNat p.opPoly p.opInit refin refout p.opXorout message

/-- 44_engine_native.md R111, 48_required_properties.md R166, R170: with built tables the result of a session depends neither on
the shape nor on the table mode. -/
def Obligations.ResultIndependentOfShapeAndTable : Prop :=
  ∀ (maxWidth : Nat) (width : BitVec 16) (tmode tmode' : TMode) (refout refin : Bool) (shape shape' : Shape)
    (g g' : Geom) (p : Bundle) (message : List Nat),
    geometry maxWidth shape width.toNat = some g → geometry maxWidth shape' width.toNat = some g' →
    operandsBelowWidth width.toNat p = true → (∀ b ∈ message, b < 256) →
    sessionCrc (newEngine g width .build tmode refout refin shape p) message =
      sessionCrc (newEngine g' width .build tmode' refout refin shape' p) message

/-- 30_encoding.md R59, 20_memory.md R34 (d), 47_interface.md R154, 44_engine_native.md R108: FIN's result is below `2^WIDTH`
in every configured state; and it is the number of Finalize's steps with refout = 0 whatever the table, with refout = 1 where
the padding is zero (10_state.md R25), so always with the built table. In the remaining case, an explicit table that breaks the
padding, it is a free value within the bound (log 19). -/
def Obligations.FinResultBelowWidth : Prop :=
  ∀ s : State, s.eng.status = .accumulating →
    ∃ t v, exec .fin s = .next t ∧
      t.responses = { status := .ok, payload := .result s.eng.width v } :: s.responses ∧ v < 2 ^ s.eng.width.toNat ∧
      (s.Inv → s.eng.refout = false ∨ s.eng.PaddingZero s.eng.reg ∨ (s.PaddingInv ∧ s.eng.TableBuilt) →
        v = engineFinalize s.eng s.eng.reg)

/-! ### Invariants and isolation -/

/-- The reset state meets the invariants. The platform values and the values of the unspecified registers are the model's choice
(log 2, log 3). -/
def Obligations.ResetMeetsInvariants : Prop := State.reset.Inv ∧ State.reset.PaddingInv

/-- 10_state.md R16 to R20, 20_memory.md R31, 00_scope.md R5: every step keeps the invariant of the whole model and the platform. -/
def Obligations.StepKeepsInvariant : Prop :=
  ∀ s t : State, s.Inv → step s = .next t → t.Inv ∧ t.plat = s.plat

/-- 10_state.md R25: while ACCUMULATING with the built table the padding stays zero. -/
def Obligations.PaddingStaysZero : Prop :=
  ∀ s t : State, s.Inv → s.PaddingInv → step s = .next t → t.PaddingInv

/-- 10_state.md R23, 70_reset_and_hazards.md R200, R202: the registers POR leaves unspecified never matter. Two machines that
differ, while UNCONFIGURED, in those registers alone end a step alike: the same stop, or next states that respond the same,
read the same to the host, and are equal once configured. -/
def Obligations.UnspecifiedRegistersNeverMatter : Prop :=
  ∀ (s : State) (e : Engine), s.eng.status = .unconfigured → e.status = .unconfigured → e.err = s.eng.err →
    match step s, step { s with eng := e } with
    | .next t, .next u =>
      t.responses = u.responses ∧ t.buf = u.buf ∧ t.plat = u.plat ∧ t.port = u.port ∧ t.inbox = u.inbox ∧
        t.draws = u.draws ∧ t.eng.status = u.eng.status ∧ t.eng.err = u.eng.err ∧ (∀ n, hostRead n t = hostRead n u) ∧
        (t.eng.status = .accumulating → t.eng = u.eng)
    | .fault f, .fault f' => f = f'
    | .refused r, .refused r' => r = r'
    | .next _, .fault _ | .next _, .refused _ | .fault _, .next _ | .fault _, .refused _ | .refused _, .next _
    | .refused _, .fault _ => False

/-- 20_memory.md R33, R36: UPDB reads no byte outside its range, and no other command reads BUF: another BUF that agrees on the
range changes nothing of the outcome. -/
def Obligations.CommandsReadOnlyTheirRange : Prop :=
  ∀ (i : Instr) (s : State) (buf : Memory),
    (i = .updb → ∀ k, k < s.port.opLen →
      memRead { s with buf := buf } (s.port.opBase + s.port.opOff + k) =
        memRead s (s.port.opBase + s.port.opOff + k)) →
    exec i { s with buf := buf } = mapNext (fun t => { t with buf := buf }) (exec i s)

/-- 10_state.md R24, R19, R14: the seven host-readable registers; the descriptors have no value while UNCONFIGURED (log 14), and
no other number reads. -/
def Obligations.HostReadsNumberedRegisters : Prop :=
  ∀ s : State,
    hostRead 0 s = some (match s.eng.status with | .unconfigured => 0 | .accumulating => 1) ∧
    hostRead 1 s = some (s.eng.err.code.zeroExtend 16) ∧
    (s.eng.status = .unconfigured → ∀ n, 2 ≤ n → hostRead n s = none) ∧
    (s.eng.status = .accumulating →
      hostRead 2 s = some s.eng.width ∧ hostRead 3 s = some (BitVec.ofNat 16 s.eng.cklen) ∧
      hostRead 4 s = some (if s.eng.withTable then 1 else 0) ∧
      hostRead 5 s = some (s.eng.shape.code.zeroExtend 16) ∧
      (∃ v, hostRead 6 s = some v ∧ v.getLsbD 0 = s.eng.refin ∧ v.getLsbD 1 = s.eng.refout ∧
        v.extractLsb' 2 2 = s.eng.tmode.code ∧ v.extractLsb' 4 12 = 0) ∧
      ∀ n, 7 ≤ n → hostRead n s = none)
end

