-- ==== Sys2Proof/Laws/State.lean ====
section
/-! SUPPORT. One lemma per field per update of State, all by rfl, so that no proof unfolds a record update. -/

namespace Sys2Proof.Machine


/-! ### deliver -/

@[simp] theorem deliver_eng (r : Response) (s : State) : (deliver r s).eng = s.eng := rfl
@[simp] theorem deliver_buf (r : Response) (s : State) : (deliver r s).buf = s.buf := rfl
@[simp] theorem deliver_plat (r : Response) (s : State) : (deliver r s).plat = s.plat := rfl
@[simp] theorem deliver_port (r : Response) (s : State) : (deliver r s).port = s.port := rfl
@[simp] theorem deliver_inbox (r : Response) (s : State) : (deliver r s).inbox = s.inbox := rfl
@[simp] theorem deliver_responses (r : Response) (s : State) : (deliver r s).responses = r :: s.responses := rfl
@[simp] theorem deliver_draws (r : Response) (s : State) : (deliver r s).draws = s.draws := rfl

/-! ### respond -/

@[simp] theorem respond_eng (p : Payload) (s : State) : (respond p s).eng = s.eng := rfl
@[simp] theorem respond_buf (p : Payload) (s : State) : (respond p s).buf = s.buf := rfl
@[simp] theorem respond_plat (p : Payload) (s : State) : (respond p s).plat = s.plat := rfl
@[simp] theorem respond_port (p : Payload) (s : State) : (respond p s).port = s.port := rfl
@[simp] theorem respond_inbox (p : Payload) (s : State) : (respond p s).inbox = s.inbox := rfl
@[simp] theorem respond_responses (p : Payload) (s : State) : (respond p s).responses = { status := .ok, payload := p } :: s.responses := rfl
@[simp] theorem respond_draws (p : Payload) (s : State) : (respond p s).draws = s.draws := rfl

/-! ### setErr -/

@[simp] theorem setErr_buf (c : ErrCode) (s : State) : (setErr c s).buf = s.buf := rfl
@[simp] theorem setErr_plat (c : ErrCode) (s : State) : (setErr c s).plat = s.plat := rfl
@[simp] theorem setErr_port (c : ErrCode) (s : State) : (setErr c s).port = s.port := rfl
@[simp] theorem setErr_inbox (c : ErrCode) (s : State) : (setErr c s).inbox = s.inbox := rfl
@[simp] theorem setErr_responses (c : ErrCode) (s : State) : (setErr c s).responses = s.responses := rfl
@[simp] theorem setErr_draws (c : ErrCode) (s : State) : (setErr c s).draws = s.draws := rfl
@[simp] theorem setErr_eng_status (c : ErrCode) (s : State) : (setErr c s).eng.status = s.eng.status := rfl
@[simp] theorem setErr_eng_err (c : ErrCode) (s : State) : (setErr c s).eng.err = c := rfl
@[simp] theorem setErr_eng_shape (c : ErrCode) (s : State) : (setErr c s).eng.shape = s.eng.shape := rfl
@[simp] theorem setErr_eng_l (c : ErrCode) (s : State) : (setErr c s).eng.l = s.eng.l := rfl
@[simp] theorem setErr_eng_nl (c : ErrCode) (s : State) : (setErr c s).eng.nl = s.eng.nl := rfl
@[simp] theorem setErr_eng_s (c : ErrCode) (s : State) : (setErr c s).eng.s = s.eng.s := rfl
@[simp] theorem setErr_eng_width (c : ErrCode) (s : State) : (setErr c s).eng.width = s.eng.width := rfl
@[simp] theorem setErr_eng_moves (c : ErrCode) (s : State) : (setErr c s).eng.moves = s.eng.moves := rfl
@[simp] theorem setErr_eng_refin (c : ErrCode) (s : State) : (setErr c s).eng.refin = s.eng.refin := rfl
@[simp] theorem setErr_eng_refout (c : ErrCode) (s : State) : (setErr c s).eng.refout = s.eng.refout := rfl
@[simp] theorem setErr_eng_tmode (c : ErrCode) (s : State) : (setErr c s).eng.tmode = s.eng.tmode := rfl
@[simp] theorem setErr_eng_polyP (c : ErrCode) (s : State) : (setErr c s).eng.polyP = s.eng.polyP := rfl
@[simp] theorem setErr_eng_initP (c : ErrCode) (s : State) : (setErr c s).eng.initP = s.eng.initP := rfl
@[simp] theorem setErr_eng_xoroutP (c : ErrCode) (s : State) : (setErr c s).eng.xoroutP = s.eng.xoroutP := rfl
@[simp] theorem setErr_eng_cklen (c : ErrCode) (s : State) : (setErr c s).eng.cklen = s.eng.cklen := rfl
@[simp] theorem setErr_eng_withTable (c : ErrCode) (s : State) : (setErr c s).eng.withTable = s.eng.withTable := rfl
@[simp] theorem setErr_eng_reg (c : ErrCode) (s : State) : (setErr c s).eng.reg = s.eng.reg := rfl
@[simp] theorem setErr_eng_table (c : ErrCode) (s : State) : (setErr c s).eng.table = s.eng.table := rfl

/-! ### setReg -/

@[simp] theorem setReg_buf (v : Nat) (s : State) : (setReg v s).buf = s.buf := rfl
@[simp] theorem setReg_plat (v : Nat) (s : State) : (setReg v s).plat = s.plat := rfl
@[simp] theorem setReg_port (v : Nat) (s : State) : (setReg v s).port = s.port := rfl
@[simp] theorem setReg_inbox (v : Nat) (s : State) : (setReg v s).inbox = s.inbox := rfl
@[simp] theorem setReg_responses (v : Nat) (s : State) : (setReg v s).responses = s.responses := rfl
@[simp] theorem setReg_draws (v : Nat) (s : State) : (setReg v s).draws = s.draws := rfl
@[simp] theorem setReg_eng_status (v : Nat) (s : State) : (setReg v s).eng.status = s.eng.status := rfl
@[simp] theorem setReg_eng_err (v : Nat) (s : State) : (setReg v s).eng.err = s.eng.err := rfl
@[simp] theorem setReg_eng_shape (v : Nat) (s : State) : (setReg v s).eng.shape = s.eng.shape := rfl
@[simp] theorem setReg_eng_l (v : Nat) (s : State) : (setReg v s).eng.l = s.eng.l := rfl
@[simp] theorem setReg_eng_nl (v : Nat) (s : State) : (setReg v s).eng.nl = s.eng.nl := rfl
@[simp] theorem setReg_eng_s (v : Nat) (s : State) : (setReg v s).eng.s = s.eng.s := rfl
@[simp] theorem setReg_eng_width (v : Nat) (s : State) : (setReg v s).eng.width = s.eng.width := rfl
@[simp] theorem setReg_eng_moves (v : Nat) (s : State) : (setReg v s).eng.moves = s.eng.moves := rfl
@[simp] theorem setReg_eng_refin (v : Nat) (s : State) : (setReg v s).eng.refin = s.eng.refin := rfl
@[simp] theorem setReg_eng_refout (v : Nat) (s : State) : (setReg v s).eng.refout = s.eng.refout := rfl
@[simp] theorem setReg_eng_tmode (v : Nat) (s : State) : (setReg v s).eng.tmode = s.eng.tmode := rfl
@[simp] theorem setReg_eng_polyP (v : Nat) (s : State) : (setReg v s).eng.polyP = s.eng.polyP := rfl
@[simp] theorem setReg_eng_initP (v : Nat) (s : State) : (setReg v s).eng.initP = s.eng.initP := rfl
@[simp] theorem setReg_eng_xoroutP (v : Nat) (s : State) : (setReg v s).eng.xoroutP = s.eng.xoroutP := rfl
@[simp] theorem setReg_eng_cklen (v : Nat) (s : State) : (setReg v s).eng.cklen = s.eng.cklen := rfl
@[simp] theorem setReg_eng_withTable (v : Nat) (s : State) : (setReg v s).eng.withTable = s.eng.withTable := rfl
@[simp] theorem setReg_eng_reg (v : Nat) (s : State) : (setReg v s).eng.reg = v := rfl
@[simp] theorem setReg_eng_table (v : Nat) (s : State) : (setReg v s).eng.table = s.eng.table := rfl

/-! ### raiseFault -/

@[simp] theorem raiseFault_buf (c : ErrCode) (s : State) : (raiseFault c s).buf = s.buf := rfl
@[simp] theorem raiseFault_plat (c : ErrCode) (s : State) : (raiseFault c s).plat = s.plat := rfl
@[simp] theorem raiseFault_port (c : ErrCode) (s : State) : (raiseFault c s).port = s.port := rfl
@[simp] theorem raiseFault_inbox (c : ErrCode) (s : State) : (raiseFault c s).inbox = s.inbox := rfl
@[simp] theorem raiseFault_responses (c : ErrCode) (s : State) : (raiseFault c s).responses = { status := c, payload := .none } :: s.responses := rfl
@[simp] theorem raiseFault_draws (c : ErrCode) (s : State) : (raiseFault c s).draws = s.draws := rfl
@[simp] theorem raiseFault_eng_status (c : ErrCode) (s : State) : (raiseFault c s).eng.status = s.eng.status := rfl
@[simp] theorem raiseFault_eng_err (c : ErrCode) (s : State) : (raiseFault c s).eng.err = c := rfl
@[simp] theorem raiseFault_eng_shape (c : ErrCode) (s : State) : (raiseFault c s).eng.shape = s.eng.shape := rfl
@[simp] theorem raiseFault_eng_l (c : ErrCode) (s : State) : (raiseFault c s).eng.l = s.eng.l := rfl
@[simp] theorem raiseFault_eng_nl (c : ErrCode) (s : State) : (raiseFault c s).eng.nl = s.eng.nl := rfl
@[simp] theorem raiseFault_eng_s (c : ErrCode) (s : State) : (raiseFault c s).eng.s = s.eng.s := rfl
@[simp] theorem raiseFault_eng_width (c : ErrCode) (s : State) : (raiseFault c s).eng.width = s.eng.width := rfl
@[simp] theorem raiseFault_eng_moves (c : ErrCode) (s : State) : (raiseFault c s).eng.moves = s.eng.moves := rfl
@[simp] theorem raiseFault_eng_refin (c : ErrCode) (s : State) : (raiseFault c s).eng.refin = s.eng.refin := rfl
@[simp] theorem raiseFault_eng_refout (c : ErrCode) (s : State) : (raiseFault c s).eng.refout = s.eng.refout := rfl
@[simp] theorem raiseFault_eng_tmode (c : ErrCode) (s : State) : (raiseFault c s).eng.tmode = s.eng.tmode := rfl
@[simp] theorem raiseFault_eng_polyP (c : ErrCode) (s : State) : (raiseFault c s).eng.polyP = s.eng.polyP := rfl
@[simp] theorem raiseFault_eng_initP (c : ErrCode) (s : State) : (raiseFault c s).eng.initP = s.eng.initP := rfl
@[simp] theorem raiseFault_eng_xoroutP (c : ErrCode) (s : State) : (raiseFault c s).eng.xoroutP = s.eng.xoroutP := rfl
@[simp] theorem raiseFault_eng_cklen (c : ErrCode) (s : State) : (raiseFault c s).eng.cklen = s.eng.cklen := rfl
@[simp] theorem raiseFault_eng_withTable (c : ErrCode) (s : State) : (raiseFault c s).eng.withTable = s.eng.withTable := rfl
@[simp] theorem raiseFault_eng_reg (c : ErrCode) (s : State) : (raiseFault c s).eng.reg = s.eng.reg := rfl
@[simp] theorem raiseFault_eng_table (c : ErrCode) (s : State) : (raiseFault c s).eng.table = s.eng.table := rfl

/-! ### powerOnReset and presentNext -/

@[simp] theorem powerOnReset_eng (s : State) : (powerOnReset s).eng = Engine.reset := rfl
@[simp] theorem powerOnReset_buf (s : State) : (powerOnReset s).buf = s.buf := rfl
@[simp] theorem powerOnReset_plat (s : State) : (powerOnReset s).plat = s.plat := rfl
@[simp] theorem powerOnReset_port (s : State) : (powerOnReset s).port = s.port := rfl
@[simp] theorem powerOnReset_inbox (s : State) : (powerOnReset s).inbox = s.inbox := rfl
@[simp] theorem powerOnReset_responses (s : State) : (powerOnReset s).responses = s.responses := rfl
@[simp] theorem powerOnReset_draws (s : State) : (powerOnReset s).draws = s.draws := rfl
@[simp] theorem presentNext_eng (ev : HostEvent) (s : State) : (presentNext ev s).eng = s.eng := rfl
@[simp] theorem presentNext_buf (ev : HostEvent) (s : State) : (presentNext ev s).buf = s.buf := rfl
@[simp] theorem presentNext_plat (ev : HostEvent) (s : State) : (presentNext ev s).plat = s.plat := rfl
@[simp] theorem presentNext_port (ev : HostEvent) (s : State) : (presentNext ev s).port = s.port := rfl
@[simp] theorem presentNext_inbox (ev : HostEvent) (s : State) : (presentNext ev s).inbox = ev :: s.inbox := rfl
@[simp] theorem presentNext_responses (ev : HostEvent) (s : State) : (presentNext ev s).responses = s.responses := rfl
@[simp] theorem presentNext_draws (ev : HostEvent) (s : State) : (presentNext ev s).draws = s.draws := rfl

end Sys2Proof.Machine
end

