-- ==== Sys2Proof/Laws/Memory.lean ====
section
/-! SUPPORT. BUF: a write is read back, leaves every other address alone and keeps the canonical form. -/

namespace Sys2Proof.Machine

@[simp] theorem Memory.read_write_same (m : Memory) (a : Nat) (b : Byte) : (m.write a b).read a = some b := by
  induction m with
  | nil => simp [Memory.write, Memory.read]
  | cons c rest ih =>
    obtain ⟨k, v⟩ := c
    simp only [Memory.write]
    split
    · simp [Memory.read]
    · split
      · simp [Memory.read]
      · rename_i h
        simp [Memory.read, Ne.symm h, ih]

theorem Memory.read_write_other (m : Memory) {a x : Nat} (b : Byte) (h : x ≠ a) :
    (m.write a b).read x = m.read x := by
  induction m with
  | nil => simp [Memory.write, Memory.read, Ne.symm h]
  | cons c rest ih =>
    obtain ⟨k, v⟩ := c
    simp only [Memory.write]
    split
    · simp [Memory.read, Ne.symm h]
    · split
      · rename_i hk
        subst hk
        simp [Memory.read, Ne.symm h]
      · simp [Memory.read, ih]

theorem Memory.risesAbove_write {m : Memory} {lo a : Nat} (b : Byte) (hm : m.risesAbove lo = true) (ha : lo < a) :
    (m.write a b).risesAbove lo = true := by
  induction m generalizing lo with
  | nil => simp [Memory.write, Memory.risesAbove, ha]
  | cons c rest ih =>
    obtain ⟨k, v⟩ := c
    simp only [Memory.risesAbove, Bool.and_eq_true, decide_eq_true_eq] at hm
    simp only [Memory.write]
    split
    · simp [Memory.risesAbove, hm.2, *]
    · split
      · rename_i hk
        subst hk
        simp [Memory.risesAbove, hm]
      · simp only [Memory.risesAbove, Bool.and_eq_true, decide_eq_true_eq]
        exact ⟨hm.1, ih hm.2 (by omega)⟩

/-- Every write keeps the canonical form. -/
theorem Memory.wf_write {m : Memory} (a : Nat) (b : Byte) (hm : m.wf = true) : (m.write a b).wf = true := by
  cases m with
  | nil => rfl
  | cons c rest =>
    obtain ⟨k, v⟩ := c
    simp only [Memory.wf] at hm
    simp only [Memory.write]
    split
    · simp [Memory.wf, Memory.risesAbove, *]
    · split
      · rename_i hk
        subst hk
        exact hm
      · exact Memory.risesAbove_write b hm (by omega)

/-- What a write lists: the written byte, and cells that were listed before. -/
theorem Memory.mem_write {m : Memory} {a : Nat} {b : Byte} {c : Host.Cell} (h : c ∈ m.write a b) :
    c = (a, b) ∨ c ∈ m := by
  induction m with
  | nil => simpa [Memory.write] using h
  | cons d rest ih =>
    obtain ⟨k, v⟩ := d
    simp only [Memory.write] at h
    split at h
    · simpa using h
    · split at h
      · rcases List.mem_cons.mp h with h | h
        · exact .inl h
        · exact .inr (List.mem_cons_of_mem _ h)
      · rcases List.mem_cons.mp h with h | h
        · exact .inr (by simp [h])
        · exact (ih h).imp_right (List.mem_cons_of_mem _)

/-- All a host write can do. -/
theorem hostWrite_next {a : Nat} {b : Byte} {s t : State} (h : hostWrite a b s = .next t) :
    a < 2 ^ s.plat.addrBits ∧ t = { s with buf := s.buf.write a b } := by
  unfold hostWrite at h
  split at h
  · exact ⟨‹_›, by cases h; rfl⟩
  · cases h

/-- All a run of host writes can do: only BUF changes, by writes at addresses that exist. -/
theorem hostWrites_next {ws : List Host.Cell} {s t : State} (h : hostWrites ws s = .next t) :
    (∀ w ∈ ws, w.1 < 2 ^ s.plat.addrBits) ∧
      t = { s with buf := ws.foldl (fun m w => m.write w.1 w.2) s.buf } := by
  induction ws generalizing s with
  | nil => cases h; exact ⟨by simp, rfl⟩
  | cons w rest ih =>
    obtain ⟨a, b⟩ := w
    simp only [hostWrites] at h
    split at h
    · rename_i u hu
      obtain ⟨ha, rfl⟩ := hostWrite_next hu
      obtain ⟨hr, rfl⟩ := ih h
      exact ⟨by simpa [ha] using hr, rfl⟩
    · cases h
    · cases h

end Sys2Proof.Machine
end

