-- ==== Sys2Proof/Laws/Commands.lean ====
section
/-! SUPPORT. What each meaning, and one step, can do, said once: later proofs take these cases and never unfold a meaning. -/

namespace Sys2Proof.Machine

variable {s t : State}

/-- CFG that answers a state faulted, or committed a new instance. -/
theorem execCfg_next {width : BitVec 16} {tsrc : TSrc} {tmode : TMode} {refout refin : Bool} {shape : Shape}
    (h : execCfg width tsrc tmode refout refin shape s = .next t) :
    (tsrc = .explicit ∧ tmode = .none ∧ t = raiseFault .illegalCommand s) ∨
    (geometry s.plat.maxWidth shape width.toNat = none ∧ t = raiseFault .invalidParameter s) ∨
    ∃ g, geometry s.plat.maxWidth shape width.toNat = some g ∧ operandsBelowWidth width.toNat s.port = true ∧
      (tsrc = .explicit → presentableList (tableCount tmode) g.s s.port.opTable = true) ∧
      ¬ (tsrc = .explicit ∧ tmode = .none) ∧
      t = respond .none { s with eng := newEngine g width tsrc tmode refout refin shape s.port } := by
  unfold execCfg at h
  split at h
  · exact .inl ⟨(‹_ ∧ _›).1, (‹_ ∧ _›).2, by cases h; rfl⟩
  · rename_i hw
    split at h
    · exact .inr (.inl ⟨‹_›, by cases h; rfl⟩)
    · rename_i g hg
      split at h
      · cases h
      · split at h
        · cases h
        · rename_i hb hp
          exact .inr (.inr ⟨g, hg, by simpa using hb, by simpa using hp, hw, by cases h; rfl⟩)

theorem execUpd_next {b : Byte} (h : execUpd b s = .next t) :
    (s.eng.status = .unconfigured ∧ t = raiseFault .notConfigured s) ∨
    (s.eng.status = .accumulating ∧ t = respond .none (setReg (engineByteStep s.eng s.eng.reg b.toNat) s)) := by
  unfold execUpd at h
  split at h <;> cases h
  · exact .inl ⟨‹_›, rfl⟩
  · exact .inr ⟨‹_›, rfl⟩

theorem execUpdb_next (h : execUpdb s = .next t) :
    (s.eng.status = .unconfigured ∧ t = raiseFault .notConfigured s) ∨
    (s.eng.status = .accumulating ∧ addressesPresentable s = true ∧ rangeInside s = true ∧ rangeReadable s = true ∧
      t = respond .none (setReg (consume s.eng s.eng.reg (rangeBytes s)) s)) := by
  unfold execUpdb at h
  split at h
  · exact .inl ⟨‹_›, by cases h; rfl⟩
  · split at h
    · cases h
    · split at h
      · cases h
      · split at h
        · cases h
        · rename_i hs hp hi hr
          exact .inr ⟨hs, by simpa using hp, by simpa using hi, by simpa using hr, by cases h; rfl⟩

theorem execFin_next (h : execFin s = .next t) :
    (s.eng.status = .unconfigured ∧ t = raiseFault .notConfigured s) ∨
    (s.eng.status = .accumulating ∧
      t = respond (.result s.eng.width (engineResult s.eng s.eng.reg)) (setReg s.eng.initP s)) := by
  unfold execFin at h
  split at h <;> cases h
  · exact .inl ⟨‹_›, rfl⟩
  · exact .inr ⟨‹_›, rfl⟩

theorem execRst_next (h : execRst s = .next t) :
    (s.eng.status = .unconfigured ∧ t = raiseFault .notConfigured s) ∨
    (s.eng.status = .accumulating ∧ t = respond .none (setReg s.eng.initP s)) := by
  unfold execRst at h
  split at h <;> cases h
  · exact .inl ⟨‹_›, rfl⟩
  · exact .inr ⟨‹_›, rfl⟩

theorem execRefl_next {bw : LimbWidth} (h : execRefl bw s = .next t) :
    t = respond (.scalar bw (reflectSwap (limbBits bw) (scalarOperand bw s.port))) s := by
  cases h; rfl

theorem execReflm_next {count : BitVec 16} {lb : LimbWidth} (h : execReflm count lb s = .next t) :
    presentableList count.toNat (limbBits lb) s.port.opLimbs = true ∧
      t = respond (.limbs lb (limbReverse (limbBits lb) s.port.opLimbs)) s := by
  unfold execReflm at h
  split at h <;> cases h
  exact ⟨‹_›, rfl⟩

theorem execTclone_next (h : execTclone s = .next t) :
    (s.eng.status = .unconfigured ∧ t = raiseFault .notConfigured s) ∨
    (s.eng.status = .accumulating ∧ t = respond (.table s.eng.tmode s.eng.table) s) := by
  unfold execTclone at h
  split at h <;> cases h
  · exact .inl ⟨‹_›, rfl⟩
  · exact .inr ⟨‹_›, rfl⟩

theorem runWord_next {cw : Word} (h : runWord cw s = .next t) :
    (∃ i, decode cw = .ok i ∧ exec i s = .next t) ∨
    (∃ why, decode cw = .error why) ∧ t = raiseFault .illegalCommand s := by
  unfold runWord at h
  split at h
  · exact .inl ⟨_, ‹_›, h⟩
  · exact .inr ⟨⟨_, ‹_›⟩, by cases h; rfl⟩

theorem serveAmidWrites_next {cw : Word} {ws : List Host.Cell} (h : serveAmidWrites cw ws s = .next t) :
    ∃ u, runWord cw { s with buf := seenBuf s.draws ws s.buf } = .next u ∧
      hostWrites ws { u with buf := s.buf, draws := s.draws + ws.length } = .next t := by
  unfold serveAmidWrites at h
  split at h
  · exact ⟨_, ‹_›, h⟩
  · cases h
  · cases h

theorem serveCommand_next {cw : Word} {p : Bundle} {ws : List Host.Cell} (h : serveCommand cw p ws s = .next t) :
    (ws = [] ∧ runWord cw { s with port := p } = .next t) ∨
    (ws ≠ [] ∧ serveAmidWrites cw ws { s with port := p } = .next t) := by
  cases ws with
  | nil => exact .inl ⟨rfl, h⟩
  | cons w ws => exact .inr ⟨by simp, h⟩

/-- What a running command sees of an address: the byte before the writes, or one of the bytes written there. -/
theorem bufByte_seenBuf (n : Nat) (ws : List Host.Cell) (m : Memory) (a : Nat) :
    bufByte (seenBuf n ws m) a = bufByte m a ∨ ∃ w ∈ ws, w.1 = a ∧ bufByte (seenBuf n ws m) a = w.2 := by
  induction ws generalizing n m with
  | nil => exact .inl rfl
  | cons w ws ih =>
    obtain ⟨x, b⟩ := w
    simp only [seenBuf]
    rcases ih (n + 1) (if Config.writeSeen n then m.write x b else m) with h | ⟨w, hw, hx, hb⟩
    · by_cases hd : Config.writeSeen n = true
      · simp only [hd, if_true] at h ⊢
        by_cases hxa : a = x
        · subst hxa
          exact .inr ⟨(a, b), by simp, rfl, by rw [h]; simp [bufByte]⟩
        · exact .inl (by rw [h]; simp [bufByte, Memory.read_write_other _ _ hxa])
      · simp only [hd] at h ⊢
        exact .inl h
    · exact .inr ⟨w, by simp [hw], hx, hb⟩

/-- One step: idle, a command, a host write, or POR. -/
theorem step_next (h : step s = .next t) :
    (s.inbox = [] ∧ t = s) ∨
    (∃ cw p ws rest, s.inbox = .command cw p ws :: rest ∧ serveCommand cw p ws { s with inbox := rest } = .next t) ∨
    (∃ a b rest, s.inbox = .bufWrite a b :: rest ∧ hostWrite a b { s with inbox := rest } = .next t) ∨
    (∃ rest, s.inbox = .por :: rest ∧ t = powerOnReset { s with inbox := rest }) := by
  unfold step serveNext at h
  split at h
  · exact .inl ⟨‹_›, by cases h; rfl⟩
  · rename_i ev rest hi
    cases ev with
    | command cw p ws => exact .inr (.inl ⟨cw, p, ws, rest, hi, h⟩)
    | bufWrite a b => exact .inr (.inr (.inl ⟨a, b, rest, hi, h⟩))
    | por => exact .inr (.inr (.inr ⟨rest, hi, by cases h; rfl⟩))

end Sys2Proof.Machine
end

