-- ==== Sys2Proof/Laws/PerInstr.lean ====
section
/-! SUPPORT. Per command: its encoding is a word of its row of spec/opcode_table.json, whatever its fields
(30_encoding.md R46, R47): the row's mask selects the row's match. -/

namespace Sys2Proof.Laws.EncodeMatchesRow

/-- The row's `mask` (spec/opcode_table.json): opcode and reserved bits. -/
def rowMask : Instr → Word
  | .cfg _ _ _ _ _ _ => 0x0000E00F
  | .upd _ => 0xFFFF00FF
  | .updb => 0xFFFFFFFF
  | .fin => 0xFFFFFFFF
  | .rst => 0xFFFFFFFF
  | .refl _ => 0xFFFFFFCF
  | .reflm _ _ => 0x0000FFCF
  | .tclone => 0xFFFFFFFF

/-- The row's `match` (spec/opcode_table.json). -/
def rowMatch : Instr → Word
  | .cfg _ _ _ _ _ _ => 1
  | .upd _ => 2
  | .updb => 3
  | .fin => 4
  | .rst => 5
  | .refl _ => 6
  | .reflm _ _ => 7
  | .tclone => 8

/-- The encoding is a word of the row. -/
def Statement (i : Instr) : Prop := encode i &&& rowMask i = rowMatch i

theorem cfg (width : BitVec 16) (tsrc : TSrc) (tmode : TMode) (refout refin : Bool) (shape : Shape) :
    Statement (.cfg width tsrc tmode refout refin shape) := by
  have key : ∀ (w : BitVec 16) (f : BitVec 13), (w ++ 0#3 ++ f) &&& 0x0000E00F#32 = 0#28 ++ f.extractLsb' 0 4 := by
    intro w f
    ext j hj
    simp only [BitVec.getElem_and, BitVec.getElem_append, BitVec.getElem_extractLsb']
    have hm : (0x0000E00F#32)[j] = decide (j < 4 ∨ 13 ≤ j ∧ j < 16) := by
      revert j; decide
    rw [hm]
    by_cases h4 : j < 4
    · simp [h4, show j < 13 by omega]
    · by_cases h13 : j < 13
      · simp [h4, h13, show ¬ 13 ≤ j by omega]
      · by_cases h16 : j < 16
        · simp [h4, h13, show j - 13 < 3 by omega]
        · simp [h4, h13, h16]
  change width ++ 0#3 ++ encodeCLow tsrc tmode refout refin shape &&& 0x0000E00F#32 = 1#32
  rw [key]
  cases tsrc <;> cases tmode <;> cases refout <;> cases refin <;> cases shape <;> decide

theorem upd (byte : Byte) : Statement (.upd byte) := by
  revert byte
  unfold Statement
  decide

theorem updb : Statement .updb := by unfold Statement; decide

theorem fin : Statement .fin := by unfold Statement; decide

theorem rst : Statement .rst := by unfold Statement; decide

theorem refl (bw : LimbWidth) : Statement (.refl bw) := by
  unfold Statement
  cases bw <;> decide

theorem reflm (count : BitVec 16) (lb : LimbWidth) : Statement (.reflm count lb) := by
  have key : ∀ (w : BitVec 16) (f : BitVec 6), (w ++ 0#10 ++ f) &&& 0x0000FFCF#32 = 0#28 ++ f.extractLsb' 0 4 := by
    intro w f
    ext j hj
    simp only [BitVec.getElem_and, BitVec.getElem_append, BitVec.getElem_extractLsb']
    have hm : (0x0000FFCF#32)[j] = decide (j < 4 ∨ 6 ≤ j ∧ j < 16) := by
      revert j; decide
    rw [hm]
    by_cases h4 : j < 4
    · simp [h4, show j < 6 by omega]
    · by_cases h6 : j < 6
      · simp [h4, h6, show ¬ 6 ≤ j by omega]
      · by_cases h16 : j < 16
        · simp [h4, h6, show j - 6 < 10 by omega]
        · simp [h4, h6, h16]
  change count ++ 0#10 ++ encodeMLow lb &&& 0x0000FFCF#32 = 7#32
  rw [key]
  cases lb <;> decide

theorem tclone : Statement .tclone := by unfold Statement; decide

end Sys2Proof.Laws.EncodeMatchesRow
end

