-- ==== Sys2Proof/Laws/Shapes.lean ====
section
/-! SUPPORT. Where the limb shifts' precondition (45_engine_sharded.md R129) holds, each shape's operation is its formula on
limbs; later proofs cite these and never unfold the guard. -/

namespace Sys2Proof.Machine

theorem withinLimb_of_le {α : Type} {k L : Nat} {op : k ≤ L → α} {free : α} (h : k ≤ L) :
    withinLimb k L op free = op h := dif_pos h

/-- FIN's result is below `2^WIDTH`, and is Finalize's number wherever that is. -/
theorem boundedResult_lt (width : BitVec 16) (v : Nat) : boundedResult width v < 2 ^ width.toNat := by
  unfold boundedResult
  split
  · assumption
  · exact Nat.mod_lt _ (Nat.two_pow_pos _)

@[simp] theorem boundedResult_of_lt {width : BitVec 16} {v : Nat} (h : v < 2 ^ width.toNat) :
    boundedResult width v = v := if_pos h

section Geometry

variable {shape : Shape} {g : Geom}

theorem shapeParse_sharded {refin : Bool} {raw : Nat} (hs : shapeKind shape = .sharded) (h : g.moves ≤ g.l) :
    shapeParse shape g refin raw = limbVal g.l (limbParse g.l g.moves h refin (limbsOf g.l g.nl raw)) := by
  simp only [shapeParse, hs, withinLimb_of_le h]

theorem shapeParse_twoLimb {refin : Bool} {raw : Nat} (hs : shapeKind shape = .twoLimb) (h : g.moves ≤ 64) :
    shapeParse shape g refin raw = pairVal (pairParse g.moves h refin (pairOf raw)) := by
  simp only [shapeParse, hs, withinLimb_of_le h]

theorem shapeTable_sharded {polyP slices : Nat} {refin : Bool} (hs : shapeKind shape = .sharded) (h : 1 ≤ g.l) :
    shapeTable shape g polyP refin slices =
      (limbBuildTable g.l g.nl h (limbsOf g.l g.nl polyP) refin slices).map (limbVal g.l) := by
  simp only [shapeTable, hs, withinLimb_of_le h]

end Geometry

section Configured

variable {e : Engine} {r : Nat}

theorem engineByteStep_sharded {b : Nat} (hs : shapeKind e.shape = .sharded) (h : 8 ≤ e.l) :
    engineByteStep e r b =
      limbVal e.l (limbByteStep e.l h e.tmode e.refin (limbsOf e.l e.nl e.polyP)
        (fun i => limbsOf e.l e.nl (tableAt e.table i)) (limbsOf e.l e.nl r) b) := by
  simp only [engineByteStep, hs, withinLimb_of_le h]

theorem engineBlock16_sharded {d : List Nat} (hs : shapeKind e.shape = .sharded) (h : 8 ≤ e.l) :
    engineBlock16 e r d =
      limbVal e.l (limbBlock16 e.l h e.refin (fun i => limbsOf e.l e.nl (tableAt e.table i)) (limbsOf e.l e.nl r) d) := by
  simp only [engineBlock16, hs, withinLimb_of_le h]

theorem engineFinalize_sharded (hs : shapeKind e.shape = .sharded) (h : e.moves ≤ e.l) :
    engineFinalize e r =
      limbVal e.l (limbFinalize e.l e.moves h e.refin e.refout (limbsOf e.l e.nl e.xoroutP) (limbsOf e.l e.nl r)) := by
  simp only [engineFinalize, hs, withinLimb_of_le h]

theorem engineFinalize_twoLimb (hs : shapeKind e.shape = .twoLimb) (h : e.moves ≤ 64) :
    engineFinalize e r = pairVal (pairFinalize e.moves h e.refin e.refout (pairOf e.xoroutP) (pairOf r)) := by
  simp only [engineFinalize, hs, withinLimb_of_le h]

end Configured

end Sys2Proof.Machine
end

