-- ==== Sys2Proof/Laws/Vectors.lean ====
section
/-! SUPPORT. S-bit vectors and their limb views (00_scope.md R7): sizes, and that cutting into limbs and joining are inverse. -/

namespace Sys2Proof.Machine

theorem shl_lt (S v k : Nat) : shl S v k < 2 ^ S := Nat.mod_lt _ (by positivity)

theorem shr_le (v k : Nat) : shr v k ≤ v := Nat.div_le_self _ _

theorem slice_lt (v lo len : Nat) : slice v lo len < 2 ^ len := Nat.mod_lt _ (by positivity)

theorem truncateLeft_lt (x S moves : Nat) : truncateLeft x S moves < 2 ^ (S - moves) := Nat.mod_lt _ (by positivity)

@[simp] theorem limbsOf_length (L n v : Nat) : (limbsOf L n v).length = n := by
  induction n with
  | zero => rfl
  | succ n ih => simp [limbsOf, ih]

theorem limbsOf_lt {L n v d : Nat} (h : d ∈ limbsOf L n v) : d < 2 ^ L := by
  induction n with
  | zero => cases h
  | succ n ih =>
    rcases List.mem_cons.mp h with h | h
    · exact h ▸ slice_lt _ _ _
    · exact ih h

theorem limbVal_lt {L : Nat} {x : List Nat} (h : ∀ d ∈ x, d < 2 ^ L) : limbVal L x < 2 ^ (L * x.length) := by
  induction x with
  | nil => simp [limbVal]
  | cons d rest ih =>
    have hd : d < 2 ^ L := h d (by simp)
    have hr := ih fun e he => h e (by simp [he])
    have hp : 2 ^ (L * (rest.length + 1)) = 2 ^ L * 2 ^ (L * rest.length) := by rw [← pow_add]; ring_nf
    simp only [limbVal, List.length_cons, hp]
    nlinarith [Nat.mul_le_mul_right (2 ^ (L * rest.length)) (Nat.succ_le_of_lt hd)]

/-- Joining the limbs of `v` gives its low `L*n` bits. -/
theorem limbVal_limbsOf (L n v : Nat) : limbVal L (limbsOf L n v) = v % 2 ^ (L * n) := by
  induction n with
  | zero => simp [limbsOf, limbVal, Nat.mod_one]
  | succ n ih =>
    have hp : 2 ^ (L * (n + 1)) = 2 ^ (L * n) * 2 ^ L := by rw [← pow_add]; ring_nf
    simp only [limbsOf, limbVal, limbsOf_length, ih, slice, hp, Nat.mod_mul]
    ring

/-- Cutting the value of an array of limbs gives the array back. -/
theorem limbsOf_limbVal {L : Nat} {x : List Nat} (h : ∀ d ∈ x, d < 2 ^ L) :
    limbsOf L x.length (limbVal L x) = x := by
  have key : ∀ (y : List Nat) (k : Nat), (∀ d ∈ y, d < 2 ^ L) →
      limbsOf L y.length (k * 2 ^ (L * y.length) + limbVal L y) = y := by
    intro y
    induction y with
    | nil => intro k _; rfl
    | cons d rest ih =>
      intro k hy
      have hd : d < 2 ^ L := hy d (by simp)
      have hr : ∀ e ∈ rest, e < 2 ^ L := fun e he => hy e (by simp [he])
      have hlt := limbVal_lt hr
      have hp : 2 ^ (L * (rest.length + 1)) = 2 ^ L * 2 ^ (L * rest.length) := by rw [← pow_add]; ring_nf
      have he : k * 2 ^ (L * (rest.length + 1)) + (d * 2 ^ (L * rest.length) + limbVal L rest) =
          (k * 2 ^ L + d) * 2 ^ (L * rest.length) + limbVal L rest := by rw [hp]; ring
      simp only [limbVal, List.length_cons, limbsOf, he, ih _ hr, slice]
      congr 1
      rw [Nat.add_comm, Nat.add_mul_div_right _ _ (by positivity), Nat.div_eq_of_lt hlt, Nat.zero_add,
        Nat.add_comm, Nat.add_mul_mod_self_right, Nat.mod_eq_of_lt hd]
  simpa using key x 0 h

@[simp] theorem pairVal_pairOf {v : Nat} (h : v < 2 ^ 128) : pairVal (pairOf v) = v := by
  simp only [pairVal, pairOf, slice]
  omega

theorem pairOf_pairVal {x : Pair} (hh : x.hi < 2 ^ 64) (hl : x.lo < 2 ^ 64) : pairOf (pairVal x) = x := by
  obtain ⟨hi, lo⟩ := x
  simp only [pairVal, pairOf, slice] at *
  congr 1 <;> omega

theorem reflect_lt (w v : Nat) : reflect w v < 2 ^ w := by
  induction w generalizing v with
  | zero => simp [reflect]
  | succ w ih =>
    have := ih (v / 2)
    have : v % 2 < 2 := Nat.mod_lt _ (by decide)
    simp only [reflect, pow_succ]
    nlinarith

end Sys2Proof.Machine
end

