-- ==== Sys2Proof/Tests/Slice0.lean ====
section
/-! SUPPORT. The model's own tests, every expected value from spec/ (30_encoding.md R62, 95_test_vectors.md and the examples of
the rules), and for every statement with hypotheses a witness that meets them. -/

namespace Sys2Proof.Tests

open Sys2Proof Sys2Proof.Machine

/-! ### Helpers -/

/-- A bundle with CFG's three constants. -/
def constants (poly init xorout : Nat) : Bundle :=
  { Bundle.zero with opPoly := poly, opInit := init, opXorout := xorout }

/-- A bundle with UPDB's three addresses. -/
def addresses (base off len : Nat) : Bundle :=
  { Bundle.zero with opBase := base, opOff := off, opLen := len }

/-- The reset machine with a bundle at the port. -/
def presented (p : Bundle) : State := { State.reset with port := p }

/-- The reset machine with one event in the host's queue. -/
def queued (ev : HostEvent) : State := { State.reset with inbox := [ev] }

/-- The next state of an outcome, the reset state if there is none. -/
def nextOf : Host.Outcome State Fault Refusal → State
  | .next t => t
  | .fault _ => State.reset
  | .refused _ => State.reset

/-- The engine of a next state. -/
def engineOf : Host.Outcome State Fault Refusal → Option Engine
  | .next t => some t.eng
  | .fault _ => none
  | .refused _ => none

/-- The last response of a next state. -/
def answerOf : Host.Outcome State Fault Refusal → Option Response
  | .next t => t.responses.head?
  | .fault _ => none
  | .refused _ => none

/-- REG of a next state. -/
def regOf (o : Host.Outcome State Fault Refusal) : Option Nat := (engineOf o).map Engine.reg

/-- Why an outcome is a refusal. -/
def refusalOf : Host.Outcome State Fault Refusal → Option Refusal
  | .next _ => none
  | .fault _ => none
  | .refused r => some r

/-- The machine after one CFG from reset. -/
def configured (i : Instr) (p : Bundle) : State := nextOf (exec i (presented p))

/-- CRC-8 on N8, table-free (30_encoding.md R62, second row). -/
def crc8 : State := configured (.cfg 8 .build .none false false .n8) (constants 7 0 0)

/-- CRC-32 on N32, table-free (95_test_vectors.md section 10, program 1, with tmode 0). -/
def crc32 : State :=
  configured (.cfg 32 .build .none true true .n32) (constants 0x04C11DB7 0xFFFFFFFF 0xFFFFFFFF)

/-- CRC-8 on N8 with the built 256-entry table. -/
def crc8T256 : State := configured (.cfg 8 .build .t256 false false .n8) (constants 7 0 0)

/-- CRC-40/GSM on S16: three limbs, padding 8 (95_test_vectors.md section 8). -/
def gsm : State := configured (.cfg 40 .build .none false false .s16) (constants 0x0004820009 0 0xFFFFFFFFFF)

/-- CRC-82/DARC on D128 (95_test_vectors.md section 10, program 3, with tmode 0). -/
def darc : State := configured (.cfg 82 .build .none true true .d128) (constants 0x0308C0111011401440411 0 0)

/-- "123456789" at address `base` (95_test_vectors.md, M9). -/
def m9At (base : Nat) : Memory := (List.range 9).map fun k => (base + k, BitVec.ofNat 8 (0x31 + k))

/-- The payload-free successful response (30_encoding.md R59). -/
def okNone : Response := { status := .ok, payload := .none }

/-! ### Well-formedness: the one combination that no word encodes (30_encoding.md R51, R57) -/

theorem test_wf_refuses_explicit_without_table :
    (Instr.cfg 32 .explicit .none true true .n32).wf = false := by decide

theorem test_wf_accepts_explicit_with_table :
    (Instr.cfg 32 .explicit .t256 true true .n32).wf = true := by decide

/-- The same combination written as a word: cw[12] = 1, cw[11:10] = 0 (30_encoding.md R62, last rows). -/
theorem test_decode_refuses_explicit_without_table :
    decode 0b0000000000100000_000_1_00_1_1_0010_0001 = .error .explicitWithoutTable := by decide

/-! ### Decoding, each word written bit by bit from the formats of 30_encoding.md R47 -/

/-- width 82, rsv 0, tsrc 1, tmode 1, refout 1, refin 1, shape 8, opcode 1. -/
theorem test_decode_cfg :
    decode 0b0000000001010010_000_1_01_1_1_1000_0001 = .ok (.cfg 82 .explicit .t256 true true .d128) := by decide

/-- width 8, rsv 0, tsrc 0, tmode 2, refout 1, refin 0, shape 5, opcode 1. -/
theorem test_decode_cfg_refout_only :
    decode 0b0000000000001000_000_0_10_1_0_0101_0001 = .ok (.cfg 8 .build .t4096 true false .s16) := by decide

/-- rsv 0, byte 0x31, rsv 0, opcode 2. -/
theorem test_decode_upd : decode 0b0000000000000000_00110001_0000_0010 = .ok (.upd 0x31) := by decide

theorem test_decode_updb : decode 0b0000000000000000000000000000_0011 = .ok .updb := by decide

theorem test_decode_fin : decode 0b0000000000000000000000000000_0100 = .ok .fin := by decide

theorem test_decode_rst : decode 0b0000000000000000000000000000_0101 = .ok .rst := by decide

/-- rsv 0, bw 2, opcode 6. -/
theorem test_decode_refl : decode 0b00000000000000000000000000_10_0110 = .ok (.refl .w32) := by decide

/-- count 3, rsv 0, lb 1, opcode 7. -/
theorem test_decode_reflm : decode 0b0000000000000011_0000000000_01_0111 = .ok (.reflm 3 .w16) := by decide

theorem test_decode_tclone : decode 0b0000000000000000000000000000_1000 = .ok .tclone := by decide

/-- 30_encoding.md R57, 95_test_vectors.md F8 to F14: each kind of illegal word by its name. -/
theorem test_decode_illegal_words :
    decode 0x00000000 = .error .reservedOpcode ∧ decode 0x00000009 = .error .reservedOpcode ∧
    decode 0x0000000F = .error .reservedOpcode ∧ decode 0x00000014 = .error .reservedBit ∧
    decode 0x00013102 = .error .reservedBit ∧ decode 0x80000003 = .error .reservedBit ∧
    decode 0x00000046 = .error .reservedBit ∧ decode 0x00000047 = .error .reservedBit ∧
    decode 0x00202001 = .error .reservedBit ∧ decode 0x00200F21 = .error .reservedTmode ∧
    decode 0x00000091 = .error .reservedShape := by decide

/-- The host's numbering: one 32-bit word; bits above the row's bits are zero. -/
theorem test_decode_table_word :
    decodeTableWord 32 0x00003102 = some (.upd 0x31) ∧ decodeTableWord 8 0x26 = some (.refl .w32) ∧
    decodeTableWord 32 0x00000014 = none := by decide

/-! ### One step per command -/

/-- 95_test_vectors.md section 10, program 1, row 1 (table-free): the registers CFG leaves. -/
theorem test_cfg_crc32_registers :
    crc32.eng =
      { status := .accumulating, err := .ok, shape := .n32, l := 32, nl := 1, s := 32, width := 32, moves := 0,
        refin := true, refout := true, tmode := .none, polyP := 0xEDB88320, initP := 0xFFFFFFFF,
        xoroutP := 0xFFFFFFFF, cklen := 4, withTable := false, reg := 0xFFFFFFFF, table := [] } := by
  decide

/-- 95_test_vectors.md sections 3, 5: CRC-5/EPC on N8 (padding 3) builds T[1] = 0x48, T[2] = 0x90, T[0x80] = 0xF0,
T[0xFF] = 0x98. -/
theorem test_cfg_builds_table :
    (let e := (configured (.cfg 5 .build .t256 false false .n8) (constants 9 9 0)).eng
     (e.moves, e.polyP, e.table.length, tableAt e.table 1, tableAt e.table 2, tableAt e.table 0x80,
       tableAt e.table 0xFF)) = (3, 0x48, 256, 0x48, 0x90, 0xF0, 0x98) := by
  decide +kernel

/-- 44_engine_native.md R102: `UPD 0x31` on CRC-8 leaves REG = 0x97. -/
theorem test_upd_crc8 : regOf (exec (.upd 0x31) crc8) = some 0x97 := by decide

/-- 95_test_vectors.md section 8: GSM on S16 after 0x31 holds the limbs [00DC, E201, B900]. -/
theorem test_upd_sharded :
    (regOf (exec (.upd 0x31) gsm)).map (limbsOf 16 3) = some [0x00DC, 0xE201, 0xB900] := by decide

/-- 44_engine_native.md R104: UPDB over M9 in two operands, base 0xFF0 and offset 0x10, leaves REG = 0x340BC6D9. -/
theorem test_updb_crc32 :
    regOf (exec .updb { crc32 with buf := m9At 0x1000, port := addresses 0xFF0 0x10 9 }) = some 0x340BC6D9 := by
  decide +kernel

/-- 20_memory.md R32: a range that ends one past the address space is refused as a whole. -/
theorem test_updb_overflow :
    refusalOf (exec .updb { crc32 with port := addresses 0xFFFFFFFF 1 1 }) = some .bufRangeOverflow := by
  decide

/-- 44_engine_native.md R107: CRC-32 after M9: FIN responds (32, 0xCBF43926) and reloads REG. -/
theorem test_fin_crc32 :
    (let o := exec .fin { crc32 with eng := { crc32.eng with reg := 0x340BC6D9 } }
     (answerOf o, regOf o)) =
      (some { status := .ok, payload := .result 32 0xCBF43926 }, some 0xFFFFFFFF) := by decide

/-- 95_test_vectors.md section 8: GSM on S16, REG [2BE9, B039, B900] finalizes to 0xD4164FC646. -/
theorem test_fin_sharded :
    answerOf (exec .fin { gsm with eng := { gsm.eng with reg := 0x2BE9B039B900 } }) =
      some { status := .ok, payload := .result 40 0xD4164FC646 } := by decide

/-- 95_test_vectors.md section 10, program 1, row 14: RST discards a partial session. -/
theorem test_rst_crc32 :
    (engineOf (exec .rst { crc32 with eng := { crc32.eng with reg := 0x7C231048 } })) = some crc32.eng := by
  decide

/-- 95_test_vectors.md section 2: `REFL 32, 0x04C11DB7` responds 0xEDB88320, in STATE 0. -/
theorem test_refl_32 :
    answerOf (exec (.refl .w32) (presented { Bundle.zero with opA := 0x04C11DB7 })) =
      some { status := .ok, payload := .scalar .w32 0xEDB88320 } := by decide

/-- 95_test_vectors.md section 2: `REFL 8, 0xFFFFFFFFFFFFFF01` ignores the high bits. -/
theorem test_refl_8_ignores_high_bits :
    answerOf (exec (.refl .w8) (presented { Bundle.zero with opA := 0xFFFFFFFFFFFFFF01 })) =
      some { status := .ok, payload := .scalar .w8 0x80 } := by decide

/-- 95_test_vectors.md section 2: `REFLM 8, [1, 2, 3]` responds [0xC0, 0x40, 0x80]. -/
theorem test_reflm_8 :
    answerOf (exec (.reflm 3 .w8) (presented { Bundle.zero with opLimbs := [1, 2, 3] })) =
      some { status := .ok, payload := .limbs .w8 [0xC0, 0x40, 0x80] } := by decide

/-- 95_test_vectors.md section 2: three limbs of 32 bits. -/
theorem test_reflm_32 :
    answerOf (exec (.reflm 3 .w32) (presented { Bundle.zero with opLimbs := [0x04C11DB7, 0, 0xFFFFFFFF] })) =
      some { status := .ok, payload := .limbs .w32 [0xFFFFFFFF, 0, 0xEDB88320] } := by decide

/-- 95_test_vectors.md section 10, program 3, row 8: with tmode 0, TCLONE responds (0, []). -/
theorem test_tclone_none :
    answerOf (exec .tclone darc) = some { status := .ok, payload := .table .none [] } := by decide

/-- 43_tablebuilder.md R94: with a table the response carries all of it; entry 1 of CRC-8's is 0x07, entry 0xFF is 0xF3. -/
theorem test_tclone_t256 :
    (match (answerOf (exec .tclone crc8T256)).map Response.payload with
     | some (.table tmode entries) => some (tmode, entries.length, tableAt entries 1, tableAt entries 0xFF)
     | _ => none) = some (.t256, 256, 0x07, 0xF3) := by decide +kernel

/-! ### The step -/

/-- 95_test_vectors.md F1: from POR, `UPD 0x31` is answered NOT_CONFIGURED. -/
theorem test_step_upd_from_reset :
    (let o := step (State.reset.withFetchWord 32 0x00003102)
     (answerOf o, (engineOf o).map Engine.err)) =
      (some { status := .notConfigured, payload := .none }, some .notConfigured) := by decide

/-- 95_test_vectors.md F13: word 0x00000091 is ILLEGAL_COMMAND, not INVALID_PARAMETER. -/
theorem test_step_illegal_before_parameter :
    answerOf (step (queued (.command 0x00000091 Bundle.zero []))) =
      some { status := .illegalCommand, payload := .none } := by decide

/-- 95_test_vectors.md F4: `CFG N8, w=9` is INVALID_PARAMETER. -/
theorem test_step_invalid_parameter :
    answerOf (step (queued (.command 0x00090001 (constants 7 0 0) []))) =
      some { status := .invalidParameter, payload := .none } := by decide

/-- 95_test_vectors.md F18: an operand with a bit at position `width` is refused. -/
theorem test_step_operand_above_width :
    refusalOf (step (queued (.command 0x00080441 (constants 0x107 0 0) []))) = some .operandAboveWidth := by
  decide

/-- 10_state.md R24: the seven registers the host reads after CRC-32's CFG (95_test_vectors.md program 1, tmode 0). -/
theorem test_host_read :
    (List.range 8).map (fun n => hostRead n crc32) =
      [some 1, some 0, some 32, some 4, some 0, some 2, some 3, none] := by decide

/-- 48_required_properties.md R174: the textbook definition gives CRC-8's check value 0xF4 over M9. -/
theorem test_textbook_crc8 :
    textbookCrc 8 7 0 false false 0 ((List.range 9).map (0x31 + ·)) = 0xF4 := by decide +kernel

/-! ### Witnesses: for each statement with hypotheses, concrete inputs that meet all of them together -/

/-- CFG CRC-8 with an explicit table of 256 zeros. -/
def explicitBundle : Bundle := { constants 7 0 0 with opTable := List.replicate 256 0 }

/-- A machine with BUF "123456789" at 0x1000 and the range of it at the port. -/
def crc32WithRange : State := { crc32 with buf := m9At 0x1000, port := addresses 0xFF0 0x10 9 }

theorem crc8_coherent : crc8.eng.Coherent 65535 :=
  ⟨by decide, by decide, by decide, by decide, by decide, by decide,
    by decide, by decide, by decide⟩

theorem crc8T256_coherent : crc8T256.eng.Coherent 65535 :=
  ⟨by decide, by decide, by decide, by decide +kernel, by decide +kernel, by decide,
    by decide, by decide, by decide⟩

theorem gsm_coherent : gsm.eng.Coherent 65535 :=
  ⟨by decide, by decide, by decide, by decide, by decide, by decide,
    by decide, by decide, by decide⟩

theorem darc_coherent : darc.eng.Coherent 65535 :=
  ⟨by decide, by decide, by decide, by decide, by decide, by decide,
    by decide, by decide, by decide⟩

theorem crc32WithRange_coherent : crc32WithRange.eng.Coherent 65535 :=
  ⟨by decide, by decide, by decide, by decide, by decide, by decide,
    by decide, by decide, by decide⟩

theorem crc32WithRange_inv : crc32WithRange.Inv :=
  ⟨⟨by decide, by decide, by decide⟩, by decide, by decide,
    fun _ => crc32WithRange_coherent⟩

theorem reset_inv : State.reset.Inv :=
  ⟨⟨by decide, by decide, by decide⟩, by decide, by decide, fun h => absurd h (by decide)⟩

theorem witness_DecodeEncodeRoundTrip :
    (Instr.cfg 0xFFFF .explicit .t4096 true true .d128).wf = true ∧ (Instr.reflm 0xFFFF .w64).wf = true := by decide

theorem witness_EncodeDecodeRoundTrip :
    ∃ (cw : Word) (i : Instr), decode cw = .ok i := ⟨0x00521781, .cfg 82 .explicit .t256 true true .d128, by decide⟩

/-- Each clause of R57: opcode 0, 9 and 15; a set reserved bit in formats Z, C, U, R, M; shape 9; tmode 3; tsrc 1 with
tmode 0. And the legal neighbours of three of them. -/
theorem witness_IllegalWordsFault :
    (wordIllegal 0x00000000 ∧ wordIllegal 0x00000009 ∧ wordIllegal 0x0000000F ∧ wordIllegal 0x00000013 ∧
      wordIllegal 0x00082001 ∧ wordIllegal 0x00010002 ∧ wordIllegal 0x00000012 ∧ wordIllegal 0x00000046 ∧
      wordIllegal 0x00000047 ∧ wordIllegal 0x00080091 ∧ wordIllegal 0x00080C01 ∧ wordIllegal 0x00081001) ∧
    (¬ wordIllegal 0x00400081 ∧ ¬ wordIllegal 0x00080801 ∧ ¬ wordIllegal 0x00081401) ∧
    (queued (.command 0x00000000 Bundle.zero [])).inbox = .command 0x00000000 Bundle.zero [] :: [] := by
  refine ⟨⟨?_, ?_, ?_, ?_, ?_, ?_, ?_, ?_, ?_, ?_, ?_, ?_⟩, ⟨?_, ?_, ?_⟩, rfl⟩ <;> (unfold wordIllegal; dsimp only; decide)

theorem witness_StepRunsIssuedCommand :
    (∃ (s : State) (cw : Word) (p : Bundle) (i : Instr), s.inbox = [.command cw p []] ∧ decode cw = .ok i) ∧
    State.reset.inbox = [] :=
  ⟨⟨queued (.command 0x00003102 Bundle.zero []), 0x00003102, Bundle.zero, .upd 0x31, rfl, by decide⟩, rfl⟩

/-- Writes of the first and the last byte of a UPDB's range; writes just outside it, and of the last byte of the address
space. -/
theorem witness_WritesDuringCommand :
    (let ws : List Host.Cell := [(0x1000, 0), (0x1008, 0xFF)]
     (queued (.command 0x00000003 (addresses 0x1000 0 9) ws)).inbox =
        [.command 0x00000003 (addresses 0x1000 0 9) ws] ∧
      ∀ w ∈ ws, w.1 < 2 ^ State.reset.plat.addrBits) ∧
    (let ws : List Host.Cell := [(0x0FFF, 0), (0x1009, 0), (0xFFFFFFFF, 0)]
     (∀ w ∈ ws, w.1 < 2 ^ State.reset.plat.addrBits) ∧ ∀ w ∈ ws, w.1 < 0x1000 + 0 ∨ 0x1000 + 0 + 9 ≤ w.1) ∧
    decode 0x00000003 = .ok .updb := by decide

theorem witness_HostWriteChangesOneByte :
    (queued (.bufWrite 0xFFFFFFFF 1)).inbox = [.bufWrite 0xFFFFFFFF 1] ∧
    0xFFFFFFFF < 2 ^ (queued (.bufWrite 0xFFFFFFFF 1)).plat.addrBits ∧
    2 ^ (queued (.bufWrite 0x100000000 1)).plat.addrBits ≤ 0x100000000 := by decide

theorem witness_PowerOnResetUnconfigures : (queued .por).inbox = .por :: [] := rfl

/-- Each of the three faults. -/
theorem witness_FaultWritesOnlyErr :
    ∀ cw : Word, cw = 0x00000014 ∨ cw = 0x00000004 ∨ cw = 0x00090001 →
      ∃ t r, step (queued (.command cw Bundle.zero [])) = .next t ∧ t.responses = r :: State.reset.responses ∧
        r.status ≠ .ok := by
  rintro cw (rfl | rfl | rfl) <;> exact ⟨_, _, rfl, rfl, by decide⟩

theorem witness_ExactlyOneResponse :
    (∃ t, exec .fin State.reset = .next t) ∧ (∃ t, exec (.refl .w8) State.reset = .next t) := ⟨⟨_, rfl⟩, ⟨_, rfl⟩⟩

/-- A faulting command, a successful one that is not CFG, a CFG, and POR. -/
theorem witness_ErrIsSticky :
    (∃ t r, step (queued (.command 0x00000004 Bundle.zero [])) = .next t ∧ t.responses = r :: State.reset.responses ∧
      r.status ≠ .ok) ∧
    (∃ t r, step (queued (.command 0x00000006 Bundle.zero [])) = .next t ∧ t.responses = r :: State.reset.responses ∧
      r.status = .ok) ∧
    (∃ t r, step (queued (.command 0x00080001 (constants 7 0 0) [])) = .next t ∧
      t.responses = r :: State.reset.responses ∧ r.status = .ok) ∧
    (∃ t, step (queued .por) = .next t) :=
  ⟨⟨_, _, rfl, rfl, by decide⟩, ⟨_, _, rfl, rfl, rfl⟩, ⟨_, _, rfl, rfl, rfl⟩, ⟨_, rfl⟩⟩

theorem witness_NotConfiguredExactly :
    State.reset.eng.status = .unconfigured ∧
    ∃ t r, exec .tclone State.reset = .next t ∧ t.responses = r :: State.reset.responses ∧ r.status = .notConfigured :=
  ⟨rfl, _, _, rfl, rfl, rfl⟩

/-- The widths at both ends of the legal range, and their illegal neighbours, native, sharded and two-limb. -/
theorem witness_InvalidParameterExactly :
    (Instr.cfg 9 .explicit .t256 false false .n8).wf = true ∧
    widthIllegal 65535 .n8 0 = true ∧ widthIllegal 65535 .n8 1 = false ∧ widthIllegal 65535 .n8 8 = false ∧
    widthIllegal 65535 .n8 9 = true ∧ widthIllegal 128 .s8 128 = false ∧ widthIllegal 128 .s8 129 = true ∧
    widthIllegal 65535 .d128 64 = true ∧ widthIllegal 65535 .d128 65 = false ∧
    widthIllegal 65535 .d128 128 = false ∧ widthIllegal 65535 .d128 129 = true ∧
    (operandsBelowWidth 8 explicitBundle = true ∧
      ∃ g, geometry 65535 .n8 8 = some g ∧ presentableList (tableCount .t256) g.s explicitBundle.opTable = true) ∧
    (answerOf (exec (.cfg 9 .build .none false false .n8) State.reset) =
      some { status := .invalidParameter, payload := .none }) := by
  refine ⟨by decide, by decide, by decide, by decide, by decide, by decide, by decide, by decide, by decide, by decide,
    by decide, ⟨by decide, _, rfl, by decide +kernel⟩, by decide⟩

/-- A word that meets each fault first, one that completes, one that is refused. -/
theorem witness_FaultPriority :
    faultOf 65535 .unconfigured 0x00013102 = .illegalCommand ∧ faultOf 65535 .unconfigured 0x00003102 = .notConfigured ∧
    faultOf 65535 .unconfigured 0x00090001 = .invalidParameter ∧
    (∃ t, step (queued (.command 0x00000006 Bundle.zero [])) = .next t) ∧
    refusalOf (step (queued (.command 0x00080001 (constants 0x107 0 0) []))) = some .operandAboveWidth := by
  refine ⟨by decide, by decide, by decide, ⟨_, rfl⟩, by decide⟩

/-- The statement has no hypothesis; each of its refusals happens, at the boundary. -/
theorem witness_RefusalsExactly :
    refusalOf (exec (.cfg 8 .build .none false false .n8) (presented (constants 0x100 0 0))) = some .operandAboveWidth ∧
    refusalOf (exec .updb { crc8 with port := addresses 0xFFFFFFFF 0 2 }) = some .bufRangeOverflow ∧
    refusalOf (exec .updb { crc8 with
      port := addresses 0xFF 0 2
      plat := { crc8.plat with readable := [{ base := 0, size := 0x100 }] } }) = some .bufNotReadable := by
  decide

/-- CRC-8 with an explicit table, and the largest width of N8, S8 (at MAX_WIDTH) and D128. -/
theorem witness_CfgCommitsInstance :
    (∃ g, (Instr.cfg 8 .explicit .t256 false false .n8).wf = true ∧
      geometry State.reset.plat.maxWidth .n8 8 = some g ∧ operandsBelowWidth 8 explicitBundle = true ∧
      presentableList (tableCount .t256) g.s explicitBundle.opTable = true) ∧
    (∃ g, geometry 65535 .s8 65535 = some g) ∧ (∃ g, geometry 65535 .d128 128 = some g) :=
  ⟨⟨_, by decide, rfl, by decide, by decide +kernel⟩, ⟨_, rfl⟩, ⟨_, rfl⟩⟩

theorem witness_CfgBuildsSBitEngine :
    ∃ g, (Instr.cfg 82 .build .t4096 true true .s16).wf = true ∧
      geometry State.reset.plat.maxWidth .s16 82 = some g ∧
      operandsBelowWidth 82 (constants 0x0308C0111011401440411 0 (2 ^ 82 - 1)) = true :=
  ⟨_, by decide, rfl, by decide⟩

theorem witness_UpdAdvancesRegister : crc8.eng.status = .accumulating := by decide

/-- A range that ends with the last byte of the address space, and an empty range whose base lies at its end. -/
theorem witness_UpdbConsumesRange :
    (let s := { crc8 with port := addresses 0xFFFFFFFE 0 2 }
     s.eng.status = .accumulating ∧ addressesPresentable s = true ∧
      s.port.opBase + s.port.opOff + s.port.opLen ≤ 2 ^ s.plat.addrBits ∧
      ∀ k, k < s.port.opLen → s.plat.bufReadable (s.port.opBase + s.port.opOff + k) = true) ∧
    (let s := { crc8 with port := addresses 0xFFFFFFFF 0xFFFFFFFF 0 }
     s.eng.status = .accumulating ∧ addressesPresentable s = true ∧ s.port.opLen = 0) := by decide

/-- CRC-32, whose Finalize is below `2^32`; and width 5 on N8, refin = refout = 1, an explicit table of 0xFF (43_tablebuilder.md
R93), after `UPD 0`: the steps of 44_engine_native.md R108 give 0xFF, which is not below `2^5`, and FIN responds a number that
is. -/
theorem witness_FinDeliversAndReloads :
    (crc32.eng.status = .accumulating ∧ engineFinalize crc32.eng crc32.eng.reg < 2 ^ crc32.eng.width.toNat) ∧
    (let s := nextOf (exec (.upd 0) (configured (.cfg 5 .explicit .t256 true true .n8)
        { constants 5 0 0 with opTable := List.replicate 256 0xFF }))
     s.eng.status = .accumulating ∧ engineFinalize s.eng s.eng.reg = 0xFF ∧ s.eng.width = 5) := by decide +kernel

theorem witness_RstReloadsInit : gsm.eng.status = .accumulating := by decide

theorem witness_TcloneRespondsTable : darc.eng.status = .accumulating := by decide

theorem witness_ReflmRespondsMirror :
    (let s := presented { Bundle.zero with opLimbs := [1, 2, 255] }
     s.port.opLimbs.length = (3 : BitVec 16).toNat ∧ ∀ x ∈ s.port.opLimbs, x < 2 ^ limbBits .w8) ∧
    State.reset.port.opLimbs.length = (0 : BitVec 16).toNat := by decide

theorem witness_CommandFrames :
    (∃ t, exec (.refl .w64) State.reset = .next t) ∧ (∃ t, exec .tclone State.reset = .next t) ∧
    (∃ t, exec (.reflm 0 .w8) State.reset = .next t) ∧
    (∃ t r, exec .rst crc8 = .next t ∧ t.responses = r :: crc8.responses ∧ r.status = .ok) := by
  refine ⟨⟨_, rfl⟩, ⟨_, rfl⟩, ⟨_, rfl⟩, ?_⟩
  have hs : crc8.eng.status = .accumulating := by decide
  exact ⟨_, _, by simp only [exec, execRst, hs]; rfl, rfl, rfl⟩

theorem witness_ReflectMovesBits : 0 < 8 ∧ 7 < 8 := by decide

theorem witness_SwapNetworkReflects : 0xFF < 2 ^ limbBits .w8 ∧ 2 ^ 64 - 1 < 2 ^ limbBits .w64 := by decide

theorem witness_ReflectAlgebra : 0xFF < 2 ^ 8 ∧ 0x80 < 2 ^ 8 ∧ 8 ≤ 8 := by decide

theorem witness_LimbReverseMirrors : ∀ d ∈ [0, 0xFFFF, 0x1234], d < 2 ^ limbBits .w16 := by decide

/-- Both ends of the legal range of each kind (95_test_vectors.md section 3: N8 8 and 1, S8 82, D128 65 and 128). -/
theorem witness_GeometryIsLegal :
    geometry 65535 .n8 8 = some { l := 8, nl := 1, s := 8, moves := 0 } ∧
    geometry 65535 .n8 1 = some { l := 8, nl := 1, s := 8, moves := 7 } ∧
    geometry 65535 .s8 82 = some { l := 8, nl := 11, s := 88, moves := 6 } ∧
    geometry 65535 .s64 65 = some { l := 64, nl := 2, s := 128, moves := 63 } ∧
    geometry 65535 .d128 65 = some { l := 64, nl := 2, s := 128, moves := 63 } ∧
    geometry 65535 .d128 128 = some { l := 64, nl := 2, s := 128, moves := 0 } := by decide

theorem witness_ParseClosedForms :
    (1 ≤ 5 ∧ 5 ≤ 8 ∧ 0x1F < 2 ^ 5) ∧ (1 ≤ 8 ∧ 8 ≤ 8 ∧ 0xFF < 2 ^ 8) := by decide

theorem witness_LimbNormaliserAgrees :
    1 ≤ 82 ∧ 82 ≤ limbBits .w16 * 6 ∧ limbBits .w16 * 6 - 82 < limbBits .w16 ∧ 2 ^ 82 - 1 < 2 ^ 82 ∧
    2 ^ 96 - 1 < 2 ^ (limbBits .w16 * 6) := by decide

/-- A shift by 0, by 1 and by a whole limb. -/
theorem witness_LimbShiftLeftIsShl :
    0 ≤ 8 ∧ 1 ≤ 8 ∧ 8 ≤ 8 ∧ ∀ d ∈ [0x81, 0x42, 0x24], d < 2 ^ 8 := by decide

theorem witness_LimbShiftRightIsShr :
    0 ≤ 64 ∧ 64 ≤ 64 ∧ ∀ d ∈ [0x8000000000000001, 0x8000000000000001], d < 2 ^ 64 := by decide

theorem witness_LimbXorIsXor :
    [0xDCE2, 0x01B9, 0].length = [0x00D1, 0x6401, 0xA200].length ∧ (∀ d ∈ [0xDCE2, 0x01B9, 0], d < 2 ^ 16) ∧
    ∀ d ∈ [0x00D1, 0x6401, 0xA200], d < 2 ^ 16 := by decide

theorem witness_TableFixedEntries : 8 ≤ 8 ∧ 0xFF < 2 ^ 8 ∧ 1 ≤ 16 ∧ 255 < 256 := by decide

theorem witness_TableLinearAndChained : 8 ≤ 16 ∧ 0x1021 < 2 ^ 16 ∧ 15 < 16 ∧ 14 < 15 ∧ 255 < 256 := by decide

theorem witness_TableStepEqualsBitSerial : 8 ≤ 8 ∧ 0x07 < 2 ^ 8 ∧ 0xFF < 2 ^ 8 ∧ 255 < 256 := by decide

theorem witness_BlockEqualsSixteenByteSteps :
    8 ≤ 136 ∧ 136 % 8 = 0 ∧ 0x87 < 2 ^ 136 ∧ 2 ^ 136 - 1 < 2 ^ 136 ∧ (List.range 16).length = 16 ∧
    ∀ b ∈ List.range 16, b < 256 := by decide

/-- A native, a sharded and a two-limb engine. -/
theorem witness_EngineByteStepMeetsRule :
    (crc8.eng.Coherent 65535 ∧ 0xFF < 2 ^ crc8.eng.s) ∧ (gsm.eng.Coherent 65535 ∧ 2 ^ 48 - 1 < 2 ^ gsm.eng.s) ∧
    (darc.eng.Coherent 65535 ∧ 2 ^ 128 - 1 < 2 ^ darc.eng.s) ∧ 255 < 256 :=
  ⟨⟨crc8_coherent, by decide⟩, ⟨gsm_coherent, by decide⟩, ⟨darc_coherent, by decide⟩, by decide⟩

theorem witness_EngineBlockMeetsRule :
    (crc8T256.eng.Coherent 65535 ∧ 0xFF < 2 ^ crc8T256.eng.s) ∧ (gsm.eng.Coherent 65535 ∧ 5 < 2 ^ gsm.eng.s) ∧
    (darc.eng.Coherent 65535 ∧ 5 < 2 ^ darc.eng.s) ∧ (List.range 16).length = 16 ∧ ∀ b ∈ List.range 16, b < 256 :=
  ⟨⟨crc8T256_coherent, by decide⟩, ⟨gsm_coherent, by decide⟩, ⟨darc_coherent, by decide⟩,
    by decide, by decide⟩

theorem witness_EngineFinalizeMeetsRule :
    (crc8.eng.Coherent 65535 ∧ 0xFF < 2 ^ crc8.eng.s) ∧ (gsm.eng.Coherent 65535 ∧ 2 ^ 48 - 1 < 2 ^ gsm.eng.s) ∧
    (darc.eng.Coherent 65535 ∧ 2 ^ 128 - 1 < 2 ^ darc.eng.s) :=
  ⟨⟨crc8_coherent, by decide⟩, ⟨gsm_coherent, by decide⟩, ⟨darc_coherent, by decide⟩⟩

theorem witness_FinalizeFourCases :
    (1 ≤ 5 ∧ 5 ≤ 8 ∧ 0x1F < 2 ^ 5 ∧ 0 < 2 ^ 5) ∧ (1 ≤ 8 ∧ 8 ≤ 8 ∧ 0xFF < 2 ^ 8) := by decide

theorem witness_UpdbIsByteByByte :
    crc32WithRange.Inv ∧ crc32WithRange.eng.status = .accumulating ∧ crc32WithRange.eng.TableBuilt ∧
    addressesPresentable crc32WithRange = true ∧ rangeInside crc32WithRange = true ∧
    rangeReadable crc32WithRange = true :=
  ⟨crc32WithRange_inv, by decide, by unfold Engine.TableBuilt; decide, by decide,
    by decide, by decide⟩

/-- With a table, cut after the first of three bytes. -/
theorem witness_ChunkingInvariance :
    crc8T256.eng.Coherent 65535 ∧ crc8T256.eng.TableBuilt ∧ 0xFF < 2 ^ crc8T256.eng.s ∧
    ∀ b ∈ [0x31] ++ [0x32, 0xFF], b < 256 :=
  ⟨crc8T256_coherent, by unfold Engine.TableBuilt; decide +kernel, by decide, by decide⟩

theorem witness_TwoLimbEqualsSharded :
    ((Instr.cfg 65 .build .t4096 true false .d128).wf = true ∧ 64 < (65 : BitVec 16).toNat ∧
      (128 : BitVec 16).toNat ≤ 128 ∧ 128 ≤ State.reset.plat.maxWidth) ∧
    isCfg (.upd 0x31) = false ∧ darc.eng.Coherent darc.plat.maxWidth ∧ darc.eng.shape = .d128 :=
  ⟨by decide, by decide, by
    have h : darc.plat.maxWidth = 65535 := by decide
    rw [h]
    exact darc_coherent, by decide⟩

/-- CFG with CRC-8, then one byte. -/
theorem witness_FinAndRstRestoreConfiguredEngine :
    ∃ (s₀ s₁ : State), exec (.cfg 8 .build .none false false .n8) (presented (constants 7 0 0)) = .next s₀ ∧
      s₀.responses = { status := .ok, payload := .none } :: (presented (constants 7 0 0)).responses ∧
      (∀ c ∈ [(Instr.refl .w8, Bundle.zero), (Instr.reflm 0 .w8, Bundle.zero)], isCfg c.1 = false) ∧
      runCommands [(Instr.refl .w8, Bundle.zero), (Instr.reflm 0 .w8, Bundle.zero)] s₀ = .next s₁ :=
  ⟨_, _, rfl, rfl, by decide, rfl⟩

theorem witness_EmptySessionResult :
    ∃ s₀, exec (.cfg 8 .build .none false true .n8) (presented (constants 7 0xFF 0)) = .next s₀ ∧
      s₀.responses = { status := .ok, payload := .none } :: (presented (constants 7 0xFF 0)).responses :=
  ⟨_, rfl, rfl⟩

theorem witness_SessionRespondsCrc : gsm.eng.status = .accumulating ∧ gsm.eng.reg = gsm.eng.initP := by decide

theorem witness_AgreesWithTextbook :
    ∃ g, geometry 65535 .s32 82 = some g ∧
      operandsBelowWidth (82 : BitVec 16).toNat (constants 0x0308C0111011401440411 0 0) = true ∧
      ∀ b ∈ [0x31, 0, 0xFF], b < 256 := ⟨_, rfl, by decide, by decide⟩

theorem witness_ResultIndependentOfShapeAndTable :
    ∃ g g', geometry 65535 .d128 82 = some g ∧ geometry 65535 .s8 82 = some g' ∧
      operandsBelowWidth (82 : BitVec 16).toNat (constants 0x0308C0111011401440411 0 0) = true ∧
      ∀ b ∈ [0x31, 0, 0xFF], b < 256 := ⟨_, _, rfl, rfl, by decide, by decide⟩

theorem gsm_inv : gsm.Inv :=
  ⟨⟨by decide, by decide, by decide⟩, by decide, by decide, fun _ => by
    have h : gsm.plat.maxWidth = 65535 := by decide
    rw [h]
    exact gsm_coherent⟩

/-- refout = 0 (CRC-40/GSM); refout = 1 with zero padding (CRC-32 with a REG of all ones); refout = 1 with the built table. -/
theorem witness_FinResultBelowWidth :
    (gsm.Inv ∧ gsm.eng.status = .accumulating ∧ gsm.eng.refout = false) ∧
    (crc32WithRange.Inv ∧ crc32WithRange.eng.status = .accumulating ∧ crc32WithRange.eng.refout = true ∧
      crc32WithRange.eng.PaddingZero crc32WithRange.eng.reg ∧ crc32WithRange.PaddingInv ∧
      crc32WithRange.eng.TableBuilt) := by
  refine ⟨⟨gsm_inv, by decide, by decide⟩, crc32WithRange_inv, by decide, by decide, ?_, fun _ _ => ?_, ?_⟩
  · unfold Engine.PaddingZero
    decide
  · unfold Engine.PaddingZero
    decide
  · unfold Engine.TableBuilt
    decide

/-- The invariant holds of a configured machine whose next step runs a UPD. -/
theorem witness_StepKeepsInvariant :
    { crc32WithRange with inbox := [.command 0x00003102 Bundle.zero []] }.Inv ∧
    ∃ t, step { crc32WithRange with inbox := [.command 0x00003102 Bundle.zero []] } = .next t := by
  refine ⟨⟨crc32WithRange_inv.platform, crc32WithRange_inv.buf_wf, crc32WithRange_inv.buf_inside,
    crc32WithRange_inv.configured⟩, ?_⟩
  have hs : crc32WithRange.eng.status = .accumulating := by decide
  have hd : decode 0x00003102 = .ok (.upd 0x31) := by decide
  exact ⟨_, by simp only [step, serveNext, serveEvent, serveCommand, runWord, hd, exec, execUpd, hs]; rfl⟩

theorem witness_PaddingStaysZero :
    gsm.Inv ∧ gsm.PaddingInv ∧ gsm.eng.status = .accumulating ∧ gsm.eng.TableBuilt ∧ 0 < gsm.eng.moves ∧
    ∃ t, step gsm = .next t := by
  refine ⟨gsm_inv, fun _ _ => ?_, by decide, by unfold Engine.TableBuilt; decide, by decide, ⟨gsm, ?_⟩⟩
  · unfold Engine.PaddingZero
    decide
  · have h : gsm.inbox = [] := by decide
    simp only [step, serveNext, h]

/-- POR's engine beside another UNCONFIGURED one that differs in WIDTH, REG and TABLE. -/
theorem witness_UnspecifiedRegistersNeverMatter :
    State.reset.eng.status = .unconfigured ∧
    ({ Engine.reset with width := 8, reg := 0x55, table := [1] } : Engine).status = .unconfigured ∧
    ({ Engine.reset with width := 8, reg := 0x55, table := [1] } : Engine).err = State.reset.eng.err := by decide

/-- Two BUFs that differ outside the range only. -/
theorem witness_CommandsReadOnlyTheirRange :
    ∀ k, k < crc32WithRange.port.opLen →
      memRead { crc32WithRange with buf := m9At 0x1000 ++ [(0x1009, 0xFF)] }
        (crc32WithRange.port.opBase + crc32WithRange.port.opOff + k) =
      memRead crc32WithRange (crc32WithRange.port.opBase + crc32WithRange.port.opOff + k) := by
  have h : crc32WithRange.port.opLen = 9 := by decide
  rw [h]
  decide

theorem witness_HostReadsNumberedRegisters :
    State.reset.eng.status = .unconfigured ∧ crc32.eng.status = .accumulating ∧ 2 ≤ 2 ∧ 7 ≤ 7 := by decide

end Sys2Proof.Tests
end

section
/-! What one step does, read off the head of the host's queue (00_scope.md R6). -/

namespace Sys2Proof.Machine

variable {s : State}

/-- 60_exceptions.md R190: an idle engine changes nothing. -/
theorem step_of_inbox_nil (h : s.inbox = []) : step s = .next s := by
  simp only [step, serveNext, h]

theorem step_of_inbox_cons {ev : HostEvent} {rest : List HostEvent} (h : s.inbox = ev :: rest) :
    step s = serveEvent ev { s with inbox := rest } := by
  simp only [step, serveNext, h]

theorem runWord_of_decode_ok {cw : Word} {i : Instr} (h : decode cw = .ok i) : runWord cw s = exec i s := by
  simp only [runWord, h]

@[simp] theorem serveEvent_command_nil (cw : Word) (p : Bundle) :
    serveEvent (.command cw p []) s = runWord cw { s with port := p } := rfl

/-- Settles O5: the head of the queue selects the event, and the word's decoding selects the command. -/
theorem stepRunsIssuedCommand : Obligations.StepRunsIssuedCommand := by
  intro s
  refine ⟨fun cw p rest i hin hdec => ?_, step_of_inbox_nil⟩
  calc step s
      = serveEvent (.command cw p []) { s with inbox := rest } := step_of_inbox_cons hin
    _ = runWord cw { s with port := p, inbox := rest } := serveEvent_command_nil cw p
    _ = exec i { s with port := p, inbox := rest } := runWord_of_decode_ok hdec

end Sys2Proof.Machine
end

section
/-! S-bit vectors bit by bit (00_scope.md R7), and the scalar reflector: the swap network of 41_bitreflector.md R67 moves the
bits its contract R66 moves. -/

namespace Sys2Proof.Machine

@[simp] theorem testBit_slice (v lo len i : Nat) :
    (slice v lo len).testBit i = (decide (i < len) && v.testBit (lo + i)) := by
  simp [slice, Nat.testBit_mod_two_pow, Nat.testBit_div_two_pow, Nat.add_comm]

@[simp] theorem testBit_shl (S v k i : Nat) :
    (shl S v k).testBit i = (decide (i < S) && (decide (k ≤ i) && v.testBit (i - k))) := by
  simp [shl, Nat.testBit_mod_two_pow, Nat.testBit_mul_two_pow]

@[simp] theorem testBit_shr (v k i : Nat) : (shr v k).testBit i = v.testBit (i + k) := by
  simp [shr, Nat.testBit_div_two_pow]

/-- R66: bit `i` of the mirror is bit `w-1-i` of the operand. -/
@[simp] theorem testBit_reflect (w v i : Nat) :
    (reflect w v).testBit i = (decide (i < w) && v.testBit (w - 1 - i)) := by
  induction w generalizing v i with
  | zero => simp [reflect]
  | succ w ih =>
    rw [reflect, Nat.mul_comm, Nat.testBit_two_pow_mul_add _ (reflect_lt w _), ih]
    split
    · rename_i h
      have hi : w + 1 - 1 - i = (w - 1 - i) + 1 := by omega
      rw [hi, Nat.testBit_succ]
      simp [h, show i < w + 1 by omega]
    · rename_i h
      by_cases hi : i = w
      · subst hi
        simp [Nat.testBit_zero]
      · have hlt : v % 2 < 2 ^ (i - w) :=
          lt_of_lt_of_le (Nat.mod_lt _ (by decide)) (Nat.le_self_pow (by omega) 2)
        simp [Nat.testBit_lt_two_pow hlt, show ¬ i < w + 1 by omega]

/-- Each mask of the swap network selects the lower group of every pair of groups. -/
theorem swapMasks_select : ∀ gm ∈ swapMasks, ∀ i < 64,
    if gm.2.testBit i then i ^^^ gm.1 = i + gm.1 ∧ (gm.1 ≤ i → gm.2.testBit (i - gm.1) = false)
    else gm.1 ≤ i ∧ gm.2.testBit (i - gm.1) = true ∧ i ^^^ gm.1 = i - gm.1 := by
  decide +kernel

theorem swapStage_lt (w v : Nat) (gm : Nat × Nat) : swapStage w v gm < 2 ^ w :=
  Nat.or_lt_two_pow (Nat.and_lt_two_pow _ (Nat.mod_lt _ (Nat.two_pow_pos w))) (shl_lt _ _ _)

/-- R67: a stage with groups of `g` bits exchanges bit `i` with bit `i ^ g`. -/
theorem testBit_swapStage {w i : Nat} {gm : Nat × Nat} (v : Nat) (hgm : gm ∈ swapMasks) (hw : w ≤ 64) (hi : i < w) :
    (swapStage w v gm).testBit i = v.testBit (i ^^^ gm.1) := by
  have hsel := swapMasks_select gm hgm i (by omega)
  cases hm : gm.2.testBit i with
  | true =>
    obtain ⟨hx, hlow⟩ : i ^^^ gm.1 = i + gm.1 ∧ (gm.1 ≤ i → gm.2.testBit (i - gm.1) = false) := by
      simpa [hm] using hsel
    by_cases hg : gm.1 ≤ i
    · simp [swapStage, Nat.testBit_mod_two_pow, hi, hm, hx, hlow hg]
    · simp [swapStage, Nat.testBit_mod_two_pow, hi, hm, hx, hg]
  | false =>
    obtain ⟨hg, hlow, hx⟩ : gm.1 ≤ i ∧ gm.2.testBit (i - gm.1) = true ∧ i ^^^ gm.1 = i - gm.1 := by
      simpa [hm] using hsel
    simp [swapStage, Nat.testBit_mod_two_pow, hi, hm, hx, hg, hlow, show i - gm.1 < w by omega]

/-- The stages of the network compose: each moves the bit by its own group size. -/
theorem testBit_swapStages {k i : Nat} {stages : List (Nat × Nat)} (v : Nat) (hk : 2 ^ k ≤ 64) (hi : i < 2 ^ k)
    (hst : ∀ gm ∈ stages, gm ∈ swapMasks ∧ gm.1 < 2 ^ k) :
    (stages.foldl (swapStage (2 ^ k)) v).testBit i = v.testBit (stages.foldr (fun gm j => j ^^^ gm.1) i) ∧
      stages.foldr (fun gm j => j ^^^ gm.1) i < 2 ^ k := by
  induction stages generalizing v with
  | nil => exact ⟨rfl, hi⟩
  | cons gm rest ih =>
    obtain ⟨hgm, hlt⟩ := hst gm (by simp)
    obtain ⟨hbit, hb⟩ := ih (swapStage (2 ^ k) v gm) fun x hx => hst x (by simp [hx])
    exact ⟨hbit.trans (testBit_swapStage v hgm hk hb), Nat.xor_lt_two_pow hb hlt⟩

theorem swapStages_lt {w v : Nat} (stages : List (Nat × Nat)) (hv : v < 2 ^ w) :
    stages.foldl (swapStage w) v < 2 ^ w := by
  induction stages generalizing v with
  | nil => exact hv
  | cons gm rest ih => exact ih (swapStage_lt w v gm)

/-- R67: where the stages of a width of `2^k` bits send bit `i` to bit `w-1-i`, the swap network is the mirror. -/
theorem reflectSwap_two_pow {k v : Nat} (hk : 2 ^ k ≤ 64) (hv : v < 2 ^ 2 ^ k)
    (hmirror : ∀ i < 2 ^ k,
      (swapMasks.filter fun gm => gm.1 < 2 ^ k).foldr (fun gm j => j ^^^ gm.1) i = 2 ^ k - 1 - i) :
    reflectSwap (2 ^ k) v = reflect (2 ^ k) v := by
  apply Nat.eq_of_testBit_eq
  intro i
  by_cases hi : i < 2 ^ k
  · have hst : ∀ gm ∈ swapMasks.filter fun gm => gm.1 < 2 ^ k, gm ∈ swapMasks ∧ gm.1 < 2 ^ k := by simp
    rw [reflectSwap, (testBit_swapStages v hk hi hst).1, hmirror i hi, testBit_reflect]
    simp [hi]
  · have hlt : reflectSwap (2 ^ k) v < 2 ^ i :=
      lt_of_lt_of_le (swapStages_lt _ hv) (Nat.pow_le_pow_right (by decide) (by omega))
    simp [Nat.testBit_lt_two_pow hlt, hi]

/-- The limb widths, and the widths of the native registers. -/
def IsLimbBits (L : Nat) : Prop := L = 8 ∨ L = 16 ∨ L = 32 ∨ L = 64

theorem isLimbBits_shapeLimbBits (shape : Shape) : IsLimbBits (shapeLimbBits shape) := by
  cases shape <;> simp [IsLimbBits, shapeLimbBits]

theorem IsLimbBits.eight_le {L : Nat} (h : IsLimbBits L) : 8 ≤ L := by
  unfold IsLimbBits at h
  omega

theorem IsLimbBits.dvd_eight {L : Nat} (h : IsLimbBits L) : 8 ∣ L := by
  unfold IsLimbBits at h
  omega

/-- R67: the swap network computes the mirror at every width the engine has it for. -/
theorem reflectSwap_eq_reflect {L v : Nat} (hL : IsLimbBits L) (hv : v < 2 ^ L) : reflectSwap L v = reflect L v := by
  obtain rfl | rfl | rfl | rfl := hL
  · exact reflectSwap_two_pow (k := 3) (by decide) hv (by decide)
  · exact reflectSwap_two_pow (k := 4) (by decide) hv (by decide)
  · exact reflectSwap_two_pow (k := 5) (by decide) hv (by decide)
  · exact reflectSwap_two_pow (k := 6) (by decide) hv (by decide +kernel)

end Sys2Proof.Machine
end

section
/-! Limb arrays of one S-bit vector: each limb operation of 45_engine_sharded.md is the S-bit operation seen through the limb
view `limbsOf L n` (R135). -/

namespace Sys2Proof.Machine

/-! ### One limb of the result of an S-bit operation -/

theorem slice_xor (a b lo L : Nat) : slice (a ^^^ b) lo L = slice a lo L ^^^ slice b lo L := by
  apply Nat.eq_of_testBit_eq
  intro i
  by_cases hi : i < L <;> simp [hi]

theorem slice_mod_of_le {v lo L S : Nat} (h : lo + L ≤ S) : slice (v % 2 ^ S) lo L = slice v lo L := by
  apply Nat.eq_of_testBit_eq
  intro i
  by_cases hi : i < L <;> simp [hi, Nat.testBit_mod_two_pow, show i < L → lo + i < S by omega]

/-- R126: the lowest limb of a left shift. -/
theorem slice_mul_zero (v k L : Nat) : slice (v * 2 ^ k) 0 L = slice v 0 L * 2 ^ k % 2 ^ L := by
  simp [slice, Nat.mod_mul_mod]

/-- R126: every other limb of a left shift takes the top bits of the limb below it. -/
theorem slice_mul_add {k L : Nat} (v lo : Nat) (hk : k ≤ L) :
    slice (v * 2 ^ k) (lo + L) L = slice v (lo + L) L * 2 ^ k % 2 ^ L ||| slice v lo L / 2 ^ (L - k) := by
  apply Nat.eq_of_testBit_eq
  intro i
  by_cases hi : i < L
  · by_cases hki : k ≤ i
    · simp [Nat.testBit_mul_two_pow, Nat.testBit_mod_two_pow, Nat.testBit_div_two_pow, hi, hki,
        show k ≤ lo + L + i by omega, show i - k < L by omega, show ¬ i + (L - k) < L by omega,
        show lo + L + i - k = lo + L + (i - k) by omega]
    · simp [Nat.testBit_mul_two_pow, Nat.testBit_mod_two_pow, Nat.testBit_div_two_pow, hi, hki,
        show k ≤ lo + L + i by omega, show i + (L - k) < L by omega,
        show lo + L + i - k = lo + (i + (L - k)) by omega]
  · simp [Nat.testBit_mod_two_pow, Nat.testBit_div_two_pow, hi, show ¬ i + (L - k) < L by omega]

/-- R127: a limb of a right shift takes the bottom bits of the limb above it. -/
theorem slice_div {k L : Nat} (v lo : Nat) (hk : k ≤ L) :
    slice (v / 2 ^ k) lo L = slice v lo L / 2 ^ k ||| slice v (lo + L) L * 2 ^ (L - k) % 2 ^ L := by
  apply Nat.eq_of_testBit_eq
  intro i
  by_cases hi : i < L
  · by_cases hki : i + k < L
    · simp [Nat.testBit_mul_two_pow, Nat.testBit_mod_two_pow, Nat.testBit_div_two_pow, hi, hki,
        show ¬ L - k ≤ i by omega, Nat.add_assoc]
    · simp [Nat.testBit_mul_two_pow, Nat.testBit_mod_two_pow, Nat.testBit_div_two_pow, hi, hki,
        show L - k ≤ i by omega, show i - (L - k) < L by omega,
        show lo + L + (i - (L - k)) = lo + i + k by omega]
  · simp [Nat.testBit_mod_two_pow, Nat.testBit_div_two_pow, hi, show ¬ i + k < L by omega]

/-- R69: a limb of the mirror is the mirror of the opposite limb. -/
theorem slice_reflect {w lo L : Nat} (v : Nat) (h : lo + L ≤ w) :
    slice (reflect w v) lo L = reflect L (slice v (w - lo - L) L) := by
  apply Nat.eq_of_testBit_eq
  intro i
  by_cases hi : i < L
  · simp [hi, show lo + i < w by omega, show L - 1 - i < L by omega,
      show w - lo - L + (L - 1 - i) = w - 1 - (lo + i) by omega]
  · simp [hi]

theorem slice_of_lt {v L : Nat} (h : v < 2 ^ L) : slice v 0 L = v := by
  simp [slice, Nat.mod_eq_of_lt h]

theorem slice_eq_zero_of_lt {v lo L : Nat} (h : v < 2 ^ lo) : slice v lo L = 0 := by
  simp [slice, Nat.div_eq_of_lt h]

/-- The top bit of a limb is that bit of the vector. -/
theorem slice_div_top {v lo L : Nat} (hL : 1 ≤ L) :
    slice v lo L / 2 ^ (L - 1) = 1 ↔ v.testBit (lo + (L - 1)) = true := by
  have hbit : (slice v lo L).testBit (L - 1) = v.testBit (lo + (L - 1)) := by simp [show L - 1 < L by omega]
  have hlt : slice v lo L / 2 ^ (L - 1) < 2 := by
    rw [Nat.div_lt_iff_lt_mul (by positivity), ← Nat.pow_succ', show (L - 1).succ = L by omega]
    exact slice_lt v lo L
  rw [← hbit, Nat.testBit_eq_decide_div_mod_eq, decide_eq_true_eq, Nat.mod_eq_of_lt hlt]

/-! ### The limb view -/

theorem limbsOf_succ (L n v : Nat) : limbsOf L (n + 1) v = slice v (L * n) L :: limbsOf L n v := rfl

theorem limbsOf_headD (L n v : Nat) : (limbsOf L (n + 1) v).headD 0 = slice v (L * n) L := rfl

theorem limbsOf_getLastD (L n v : Nat) : (limbsOf L (n + 1) v).getLastD 0 = slice v 0 L := by
  induction n with
  | zero => simp [limbsOf]
  | succ n ih =>
    rw [limbsOf_succ, limbsOf_succ, List.getLastD_cons, ← ih, limbsOf_succ, List.getLastD_cons, List.getLastD_cons]

theorem limbsOf_getElem {L n v j : Nat} (h : j < (limbsOf L n v).length) :
    (limbsOf L n v)[j] = slice v (L * (n - 1 - j)) L := by
  induction n generalizing j with
  | zero => simp at h
  | succ n ih =>
    cases j with
    | zero => simp [limbsOf]
    | succ j =>
      have hj : j < (limbsOf L n v).length := by simpa using h
      simp only [limbsOf, List.getElem_cons_succ, ih hj]
      congr 2
      omega

theorem limbsOf_getD {L n j : Nat} (v : Nat) (h : j < n) : (limbsOf L n v).getD j 0 = slice v (L * (n - 1 - j)) L := by
  have hj : j < (limbsOf L n v).length := by simpa using h
  rw [List.getD_eq_getElem _ _ hj, limbsOf_getElem hj]

theorem limbsOf_zero (L n : Nat) : limbsOf L n 0 = List.replicate n 0 := by
  induction n with
  | zero => rfl
  | succ n ih => simp [limbsOf, ih, slice, List.replicate_succ]

/-- The limb view sees the low `L*n` bits. -/
theorem limbsOf_mod {L n S : Nat} (v : Nat) (h : L * n ≤ S) : limbsOf L n (v % 2 ^ S) = limbsOf L n v := by
  induction n with
  | zero => rfl
  | succ n ih =>
    have hS : L * n + L ≤ S := by simpa [Nat.mul_succ] using h
    rw [limbsOf_succ, limbsOf_succ, ih (by omega), slice_mod_of_le hS]

theorem limbVal_limbsOf_of_lt {L n v : Nat} (h : v < 2 ^ (L * n)) : limbVal L (limbsOf L n v) = v := by
  rw [limbVal_limbsOf, Nat.mod_eq_of_lt h]

/-! ### The limb operations -/

theorem limbXor_limbsOf (L n a b : Nat) : limbXor (limbsOf L n a) (limbsOf L n b) = limbsOf L n (a ^^^ b) := by
  induction n with
  | zero => rfl
  | succ n ih => simpa [limbsOf, limbXor, slice_xor] using ih

theorem xorFirst_limbsOf {L n a : Nat} (v : Nat) (ha : a < 2 ^ L) :
    xorFirst a (limbsOf L (n + 1) v) = limbsOf L (n + 1) (v ^^^ a * 2 ^ (L * n)) := by
  have htop : slice (a * 2 ^ (L * n)) (L * n) L = a := by
    simp [slice, Nat.mul_div_cancel _ (Nat.two_pow_pos (L * n)), Nat.mod_eq_of_lt ha]
  have hlow : limbsOf L n (v ^^^ a * 2 ^ (L * n)) = limbsOf L n v := by
    rw [← limbsOf_mod (v ^^^ _) le_rfl, Nat.xor_mod_two_pow, Nat.mul_mod_left, Nat.xor_zero, limbsOf_mod _ le_rfl]
  rw [limbsOf_succ, limbsOf_succ, slice_xor, htop, hlow, xorFirst]

theorem xorLast_limbsOf {L n a : Nat} (v : Nat) (ha : a < 2 ^ L) :
    xorLast a (limbsOf L (n + 1) v) = limbsOf L (n + 1) (v ^^^ a) := by
  induction n with
  | zero => simp [limbsOf, xorLast, slice_xor, slice_of_lt ha]
  | succ n ih =>
    have hz : slice a (L * (n + 1)) L = 0 :=
      slice_eq_zero_of_lt (lt_of_lt_of_le ha (Nat.pow_le_pow_right (by decide) (Nat.le_mul_of_pos_right L n.succ_pos)))
    rw [limbsOf_succ L (n + 1) (v ^^^ a), slice_xor, hz, Nat.xor_zero, ← ih]
    rfl

theorem limbShiftLeft_limbsOf {L k : Nat} (h : k ≤ L) (n v : Nat) :
    limbShiftLeft L k h (limbsOf L n v) = limbsOf L n (v * 2 ^ k) := by
  induction n with
  | zero => rfl
  | succ n ih =>
    rw [limbsOf_succ, limbsOf_succ, limbShiftLeft, ih]
    congr 1
    cases n with
    | zero => simp [limbsOf, slice_mul_zero]
    | succ n => rw [limbsOf_headD, Nat.mul_succ, slice_mul_add _ _ h]

theorem limbShiftRightFrom_limbsOf {L k : Nat} (h : k ≤ L) (n v : Nat) :
    limbShiftRightFrom L k h (slice v (L * n) L) (limbsOf L n v) = limbsOf L n (v / 2 ^ k) := by
  induction n with
  | zero => rfl
  | succ n ih => rw [limbsOf_succ, limbsOf_succ, limbShiftRightFrom, ih, slice_div _ _ h, Nat.mul_succ]

theorem limbShiftRight_limbsOf {L k n v : Nat} (h : k ≤ L) (hv : v < 2 ^ (L * n)) :
    limbShiftRight L k h (limbsOf L n v) = limbsOf L n (v / 2 ^ k) := by
  rw [← limbShiftRightFrom_limbsOf h, slice_eq_zero_of_lt hv, limbShiftRight]

theorem limbReverse_limbsOf {L n : Nat} (v : Nat) (hL : IsLimbBits L) :
    limbReverse L (limbsOf L n v) = limbsOf L n (reflect (L * n) v) := by
  apply List.ext_getElem
  · simp [limbReverse]
  · intro j h₁ h₂
    have hj : j < n := by simpa using h₂
    have hlo : L * (n - 1 - j) + L ≤ L * n := by
      rw [← Nat.mul_succ]
      exact Nat.mul_le_mul_left L (by omega)
    have hop : L * n - L * (n - 1 - j) - L = L * j := by
      obtain ⟨m, rfl⟩ : ∃ m, n = j + 1 + m := ⟨n - (j + 1), by omega⟩
      rw [show j + 1 + m - 1 - j = m by omega, Nat.mul_add, Nat.mul_add]
      omega
    simp only [limbReverse, List.getElem_map, List.getElem_reverse, limbsOf_getElem, limbsOf_length]
    rw [slice_reflect v hlo, hop, reflectSwap_eq_reflect hL (slice_lt _ _ _), show n - 1 - (n - 1 - j) = j by omega]

theorem limbTruncateLeft_limbsOf {L n moves : Nat} (v : Nat) (h : moves ≤ L) :
    limbTruncateLeft L moves (limbsOf L (n + 1) v) = limbsOf L (n + 1) (v % 2 ^ (L * (n + 1) - moves)) := by
  have hlow : limbsOf L n (v % 2 ^ (L * (n + 1) - moves)) = limbsOf L n v :=
    limbsOf_mod v (by rw [Nat.mul_succ]; omega)
  have htop : slice (v % 2 ^ (L * (n + 1) - moves)) (L * n) L = slice v (L * n) L % 2 ^ (L - moves) := by
    apply Nat.eq_of_testBit_eq
    intro i
    by_cases hi : i < L - moves
    · simp [Nat.testBit_mod_two_pow, hi, show i < L by omega, Nat.mul_succ, show L * n + i < L * n + L - moves by omega]
    · simp [Nat.testBit_mod_two_pow, hi, Nat.mul_succ, show ¬ L * n + i < L * n + L - moves by omega]
  rw [limbsOf_succ, limbsOf_succ, limbTruncateLeft, hlow, htop]

/-- 42_normalizer.md R81: `parse` on limbs is `parse` on the S-bit vector. -/
theorem limbParse_limbsOf {L n width moves : Nat} (raw : Nat) (refin : Bool) (hL : IsLimbBits L)
    (hm : moves = L * n - width) (h : moves ≤ L) :
    limbParse L moves h refin (limbsOf L n raw) = limbsOf L n (parse raw (L * n) width refin) := by
  subst hm
  have hshift : (if L * n - width > 0 then limbShiftLeft L (L * n - width) h (limbsOf L n raw) else limbsOf L n raw) =
      limbsOf L n (if L * n - width > 0 then shl (L * n) raw (L * n - width) else raw) := by
    split
    · rw [limbShiftLeft_limbsOf, shl, limbsOf_mod _ le_rfl]
    · rfl
  simp only [limbParse, parse, parseWith, hshift]
  cases refin
  · rfl
  · exact limbReverse_limbsOf _ hL

end Sys2Proof.Machine
end

section
/-! Division steps, tables, byte steps and blocks: values stay below `2^S`, and on limb arrays they are the S-bit rules
(45_engine_sharded.md R131 to R133, R135; 43_tablebuilder.md R91). -/

namespace Sys2Proof.Machine

/-! ### Transport along a view of the S-bit vectors -/

section Transport

variable {α : Type} {view : Nat → α} {f : α → α} {g : Nat → Nat} {P : Nat → Prop}

/-- What one step does through a view, `k` steps do. -/
theorem iterate_view (hview : ∀ v, P v → f (view v) = view (g v)) (hP : ∀ v, P v → P (g v)) (k : Nat) {v : Nat}
    (hv : P v) : f^[k] (view v) = view (g^[k] v) := by
  induction k generalizing v with
  | zero => rfl
  | succ k ih => rw [Function.iterate_succ_apply, Function.iterate_succ_apply, hview v hv, ih (hP v hv)]

theorem chainSlices_view (hview : ∀ v, P v → f (view v) = view (g v)) (hP : ∀ v, P v → P (g v)) (k : Nat)
    {first : List Nat} (hfirst : ∀ v ∈ first, P v) :
    chainSlices f k (first.map view) = (chainSlices g k first).map view := by
  induction k generalizing first with
  | zero => rfl
  | succ k ih =>
    have hnext : (first.map view).map f = (first.map g).map view := by
      rw [List.map_map, List.map_map]
      exact List.map_congr_left fun v hv => hview v (hfirst v hv)
    have hfirst' : ∀ v ∈ first.map g, P v := by
      intro v hv
      obtain ⟨u, hu, rfl⟩ := List.mem_map.mp hv
      exact hP u (hfirst u hu)
    rw [chainSlices, chainSlices, List.map_append, hnext, ih hfirst']

end Transport

/-- What the first slice has and `Div` keeps, every entry has. -/
theorem forall_mem_chainSlices {α : Type} {div : α → α} {P : α → Prop} (hP : ∀ x, P x → P (div x)) (k : Nat)
    {first : List α} (hfirst : ∀ x ∈ first, P x) : ∀ x ∈ chainSlices div k first, P x := by
  induction k generalizing first with
  | zero => simp [chainSlices]
  | succ k ih =>
    intro x hx
    rcases List.mem_append.mp hx with hx | hx
    · exact hfirst x hx
    · refine ih (first := first.map div) (fun y hy => ?_) x hx
      obtain ⟨u, hu, rfl⟩ := List.mem_map.mp hy
      exact hP u (hfirst u hu)

theorem chainSlices_length {α : Type} (div : α → α) (k : Nat) (first : List α) :
    (chainSlices div k first).length = k * first.length := by
  induction k generalizing first with
  | zero => simp [chainSlices]
  | succ k ih => simp [chainSlices, ih, Nat.succ_mul, Nat.add_comm]

/-! ### Values stay below `2^S` -/

theorem bitStepF_lt {S p : Nat} (r : Nat) (hp : p < 2 ^ S) : bitStepF S p r < 2 ^ S := by
  unfold bitStepF
  split
  · exact Nat.xor_lt_two_pow (shl_lt _ _ _) hp
  · exact shl_lt _ _ _

theorem bitStepR_lt {S p r : Nat} (hp : p < 2 ^ S) (hr : r < 2 ^ S) : bitStepR p r < 2 ^ S := by
  have hshr : shr r 1 < 2 ^ S := (shr_le r 1).trans_lt hr
  unfold bitStepR
  split
  · exact Nat.xor_lt_two_pow hshr hp
  · exact hshr

theorem divStep_lt {S p r : Nat} (refin : Bool) (hp : p < 2 ^ S) (hr : r < 2 ^ S) : divStep S p refin r < 2 ^ S := by
  cases refin
  · exact Function.Iterate.rec (· < 2 ^ S) hr (fun v _ => bitStepF_lt v hp) 8
  · exact Function.Iterate.rec (· < 2 ^ S) hr (fun _ hv => bitStepR_lt hp hv) 8

theorem byte_lt_two_pow {S b : Nat} (hS : 8 ≤ S) (hb : b < 256) : b < 2 ^ S :=
  lt_of_lt_of_le (show b < 2 ^ 8 from hb) (Nat.pow_le_pow_right (by decide) hS)

theorem shl_byte {S b : Nat} (hS : 8 ≤ S) (hb : b < 256) : shl S b (S - 8) = b * 2 ^ (S - 8) := by
  refine Nat.mod_eq_of_lt ?_
  calc b * 2 ^ (S - 8) < 2 ^ 8 * 2 ^ (S - 8) := Nat.mul_lt_mul_of_pos_right hb (by positivity)
    _ = 2 ^ S := by rw [← pow_add, show 8 + (S - 8) = S by omega]

theorem tableSeed_lt {S i : Nat} (refin : Bool) (hS : 8 ≤ S) (hi : i < 256) : tableSeed S refin i < 2 ^ S := by
  cases refin
  · exact shl_lt _ _ _
  · exact byte_lt_two_pow hS hi

theorem firstSlice_lt {S p : Nat} (refin : Bool) (hS : 8 ≤ S) (hp : p < 2 ^ S) :
    ∀ v ∈ (List.range 256).map fun i => divStep S p refin (tableSeed S refin i), v < 2 ^ S := by
  intro v hv
  obtain ⟨i, hi, rfl⟩ := List.mem_map.mp hv
  exact divStep_lt refin hp (tableSeed_lt refin hS (List.mem_range.mp hi))

/-- Every entry of slice 0 is one `Div` of a seed, so what `Div` gives of seeds and keeps, every entry has. -/
theorem forall_mem_buildTable {S p : Nat} {refin : Bool} {P : Nat → Prop} (slices : Nat)
    (hseed : ∀ i < 256, P (divStep S p refin (tableSeed S refin i))) (hdiv : ∀ v, P v → P (divStep S p refin v)) :
    ∀ t ∈ buildTable S p refin slices, P t := by
  refine forall_mem_chainSlices hdiv slices fun v hv => ?_
  obtain ⟨i, hi, rfl⟩ := List.mem_map.mp hv
  exact hseed i (List.mem_range.mp hi)

theorem buildTable_lt {S p : Nat} (refin : Bool) (slices : Nat) (hS : 8 ≤ S) (hp : p < 2 ^ S) :
    ∀ t ∈ buildTable S p refin slices, t < 2 ^ S :=
  forall_mem_chainSlices (P := (· < 2 ^ S)) (fun _ hv => divStep_lt refin hp hv) slices (firstSlice_lt refin hS hp)

theorem buildTable_length (S p : Nat) (refin : Bool) (slices : Nat) :
    (buildTable S p refin slices).length = slices * 256 := by
  simp [buildTable, chainSlices_length]

/-- A table read gives an entry, or 0 beyond the entries (log 16). -/
theorem tableAt_of_forall_mem {table : List Nat} {P : Nat → Prop} (h0 : P 0) (h : ∀ t ∈ table, P t) (e : Nat) :
    P (tableAt table e) := by
  rcases lt_or_ge e table.length with he | he
  · rw [tableAt, List.getD_eq_getElem _ _ he]
    exact h _ (List.getElem_mem he)
  · rwa [tableAt, List.getD_eq_default _ _ he]

theorem tableAt_lt {S : Nat} {table : List Nat} (h : ∀ t ∈ table, t < 2 ^ S) (e : Nat) : tableAt table e < 2 ^ S :=
  tableAt_of_forall_mem (P := (· < 2 ^ S)) (by positivity) h e

theorem byteStep_lt {S p r b : Nat} {table : List Nat} (tmode : TMode) (refin : Bool) (hS : 8 ≤ S) (hp : p < 2 ^ S)
    (ht : ∀ t ∈ table, t < 2 ^ S) (hr : r < 2 ^ S) (hb : b < 256) : byteStep S tmode refin p table r b < 2 ^ S := by
  have hshl := shl_lt S r 8
  have hshr : shr r 8 < 2 ^ S := (shr_le r 8).trans_lt hr
  match tmode, refin with
  | .none, false => exact divStep_lt false hp (Nat.xor_lt_two_pow hr (shl_lt _ _ _))
  | .none, true => exact divStep_lt true hp (Nat.xor_lt_two_pow hr (byte_lt_two_pow hS hb))
  | .t256, false | .t4096, false => exact Nat.xor_lt_two_pow hshl (tableAt_lt ht _)
  | .t256, true | .t4096, true => exact Nat.xor_lt_two_pow hshr (tableAt_lt ht _)

/-- An exclusive-or of numbers that have a property closed under it has the property. -/
theorem foldl_xor_of_forall {P : Nat → Prop} {f : Nat → Nat} (hxor : ∀ a b, P a → P b → P (a ^^^ b))
    (hf : ∀ j, P (f j)) (js : List Nat) {a : Nat} (ha : P a) : P (js.foldl (fun acc j => acc ^^^ f j) a) := by
  induction js generalizing a with
  | nil => exact ha
  | cons j js ih => exact ih (hxor a (f j) ha (hf j))

/-- The table entry that byte `j` of a block selects (44_engine_native.md R105). -/
def blockEntry (S : Nat) (refin : Bool) (table : List Nat) (r : Nat) (d : List Nat) (j : Nat) : Nat :=
  tableAt table ((15 - j) * 256 + (d.getD j 0 ^^^ registerByte S refin r j))

/-- R105: one block is the shifted register xor the sixteen selected entries. -/
theorem block16_eq (S : Nat) (refin : Bool) (table : List Nat) (r : Nat) (d : List Nat) :
    block16 S refin table r d =
      (if refin then shr r 128 else shl S r 128) ^^^
        (List.range 16).foldl (fun acc j => acc ^^^ blockEntry S refin table r d j) 0 := by
  simp only [block16, blockEntry]

theorem block16_of_forall {S : Nat} {refin : Bool} {table : List Nat} {r : Nat} {P : Nat → Prop} (d : List Nat)
    (h0 : P 0) (hxor : ∀ a b, P a → P b → P (a ^^^ b)) (ht : ∀ t ∈ table, P t)
    (hr : P (if refin then shr r 128 else shl S r 128)) :
    P (block16 S refin table r d) := by
  rw [block16_eq]
  exact hxor _ _ hr (foldl_xor_of_forall hxor (fun _ => tableAt_of_forall_mem h0 ht _) _ h0)

theorem block16_lt {S r : Nat} {table : List Nat} (refin : Bool) (d : List Nat) (ht : ∀ t ∈ table, t < 2 ^ S)
    (hr : r < 2 ^ S) : block16 S refin table r d < 2 ^ S := by
  refine block16_of_forall (P := (· < 2 ^ S)) d (by positivity) (fun _ _ => Nat.xor_lt_two_pow) ht ?_
  cases refin
  · simpa using shl_lt S r 128
  · simpa using (shr_le r 128).trans_lt hr

/-! ### The same on limb arrays -/

theorem limbBitStepF_limbsOf {L : Nat} (h : 1 ≤ L) (n p v : Nat) :
    limbBitStepF L h (limbsOf L (n + 1) p) (limbsOf L (n + 1) v) = limbsOf L (n + 1) (bitStepF (L * (n + 1)) p v) := by
  have htop : L * (n + 1) - 1 = L * n + (L - 1) := by rw [Nat.mul_succ]; omega
  have hshift : limbShiftLeft L 1 h (limbsOf L (n + 1) v) = limbsOf L (n + 1) (shl (L * (n + 1)) v 1) := by
    rw [limbShiftLeft_limbsOf, shl, limbsOf_mod _ le_rfl]
  rw [limbBitStepF, bitStepF, limbsOf_headD, hshift, htop]
  simp only [slice_div_top h, limbXor_limbsOf]
  split <;> rfl

theorem limbBitStepR_limbsOf {L n v : Nat} (h : 1 ≤ L) (p : Nat) (hv : v < 2 ^ (L * (n + 1))) :
    limbBitStepR L h (limbsOf L (n + 1) p) (limbsOf L (n + 1) v) = limbsOf L (n + 1) (bitStepR p v) := by
  have hbot : slice v 0 L % 2 = v % 2 := by
    rw [slice, pow_zero, Nat.div_one, Nat.mod_mod_of_dvd _ (dvd_pow_self 2 (by omega))]
  rw [limbBitStepR, bitStepR, limbsOf_getLastD, limbShiftRight_limbsOf h hv]
  simp only [hbot, limbXor_limbsOf, Nat.testBit_zero, decide_eq_true_eq]
  split <;> rfl

theorem limbDivStep_limbsOf {L n p v : Nat} (h : 1 ≤ L) (refin : Bool) (hp : p < 2 ^ (L * (n + 1)))
    (hv : v < 2 ^ (L * (n + 1))) :
    limbDivStep L h (limbsOf L (n + 1) p) refin (limbsOf L (n + 1) v) =
      limbsOf L (n + 1) (divStep (L * (n + 1)) p refin v) := by
  cases refin with
  | false =>
    simp only [limbDivStep, divStep, divF, Bool.false_eq_true, if_false]
    exact iterate_view (view := limbsOf L (n + 1)) (P := (· < 2 ^ (L * (n + 1)))) (fun u _ => limbBitStepF_limbsOf h n p u)
      (fun u _ => bitStepF_lt u hp) 8 hv
  | true =>
    simp only [limbDivStep, divStep, divR, if_true]
    exact iterate_view (view := limbsOf L (n + 1)) (P := (· < 2 ^ (L * (n + 1)))) (fun _ hu => limbBitStepR_limbsOf h p hu)
      (fun _ hu => bitStepR_lt hp hu) 8 hv

theorem byte_at_top {L b : Nat} (n : Nat) (hL : 8 ≤ L) (hb : b < 256) :
    b * 2 ^ (L - 8) * 2 ^ (L * n) = shl (L * (n + 1)) b (L * (n + 1) - 8) := by
  have hS : 8 ≤ L * (n + 1) := by rw [Nat.mul_succ]; omega
  rw [shl_byte hS hb, Nat.mul_assoc, ← pow_add, Nat.mul_succ, show L - 8 + L * n = L * n + L - 8 by omega]

theorem byte_at_top_lt {L b : Nat} (hL : 8 ≤ L) (hb : b < 256) : b * 2 ^ (L - 8) < 2 ^ L := by
  rw [← shl_byte hL hb]
  exact shl_lt _ _ _

theorem limbTableSeed_limbsOf {L i : Nat} (n : Nat) (refin : Bool) (hL : 8 ≤ L) (hi : i < 256) :
    limbTableSeed L (n + 1) refin i = limbsOf L (n + 1) (tableSeed (L * (n + 1)) refin i) := by
  cases refin
  · simp only [limbTableSeed, tableSeed, Bool.false_eq_true, if_false]
    rw [← limbsOf_zero, xorFirst_limbsOf _ (shl_lt _ _ _), Nat.zero_xor, shl_byte hL hi, byte_at_top n hL hi]
  · simp only [limbTableSeed, tableSeed, if_true]
    rw [← limbsOf_zero, xorLast_limbsOf _ (byte_lt_two_pow hL hi), Nat.zero_xor]

/-- 43_tablebuilder.md R91: the multi-limb table is the S-bit table cut into limbs. -/
theorem limbBuildTable_limbsOf {L n p : Nat} (h : 1 ≤ L) (refin : Bool) (slices : Nat) (hL : 8 ≤ L)
    (hp : p < 2 ^ (L * (n + 1))) :
    limbBuildTable L (n + 1) h (limbsOf L (n + 1) p) refin slices =
      (buildTable (L * (n + 1)) p refin slices).map (limbsOf L (n + 1)) := by
  have hS : 8 ≤ L * (n + 1) := by rw [Nat.mul_succ]; omega
  have hseed : ∀ i ∈ List.range 256, limbDivStep L h (limbsOf L (n + 1) p) refin (limbTableSeed L (n + 1) refin i) =
      limbsOf L (n + 1) (divStep (L * (n + 1)) p refin (tableSeed (L * (n + 1)) refin i)) := fun i hi => by
    have hi := List.mem_range.mp hi
    rw [limbTableSeed_limbsOf n refin hL hi, limbDivStep_limbsOf h refin hp (tableSeed_lt refin hS hi)]
  rw [limbBuildTable, List.map_congr_left hseed, buildTable, ← chainSlices_view (view := limbsOf L (n + 1))
    (f := limbDivStep L h (limbsOf L (n + 1) p) refin) (P := (· < 2 ^ (L * (n + 1))))
    (fun _ hv => limbDivStep_limbsOf h refin hp hv) (fun _ hv => divStep_lt refin hp hv), List.map_map]
  · rfl
  · exact firstSlice_lt refin hS hp

/-- The byte of the register that meets the data, forward: the top byte of limb 0. -/
theorem topByte_limb {L n r : Nat} (hL : 8 ≤ L) (hr : r < 2 ^ (L * (n + 1))) :
    slice r (L * n) L / 2 ^ (L - 8) = shr r (L * (n + 1) - 8) := by
  have hdiv : r / 2 ^ (L * n) < 2 ^ L := by
    rw [Nat.div_lt_iff_lt_mul (by positivity), ← pow_add, Nat.add_comm, ← Nat.mul_succ]
    exact hr
  rw [slice, Nat.mod_eq_of_lt hdiv, Nat.div_div_eq_div_mul, ← pow_add, shr, Nat.mul_succ,
    show L * n + (L - 8) = L * n + L - 8 by omega]

/-- The byte of the register that meets the data, reflected: the bottom byte of the last limb. -/
theorem bottomByte_xor_limb {L b : Nat} (r : Nat) (hL : 8 ≤ L) (hb : b < 256) :
    slice r 0 L % 256 ^^^ b = (r ^^^ b) % 256 := by
  have hmod : slice r 0 L % 2 ^ 8 = r % 2 ^ 8 := by
    rw [slice, pow_zero, Nat.div_one, Nat.mod_mod_of_dvd _ (pow_dvd_pow 2 hL)]
  have hxor := Nat.xor_mod_two_pow (a := r) (b := b) (n := 8)
  rw [Nat.mod_eq_of_lt (show b < 2 ^ 8 from hb), ← hmod] at hxor
  exact hxor.symm

/-- R131: a byte step on limbs is the S-bit byte step (44_engine_native.md R103). -/
theorem limbByteStep_limbsOf {L n p r b : Nat} (h : 8 ≤ L) (tmode : TMode) (refin : Bool) (table : List Nat)
    (hp : p < 2 ^ (L * (n + 1))) (hr : r < 2 ^ (L * (n + 1))) (hb : b < 256) :
    limbByteStep L h tmode refin (limbsOf L (n + 1) p) (fun i => limbsOf L (n + 1) (tableAt table i))
        (limbsOf L (n + 1) r) b =
      limbsOf L (n + 1) (byteStep (L * (n + 1)) tmode refin p table r b) := by
  have hS : 8 ≤ L * (n + 1) := by rw [Nat.mul_succ]; omega
  have hleft : limbShiftLeft L 8 h (limbsOf L (n + 1) r) = limbsOf L (n + 1) (shl (L * (n + 1)) r 8) := by
    rw [limbShiftLeft_limbsOf, shl, limbsOf_mod _ le_rfl]
  match tmode, refin with
  | .none, false =>
    simp only [limbByteStep, xorFirst_limbsOf r (byte_at_top_lt h hb), byte_at_top n h hb]
    exact limbDivStep_limbsOf _ false hp (Nat.xor_lt_two_pow hr (shl_lt _ _ _))
  | .none, true =>
    simp only [limbByteStep, xorLast_limbsOf r (byte_lt_two_pow h hb)]
    exact limbDivStep_limbsOf _ true hp (Nat.xor_lt_two_pow hr (byte_lt_two_pow hS hb))
  | .t256, false | .t4096, false =>
    simp only [limbByteStep, byteStep, hleft, limbsOf_headD, topByte_limb h hr, limbXor_limbsOf]
  | .t256, true | .t4096, true =>
    simp only [limbByteStep, byteStep, limbShiftRight_limbsOf h hr, limbsOf_getLastD, bottomByte_xor_limb r h hb,
      limbXor_limbsOf, shr]

theorem slice_slice {v lo L k len : Nat} (h : k + len ≤ L) : slice (slice v lo L) k len = slice v (lo + k) len := by
  apply Nat.eq_of_testBit_eq
  intro i
  by_cases hi : i < len
  · simp [hi, show k + i < L by omega, Nat.add_assoc]
  · simp [hi]

/-- R133: the bytes of the register, counted from the end the data enters. -/
theorem limbRegisterByte_limbsOf {L : Nat} (n : Nat) (refin : Bool) (r j : Nat) (h : 8 ≤ L) (hdvd : 8 ∣ L) :
    limbRegisterByte L refin (limbsOf L n r) j = registerByte (L * n) refin r j := by
  obtain ⟨per, rfl⟩ := hdvd
  have hper : 0 < per := by omega
  have hdiv : 8 * per * n / 8 = n * per := by rw [Nat.mul_assoc, Nat.mul_div_cancel_left _ (by decide), Nat.mul_comm]
  simp only [limbRegisterByte, registerByte, limbsOf_length, hdiv, Nat.mul_div_cancel_left per (show 0 < 8 by decide)]
  split
  · rename_i hlt
    have hq : j / per < n := by rwa [Nat.div_lt_iff_lt_mul hper]
    have ht : j % per < per := Nat.mod_lt _ hper
    have hj : per * (j / per) + j % per = j := Nat.div_add_mod j per
    clear hlt hdiv
    generalize j / per = q at *
    generalize j % per = t at *
    subst hj
    obtain ⟨m, rfl⟩ : ∃ m, n = q + 1 + m := ⟨n - (q + 1), by omega⟩
    cases refin with
    | true =>
      have hlo : 8 * (per * q + t) = 8 * per * q + 8 * t := by rw [Nat.mul_add, Nat.mul_assoc]
      simp only [if_true]
      rw [limbsOf_getD r (show q + 1 + m - 1 - q < q + 1 + m by omega),
        show q + 1 + m - 1 - (q + 1 + m - 1 - q) = q by omega, hlo, ← slice_slice (L := 8 * per) (by omega)]
      rfl
    | false =>
      have hlo : 8 * per * (q + 1 + m) - 8 - 8 * (per * q + t) = 8 * per * m + (8 * per - 8 * (t + 1)) := by
        simp only [Nat.mul_assoc, Nat.mul_add, Nat.mul_one]
        omega
      simp only [Bool.false_eq_true, if_false]
      rw [limbsOf_getD r hq, show q + 1 + m - 1 - q = m by omega, hlo, ← slice_slice (L := 8 * per) (by omega)]
      rfl
  · rfl

theorem foldl_limbXor_limbsOf (L n : Nat) (f : Nat → Nat) (js : List Nat) (a : Nat) :
    js.foldl (fun acc j => limbXor acc (limbsOf L n (f j))) (limbsOf L n a) =
      limbsOf L n (js.foldl (fun acc j => acc ^^^ f j) a) := by
  induction js generalizing a with
  | nil => rfl
  | cons j js ih => rw [List.foldl_cons, List.foldl_cons, limbXor_limbsOf, ih]

/-- R133: sixteen limb shifts by 8 are one shift by 128 bits. -/
theorem limbShiftLeft_sixteen {L : Nat} (h : 8 ≤ L) (n r : Nat) :
    (limbShiftLeft L 8 h)^[16] (limbsOf L n r) = limbsOf L n (shl (L * n) r 128) := by
  rw [iterate_view (P := fun _ => True) (g := (· * 2 ^ 8)) (fun v _ => limbShiftLeft_limbsOf h n v) (fun _ _ => trivial)
    16 trivial, mul_right_iterate, shl, limbsOf_mod _ le_rfl, ← pow_mul]

theorem limbShiftRight_sixteen {L n r : Nat} (h : 8 ≤ L) (hr : r < 2 ^ (L * n)) :
    (limbShiftRight L 8 h)^[16] (limbsOf L n r) = limbsOf L n (shr r 128) := by
  rw [iterate_view (P := (· < 2 ^ (L * n))) (g := (· / 2 ^ 8)) (fun v hv => limbShiftRight_limbsOf h hv)
    (fun v hv => (Nat.div_le_self _ _).trans_lt hv) 16 hr]
  simp [shr, Nat.div_div_eq_div_mul]

/-- R133: a block step on limbs is the S-bit block step (44_engine_native.md R105). -/
theorem limbBlock16_limbsOf {L n r : Nat} (h : 8 ≤ L) (hdvd : 8 ∣ L) (refin : Bool) (table d : List Nat)
    (hr : r < 2 ^ (L * n)) :
    limbBlock16 L h refin (fun i => limbsOf L n (tableAt table i)) (limbsOf L n r) d =
      limbsOf L n (block16 (L * n) refin table r d) := by
  have hshift : (if refin then (limbShiftRight L 8 h)^[16] (limbsOf L n r) else (limbShiftLeft L 8 h)^[16] (limbsOf L n r)) =
      limbsOf L n (if refin then shr r 128 else shl (L * n) r 128) := by
    rw [limbShiftLeft_sixteen, limbShiftRight_sixteen h hr, apply_ite (limbsOf L n)]
  simp only [limbBlock16, hshift, limbsOf_length, ← limbsOf_zero L n, limbRegisterByte_limbsOf n refin r _ h hdvd]
  rw [block16_eq, ← limbXor_limbsOf, ← foldl_limbXor_limbsOf]
  simp only [blockEntry]

end Sys2Proof.Machine
end

section
/-! Shape D128: each operation of 46_engine_128.md is the S-bit operation seen through the two limbs `pairOf`. -/

namespace Sys2Proof.Machine

/-- The two limbs see the low 128 bits. -/
theorem pairOf_mod {S : Nat} (v : Nat) (hS : 128 ≤ S) : pairOf (v % 2 ^ S) = pairOf v := by
  rw [pairOf, pairOf, slice_mod_of_le (show 64 + 64 ≤ S by omega), slice_mod_of_le (show 0 + 64 ≤ S by omega)]

theorem pairXor_pairOf (a b : Nat) : pairXor (pairOf a) (pairOf b) = pairOf (a ^^^ b) := by
  simp only [pairXor, pairOf, slice_xor]

theorem pairShiftLeft_pairOf {k : Nat} (h : k ≤ 64) (v : Nat) : pairShiftLeft k h (pairOf v) = pairOf (v * 2 ^ k) := by
  have hhi := slice_mul_add v 0 h
  have hlo := slice_mul_zero v k 64
  rw [Nat.zero_add] at hhi
  unfold pairShiftLeft
  split
  · simp [*]
  · rw [pairOf, pairOf, hhi, hlo]

theorem pairShiftRight_pairOf {k v : Nat} (h : k ≤ 64) (hv : v < 2 ^ 128) :
    pairShiftRight k h (pairOf v) = pairOf (v / 2 ^ k) := by
  have hhi := slice_div v 64 h
  have hlo := slice_div v 0 h
  rw [slice_eq_zero_of_lt hv, Nat.zero_mul, Nat.zero_mod, Nat.or_zero] at hhi
  rw [Nat.zero_add] at hlo
  unfold pairShiftRight
  split
  · simp [*]
  · rw [pairOf, pairOf, hhi, hlo]

theorem pairReverse_pairOf (v : Nat) : pairReverse (pairOf v) = pairOf (reflect 128 v) := by
  have h64 : IsLimbBits 64 := by simp [IsLimbBits]
  rw [pairReverse, pairOf, pairOf, slice_reflect v (show 64 + 64 ≤ 128 by decide),
    slice_reflect v (show 0 + 64 ≤ 128 by decide),
    reflectSwap_eq_reflect h64 (slice_lt _ _ _), reflectSwap_eq_reflect h64 (slice_lt _ _ _)]

/-- R147: `parse` on two limbs is `parse` on the 128-bit vector. -/
theorem pairParse_pairOf {width moves : Nat} (raw : Nat) (refin : Bool) (hm : moves = 128 - width) (h : moves ≤ 64) :
    pairParse moves h refin (pairOf raw) = pairOf (parse raw 128 width refin) := by
  subst hm
  have hshift : pairShiftLeft (128 - width) h (pairOf raw) =
      pairOf (if 128 - width > 0 then shl 128 raw (128 - width) else raw) := by
    rw [pairShiftLeft_pairOf]
    split
    · rw [shl, pairOf_mod _ le_rfl]
    · rw [show 128 - width = 0 by omega, pow_zero, Nat.mul_one]
  simp only [pairParse, parse, parseWith, hshift]
  cases refin
  · rfl
  · exact pairReverse_pairOf _

theorem pairTruncateLeft_pairOf {moves : Nat} (v : Nat) (h : moves ≤ 64) :
    pairTruncateLeft moves (pairOf v) = pairOf (v % 2 ^ (128 - moves)) := by
  have hhi : slice (v % 2 ^ (128 - moves)) 64 64 = slice v 64 64 % 2 ^ (64 - moves) := by
    apply Nat.eq_of_testBit_eq
    intro i
    by_cases hi : i < 64 - moves
    · simp [Nat.testBit_mod_two_pow, hi, show i < 64 by omega, show 64 + i < 128 - moves by omega]
    · simp [Nat.testBit_mod_two_pow, hi, show ¬ 64 + i < 128 - moves by omega]
  rw [pairTruncateLeft, pairOf, pairOf, hhi, slice_mod_of_le (show 0 + 64 ≤ 128 - moves by omega)]

theorem pairBitStepF_pairOf (p v : Nat) : pairBitStepF (pairOf p) (pairOf v) = pairOf (bitStepF 128 p v) := by
  have htop : (pairOf v).hi / 2 ^ 63 = 1 ↔ v.testBit (128 - 1) = true := slice_div_top (lo := 64) (L := 64) (by decide)
  simp only [pairBitStepF, bitStepF, pairShiftLeft_pairOf, htop, pairXor_pairOf, shl]
  split
  · rw [← pairXor_pairOf, ← pairXor_pairOf, pairOf_mod _ le_rfl]
  · rw [pairOf_mod _ le_rfl]

theorem pairBitStepR_pairOf {v : Nat} (p : Nat) (hv : v < 2 ^ 128) :
    pairBitStepR (pairOf p) (pairOf v) = pairOf (bitStepR p v) := by
  have hbot : (pairOf v).lo % 2 = v % 2 := by
    show v / 2 ^ 0 % 2 ^ 64 % 2 = v % 2
    omega
  simp only [pairBitStepR, bitStepR, pairShiftRight_pairOf _ hv, hbot, pairXor_pairOf, shr, Nat.testBit_zero,
    decide_eq_true_eq]
  split <;> rfl

theorem pairDivStep_pairOf {p v : Nat} (refin : Bool) (hp : p < 2 ^ 128) (hv : v < 2 ^ 128) :
    pairDivStep (pairOf p) refin (pairOf v) = pairOf (divStep 128 p refin v) := by
  cases refin with
  | false =>
    simp only [pairDivStep, divStep, divF, Bool.false_eq_true, if_false]
    exact iterate_view (view := pairOf) (P := (· < 2 ^ 128)) (fun u _ => pairBitStepF_pairOf p u)
      (fun u _ => bitStepF_lt u hp) 8 hv
  | true =>
    simp only [pairDivStep, divStep, divR, if_true]
    exact iterate_view (view := pairOf) (P := (· < 2 ^ 128)) (fun _ hu => pairBitStepR_pairOf p hu)
      (fun _ hu => bitStepR_lt hp hu) 8 hv

/-- R147: a byte enters at the top of `hi` or at the bottom of `lo`. -/
theorem pairOf_xor_top {b : Nat} (v : Nat) (hb : b < 256) :
    { pairOf v with hi := (pairOf v).hi ^^^ b * 2 ^ 56 } = pairOf (v ^^^ shl 128 b (128 - 8)) := by
  have hhi : slice (shl 128 b (128 - 8)) 64 64 = b * 2 ^ 56 := by
    unfold slice shl
    omega
  have hlo : slice (shl 128 b (128 - 8)) 0 64 = 0 := by
    unfold slice shl
    omega
  rw [pairOf, pairOf, slice_xor, slice_xor, hhi, hlo, Nat.xor_zero]

theorem pairOf_xor_bottom {b : Nat} (v : Nat) (hb : b < 256) :
    { pairOf v with lo := (pairOf v).lo ^^^ b } = pairOf (v ^^^ b) := by
  have hb64 : b < 2 ^ 64 := byte_lt_two_pow (by decide) hb
  rw [pairOf, pairOf, slice_xor, slice_xor, slice_eq_zero_of_lt hb64, slice_of_lt hb64, Nat.xor_zero]

theorem pairTableSeed_pairOf {i : Nat} (refin : Bool) (hi : i < 256) :
    pairTableSeed refin i = pairOf (tableSeed 128 refin i) := by
  cases refin
  · have h := pairOf_xor_top 0 hi
    rw [Nat.zero_xor] at h
    have htop : i * 2 ^ 56 % 2 ^ 64 = i * 2 ^ 56 := Nat.mod_eq_of_lt (by omega)
    simp only [pairTableSeed, tableSeed, Bool.false_eq_true, if_false, ← h, htop]
    simp [pairOf, slice]
  · have h := pairOf_xor_bottom 0 hi
    rw [Nat.zero_xor] at h
    simp only [pairTableSeed, tableSeed, if_true, ← h]
    simp [pairOf, slice]

/-- R147: the table of pairs is the 128-bit table cut in two. -/
theorem pairBuildTable_pairOf {p : Nat} (refin : Bool) (slices : Nat) (hp : p < 2 ^ 128) :
    pairBuildTable (pairOf p) refin slices = (buildTable 128 p refin slices).map pairOf := by
  have hseed : ∀ i ∈ List.range 256, pairDivStep (pairOf p) refin (pairTableSeed refin i) =
      pairOf (divStep 128 p refin (tableSeed 128 refin i)) := fun i hi => by
    have hi := List.mem_range.mp hi
    rw [pairTableSeed_pairOf refin hi, pairDivStep_pairOf refin hp (tableSeed_lt refin (by decide) hi)]
  rw [pairBuildTable, List.map_congr_left hseed, buildTable, ← chainSlices_view (view := pairOf)
    (f := pairDivStep (pairOf p) refin) (P := (· < 2 ^ 128))
    (fun _ hv => pairDivStep_pairOf refin hp hv) (fun _ hv => divStep_lt refin hp hv), List.map_map]
  · rfl
  · exact firstSlice_lt refin (by decide) hp

/-- R146: a byte step on two limbs is the 128-bit byte step (44_engine_native.md R103). -/
theorem pairByteStep_pairOf {p r b : Nat} (tmode : TMode) (refin : Bool) (table : List Nat) (hp : p < 2 ^ 128)
    (hr : r < 2 ^ 128) (hb : b < 256) :
    pairByteStep tmode refin (pairOf p) (fun i => pairOf (tableAt table i)) (pairOf r) b =
      pairOf (byteStep 128 tmode refin p table r b) := by
  have hleft : pairShiftLeft 8 (by decide) (pairOf r) = pairOf (shl 128 r 8) := by
    rw [pairShiftLeft_pairOf, shl, pairOf_mod _ le_rfl]
  have htop : (pairOf r).hi / 2 ^ 56 = shr r (128 - 8) := topByte_limb (L := 64) (n := 1) (by decide) hr
  have hbot : ((pairOf r).lo ^^^ b) % 256 = (r ^^^ b) % 256 := by
    have h := pairOf_xor_bottom r hb
    calc ((pairOf r).lo ^^^ b) % 256 = (pairOf (r ^^^ b)).lo % 256 := by rw [← h]
      _ = (r ^^^ b) % 256 := by simp only [pairOf, slice]; omega
  match tmode, refin with
  | .none, false =>
    simp only [pairByteStep, pairOf_xor_top r hb]
    exact pairDivStep_pairOf false hp (Nat.xor_lt_two_pow hr (shl_lt _ _ _))
  | .none, true =>
    simp only [pairByteStep, pairOf_xor_bottom r hb]
    exact pairDivStep_pairOf true hp (Nat.xor_lt_two_pow hr (byte_lt_two_pow (by decide) hb))
  | .t256, false | .t4096, false => simp only [pairByteStep, byteStep, hleft, htop, pairXor_pairOf]
  | .t256, true | .t4096, true =>
    simp only [pairByteStep, byteStep, pairShiftRight_pairOf _ hr, hbot, pairXor_pairOf, shr]

/-- R147: the sixteen bytes of the register, from the end the data enters. -/
theorem pairRegisterByte_pairOf {j : Nat} (refin : Bool) (r : Nat) (hj : j < 16) :
    pairRegisterByte refin (pairOf r) j = registerByte 128 refin r j := by
  rw [pairRegisterByte, registerByte, if_pos (show j < 128 / 8 by omega)]
  by_cases h8 : j < 8
  · simp only [h8, if_true, pairOf]
    rw [slice_slice (show 8 * j + 8 ≤ 64 by omega), slice_slice (show 56 - 8 * j + 8 ≤ 64 by omega), Nat.zero_add,
      show 64 + (56 - 8 * j) = 128 - 8 - 8 * j by omega]
  · simp only [h8, if_false, pairOf]
    rw [slice_slice (show 8 * (j - 8) + 8 ≤ 64 by omega), slice_slice (show 56 - 8 * (j - 8) + 8 ≤ 64 by omega),
      Nat.zero_add, show 64 + 8 * (j - 8) = 8 * j by omega, show 56 - 8 * (j - 8) = 128 - 8 - 8 * j by omega]

theorem foldl_pairXor_pairOf {f : Nat → Pair} {g : Nat → Nat} {js : List Nat} (hf : ∀ j ∈ js, f j = pairOf (g j))
    (a : Nat) :
    js.foldl (fun acc j => pairXor acc (f j)) (pairOf a) = pairOf (js.foldl (fun acc j => acc ^^^ g j) a) := by
  induction js generalizing a with
  | nil => rfl
  | cons j js ih =>
    rw [List.foldl_cons, List.foldl_cons, hf j (by simp), pairXor_pairOf, ih fun k hk => hf k (by simp [hk])]

/-- R147: the whole register is shifted out of a 128-bit block step. -/
theorem shift_block_eq_zero {r : Nat} (refin : Bool) (hr : r < 2 ^ 128) :
    (if refin then shr r 128 else shl 128 r 128) = 0 := by
  cases refin
  · simp [shl]
  · simpa [shr] using hr

/-- R147: a block step on two limbs is the 128-bit block step (44_engine_native.md R105). -/
theorem pairBlock16_pairOf {r : Nat} (refin : Bool) (table d : List Nat) (hr : r < 2 ^ 128) :
    pairBlock16 refin (fun i => pairOf (tableAt table i)) (pairOf r) d = pairOf (block16 128 refin table r d) := by
  have hentry : ∀ j ∈ List.range 16,
      pairOf (tableAt table ((15 - j) * 256 + (d.getD j 0 ^^^ pairRegisterByte refin (pairOf r) j))) =
        pairOf (blockEntry 128 refin table r d j) := fun j hj => by
    rw [pairRegisterByte_pairOf refin r (List.mem_range.mp hj), blockEntry]
  rw [block16_eq, shift_block_eq_zero refin hr, Nat.zero_xor, ← foldl_pairXor_pairOf hentry]
  simp [pairBlock16, pairOf, slice]

end Sys2Proof.Machine
end

section
/-! The configured engine: whatever the shape, its operations are the S-bit rules (45_engine_sharded.md R135,
44_engine_native.md R110). -/

namespace Sys2Proof.Machine

/-- 42_normalizer.md R76, R77: what a legal geometry is, by the kind of its shape. -/
theorem geometry_some {maxWidth width : Nat} {shape : Shape} {g : Geom} (h : geometry maxWidth shape width = some g) :
    1 ≤ width ∧ ∃ n, g = geomOf (shapeLimbBits shape) (n + 1) width ∧ shapeLimbBits shape * n < width ∧
      width ≤ shapeLimbBits shape * (n + 1) ∧ (shapeKind shape = .native → n = 0) ∧
      (shapeKind shape = .twoLimb → n = 1 ∧ shapeLimbBits shape = 64) := by
  have hL := (isLimbBits_shapeLimbBits shape).eight_le
  unfold geometry at h
  split at h
  · cases h
  · rename_i hw
    refine ⟨by omega, ?_⟩
    cases hk : shapeKind shape with
    | native =>
      simp only [hk] at h
      split at h <;> cases h
      exact ⟨0, rfl, by omega, by omega, fun _ => rfl, nofun⟩
    | sharded =>
      simp only [hk] at h
      split at h <;> cases h
      have hq : (width + shapeLimbBits shape - 1) / shapeLimbBits shape = (width - 1) / shapeLimbBits shape + 1 := by
        rw [← Nat.add_div_right _ (by omega),
          show width + shapeLimbBits shape - 1 = width - 1 + shapeLimbBits shape by omega]
      refine ⟨(width - 1) / shapeLimbBits shape, by rw [hq], ?_, ?_, nofun, nofun⟩
      · have := Nat.mul_div_le (width - 1) (shapeLimbBits shape)
        omega
      · have := Nat.lt_mul_div_succ (width - 1) (show 0 < shapeLimbBits shape by omega)
        omega
    | twoLimb =>
      have h64 : shapeLimbBits shape = 64 := by cases shape <;> simp_all [shapeKind, shapeLimbBits]
      simp only [hk] at h
      split at h <;> cases h
      exact ⟨1, by rw [h64], by omega, by omega, nofun, fun _ => ⟨rfl, h64⟩⟩

/-- What every operation needs of a configured engine's geometry: `n+1` limbs of `L` bits hold WIDTH, with less than a limb of
padding. -/
structure Geom.Fits (shape : Shape) (width n : Nat) (g : Geom) : Prop where
  limb_bits : IsLimbBits g.l
  nl_eq : g.nl = n + 1
  s_eq : g.s = g.l * (n + 1)
  moves_eq : g.moves = g.l * (n + 1) - width
  width_pos : 1 ≤ width
  width_gt : g.l * n < width
  width_le : width ≤ g.l * (n + 1)
  native : shapeKind shape = .native → n = 0
  twoLimb : shapeKind shape = .twoLimb → n = 1 ∧ g.l = 64

theorem geometry_fits {maxWidth width : Nat} {shape : Shape} {g : Geom} (h : geometry maxWidth shape width = some g) :
    ∃ n, g.Fits shape width n := by
  obtain ⟨hpos, n, rfl, hgt, hle, hnative, htwo⟩ := geometry_some h
  exact ⟨n, isLimbBits_shapeLimbBits shape, rfl, rfl, rfl, hpos, hgt, hle, hnative, htwo⟩

namespace Geom.Fits

variable {shape : Shape} {width n : Nat} {g : Geom} (h : g.Fits shape width n)
include h

theorem eight_le_s : 8 ≤ g.s := by
  rw [h.s_eq, Nat.mul_succ]
  exact h.limb_bits.eight_le.trans (Nat.le_add_left _ _)

theorem width_le_s : width ≤ g.s := h.s_eq ▸ h.width_le

theorem moves_eq_sub : g.moves = g.s - width := by rw [h.s_eq, h.moves_eq]

theorem moves_le_l : g.moves ≤ g.l := by
  have hgt := h.width_gt
  rw [h.moves_eq, Nat.mul_succ]
  omega

theorem moves_le_s : g.moves ≤ g.s := by
  rw [h.moves_eq_sub]
  exact Nat.sub_le _ _

theorem s_eq_l_of_native (hk : shapeKind shape = .native) : g.s = g.l := by
  rw [h.s_eq, h.native hk, Nat.zero_add, Nat.mul_one]

theorem s_eq_of_twoLimb (hk : shapeKind shape = .twoLimb) : g.s = 128 := by
  obtain ⟨hn, hl⟩ := h.twoLimb hk
  rw [h.s_eq, hn, hl]

theorem moves_le_of_twoLimb (hk : shapeKind shape = .twoLimb) : g.moves ≤ 64 := (h.twoLimb hk).2 ▸ h.moves_le_l

theorem limbVal_limbsOf_of_lt_s {v : Nat} (hv : v < 2 ^ g.s) : limbVal g.l (limbsOf g.l g.nl v) = v :=
  limbVal_limbsOf_of_lt (by rwa [h.nl_eq, ← h.s_eq])

end Geom.Fits

theorem parse_lt {raw S width : Nat} (refin : Bool) (hraw : raw < 2 ^ S) : parse raw S width refin < 2 ^ S := by
  cases refin with
  | true => exact reflect_lt _ _
  | false =>
    simp only [parse, parseWith, Bool.false_eq_true, if_false]
    split
    · exact shl_lt _ _ _
    · exact hraw

/-- 42_normalizer.md R78, R81: in every shape POLY_P and INIT_P are `parse` of their operand. -/
theorem shapeParse_eq_parse {shape : Shape} {width n raw : Nat} {g : Geom} (h : g.Fits shape width n) (refin : Bool)
    (hraw : raw < 2 ^ width) : shapeParse shape g refin raw = parse raw g.s width refin := by
  have hrawS : raw < 2 ^ g.s := hraw.trans_le (Nat.pow_le_pow_right (by decide) h.width_le_s)
  have hlt := parse_lt (width := width) refin hrawS
  cases hk : shapeKind shape with
  | native =>
    have hL : IsLimbBits g.s := h.s_eq_l_of_native hk ▸ h.limb_bits
    simp only [shapeParse, hk, nativeParse, parse, parseWith, h.moves_eq_sub]
    cases refin with
    | false => rfl
    | true =>
      refine reflectSwap_eq_reflect hL ?_
      split
      · exact shl_lt _ _ _
      · exact hrawS
  | sharded =>
    rw [shapeParse_sharded hk h.moves_le_l, h.nl_eq, limbParse_limbsOf raw refin h.limb_bits h.moves_eq, ← h.s_eq,
      ← h.nl_eq, h.limbVal_limbsOf_of_lt_s hlt]
  | twoLimb =>
    have hS := h.s_eq_of_twoLimb hk
    rw [shapeParse_twoLimb hk (h.moves_le_of_twoLimb hk), pairParse_pairOf raw refin (hS ▸ h.moves_eq_sub), ← hS,
      pairVal_pairOf (hS ▸ hlt)]

/-- 42_normalizer.md R79: in every shape XOROUT_P is its operand. -/
theorem shapeTruncate_eq {shape : Shape} {width n raw : Nat} {g : Geom} (h : g.Fits shape width n)
    (hraw : raw < 2 ^ width) : shapeTruncate shape g raw = raw := by
  have hwidth : g.s - g.moves = width := by
    have := h.width_le_s
    rw [h.moves_eq_sub]
    omega
  have hmod : raw % 2 ^ (g.s - g.moves) = raw := by rw [hwidth, Nat.mod_eq_of_lt hraw]
  have hrawS : raw < 2 ^ g.s := hraw.trans_le (Nat.pow_le_pow_right (by decide) h.width_le_s)
  cases hk : shapeKind shape with
  | native => simp only [shapeTruncate, hk, truncateLeft, hmod]
  | sharded =>
    simp only [shapeTruncate, hk]
    rw [h.nl_eq, limbTruncateLeft_limbsOf raw h.moves_le_l, ← h.s_eq, hmod, ← h.nl_eq, h.limbVal_limbsOf_of_lt_s hrawS]
  | twoLimb =>
    have hS := h.s_eq_of_twoLimb hk
    simp only [shapeTruncate, hk]
    rw [pairTruncateLeft_pairOf raw (h.moves_le_of_twoLimb hk), ← hS, hmod, pairVal_pairOf (hS ▸ hrawS)]

/-- 43_tablebuilder.md R91: in every shape the table CFG builds is the S-bit table. -/
theorem shapeTable_eq_buildTable {shape : Shape} {width n p : Nat} {g : Geom} (h : g.Fits shape width n) (refin : Bool)
    (slices : Nat) (hp : p < 2 ^ g.s) : shapeTable shape g p refin slices = buildTable g.s p refin slices := by
  have hlt := buildTable_lt refin slices h.eight_le_s hp
  cases hk : shapeKind shape with
  | native => simp only [shapeTable, hk]
  | sharded =>
    have hL := h.limb_bits.eight_le
    rw [shapeTable_sharded hk (show 1 ≤ g.l by omega), h.nl_eq, limbBuildTable_limbsOf _ refin slices hL (h.s_eq ▸ hp),
      ← h.s_eq, List.map_map]
    refine (List.map_congr_left fun v hv => ?_).trans (List.map_id _)
    rw [Function.comp_apply, ← h.nl_eq, h.limbVal_limbsOf_of_lt_s (hlt v hv), id]
  | twoLimb =>
    have hS := h.s_eq_of_twoLimb hk
    simp only [shapeTable, hk]
    rw [pairBuildTable_pairOf refin slices (hS ▸ hp), ← hS, List.map_map]
    refine (List.map_congr_left fun v hv => ?_).trans (List.map_id _)
    rw [Function.comp_apply, pairVal_pairOf (hS ▸ hlt v hv), id]

namespace Engine.Coherent

variable {maxWidth : Nat} {e : Engine} (he : e.Coherent maxWidth)
include he

theorem fits : ∃ n, e.geom.Fits e.shape e.width.toNat n := geometry_fits he.geom_eq

theorem eight_le_s : 8 ≤ e.s := by
  obtain ⟨_, h⟩ := he.fits
  exact h.eight_le_s

theorem width_le_s : e.width.toNat ≤ e.s := by
  obtain ⟨_, h⟩ := he.fits
  exact h.width_le_s

theorem moves_le_s : e.moves ≤ e.s := by
  obtain ⟨_, h⟩ := he.fits
  exact h.moves_le_s

/-- 45_engine_sharded.md R131, 46_engine_128.md R146: whatever the shape, a byte step is the S-bit rule. -/
theorem engineByteStep_eq {r b : Nat} (hr : r < 2 ^ e.s) (hb : b < 256) :
    engineByteStep e r b = byteStep e.s e.tmode e.refin e.polyP e.table r b := by
  obtain ⟨n, h⟩ := he.fits
  have hL : IsLimbBits e.l := h.limb_bits
  have hnl : e.nl = n + 1 := h.nl_eq
  have hs : e.s = e.l * (n + 1) := h.s_eq
  have hlt := byteStep_lt e.tmode e.refin he.eight_le_s he.polyP_lt he.table_lt hr hb
  cases hk : shapeKind e.shape with
  | native => simp only [engineByteStep, hk]
  | sharded =>
    have hp := he.polyP_lt
    rw [engineByteStep_sharded hk hL.eight_le, hnl]
    rw [hs] at hr hlt hp ⊢
    rw [limbByteStep_limbsOf _ e.tmode e.refin e.table hp hr hb, limbVal_limbsOf_of_lt hlt]
  | twoLimb =>
    have hS : e.s = 128 := h.s_eq_of_twoLimb hk
    have hp := he.polyP_lt
    simp only [engineByteStep, hk]
    rw [hS] at hr hlt hp ⊢
    rw [pairByteStep_pairOf e.tmode e.refin e.table hp hr hb, pairVal_pairOf hlt]

/-- 45_engine_sharded.md R133, 46_engine_128.md R147: whatever the shape, a block step is the S-bit rule. -/
theorem engineBlock16_eq {r : Nat} (d : List Nat) (hr : r < 2 ^ e.s) :
    engineBlock16 e r d = block16 e.s e.refin e.table r d := by
  obtain ⟨n, h⟩ := he.fits
  have hL : IsLimbBits e.l := h.limb_bits
  have hnl : e.nl = n + 1 := h.nl_eq
  have hs : e.s = e.l * (n + 1) := h.s_eq
  have hlt := block16_lt e.refin d he.table_lt hr
  cases hk : shapeKind e.shape with
  | native => simp only [engineBlock16, hk]
  | sharded =>
    rw [engineBlock16_sharded hk hL.eight_le, hnl]
    rw [hs] at hr hlt ⊢
    rw [limbBlock16_limbsOf _ hL.dvd_eight e.refin e.table d hr, limbVal_limbsOf_of_lt hlt]
  | twoLimb =>
    have hS : e.s = 128 := h.s_eq_of_twoLimb hk
    simp only [engineBlock16, hk]
    rw [hS] at hr hlt ⊢
    rw [pairBlock16_pairOf e.refin e.table d hr, pairVal_pairOf hlt]

end Engine.Coherent

end Sys2Proof.Machine
end

section
/-! What a command, and one step, does to the state, said once over all commands (10_state.md R10, column "Written by"). -/

namespace Sys2Proof.Machine

/-- The values that UPD, UPDB, FIN and RST write to REG (44_engine_native.md R102, R104, R107, R109). -/
inductive Engine.RegWrite (e : Engine) : Nat → Prop where
  | byte (b : Byte) : e.RegWrite (engineByteStep e e.reg b.toNat)
  | range (d : List Nat) (hd : ∀ b ∈ d, b < 256) : e.RegWrite (consume e e.reg d)
  | reload : e.RegWrite e.initP

/-- All that a command which answers a state can have done. -/
inductive ExecEffect (s : State) : Instr → State → Prop where
  /-- It raised a fault. -/
  | fault {i : Instr} {c : ErrCode} (hc : c ≠ .ok) : ExecEffect s i (raiseFault c s)
  /-- CFG committed a new engine. -/
  | commit {width : BitVec 16} {tsrc : TSrc} {tmode : TMode} {refout refin : Bool} {shape : Shape} {g : Geom}
      (hg : geometry s.plat.maxWidth shape width.toNat = some g) (hp : operandsBelowWidth width.toNat s.port = true)
      (ht : tsrc = .explicit → presentableList (tableCount tmode) g.s s.port.opTable = true) :
      ExecEffect s (.cfg width tsrc tmode refout refin shape)
        (respond .none { s with eng := newEngine g width tsrc tmode refout refin shape s.port })
  /-- It wrote REG and answered. -/
  | write {i : Instr} {p : Payload} {v : Nat} (hi : isCfg i = false) (hs : s.eng.status = .accumulating)
      (hv : s.eng.RegWrite v) : ExecEffect s i (respond p (setReg v s))
  /-- It answered and wrote nothing. -/
  | answer {i : Instr} {p : Payload} (hi : isCfg i = false) : ExecEffect s i (respond p s)

variable {s t : State}

theorem rangeBytes_lt : ∀ b ∈ rangeBytes s, b < 256 := by
  intro b hb
  obtain ⟨i, _, rfl⟩ := List.mem_map.mp hb
  exact (bufByte s.buf _).isLt

theorem exec_effect {i : Instr} (h : exec i s = .next t) : ExecEffect s i t := by
  cases i with
  | cfg width tsrc tmode refout refin shape =>
    obtain ⟨_, _, rfl⟩ | ⟨_, rfl⟩ | ⟨g, hg, hp, ht, _, rfl⟩ := execCfg_next h
    · exact .fault (by decide)
    · exact .fault (by decide)
    · exact .commit hg hp ht
  | upd b =>
    obtain ⟨_, rfl⟩ | ⟨hs, rfl⟩ := execUpd_next h
    · exact .fault (by decide)
    · exact .write rfl hs (.byte b)
  | updb =>
    obtain ⟨_, rfl⟩ | ⟨hs, _, _, _, rfl⟩ := execUpdb_next h
    · exact .fault (by decide)
    · exact .write rfl hs (.range _ rangeBytes_lt)
  | fin =>
    obtain ⟨_, rfl⟩ | ⟨hs, rfl⟩ := execFin_next h
    · exact .fault (by decide)
    · exact .write rfl hs .reload
  | rst =>
    obtain ⟨_, rfl⟩ | ⟨hs, rfl⟩ := execRst_next h
    · exact .fault (by decide)
    · exact .write rfl hs .reload
  | refl bw =>
    obtain rfl := execRefl_next h
    exact .answer rfl
  | reflm count lb =>
    obtain ⟨_, rfl⟩ := execReflm_next h
    exact .answer rfl
  | tclone =>
    obtain ⟨_, rfl⟩ | ⟨_, rfl⟩ := execTclone_next h
    · exact .fault (by decide)
    · exact .answer rfl

/-- What only the host and the platform own, no command changes (20_memory.md R36). -/
structure SameSurroundings (s t : State) : Prop where
  buf : t.buf = s.buf
  plat : t.plat = s.plat
  port : t.port = s.port
  inbox : t.inbox = s.inbox
  draws : t.draws = s.draws

theorem ExecEffect.sameSurroundings {i : Instr} (h : ExecEffect s i t) : SameSurroundings s t := by
  cases h with
  | fault => exact ⟨rfl, rfl, rfl, rfl, rfl⟩
  | commit => exact ⟨rfl, rfl, rfl, rfl, rfl⟩
  | write => exact ⟨rfl, rfl, rfl, rfl, rfl⟩
  | answer => exact ⟨rfl, rfl, rfl, rfl, rfl⟩

/-- R92, R201: a command other than CFG writes no register but REG and ERR. -/
theorem ExecEffect.eng_of_not_cfg {i : Instr} (h : ExecEffect s i t) (hi : isCfg i = false) :
    t.eng = { s.eng with reg := t.eng.reg, err := t.eng.err } := by
  cases h with
  | fault => rfl
  | commit => simp [isCfg] at hi
  | write => rfl
  | answer => rfl

/-- 60_exceptions.md R182: the response of a command and ERR go together. -/
theorem ExecEffect.response_err {i : Instr} (h : ExecEffect s i t) :
    ∃ r, t.responses = r :: s.responses ∧ (r.status ≠ .ok → t.eng.err = r.status ∧ r.payload = .none) ∧
      (r.status = .ok → t.eng.err = if isCfg i then .ok else s.eng.err) := by
  cases h with
  | fault hc => exact ⟨_, rfl, fun _ => ⟨rfl, rfl⟩, fun h => absurd h hc⟩
  | commit => exact ⟨_, rfl, fun h => absurd rfl h, fun _ => rfl⟩
  | write hi => exact ⟨_, rfl, fun h => absurd rfl h, fun _ => by simp [hi]⟩
  | answer hi => exact ⟨_, rfl, fun h => absurd rfl h, fun _ => by simp [hi]⟩

/-- Settles O25: the frame of every command, from what each can have done. -/
theorem commandFrames : Obligations.CommandFrames := by
  intro i s t h
  have heff := exec_effect h
  obtain ⟨hbuf, hplat, hport, hinbox, hdraws⟩ := heff.sameSurroundings
  refine ⟨fun a => by rw [memRead, memRead, hbuf], hbuf, hplat, hport, hinbox, hdraws, heff.eng_of_not_cfg, ?_, ?_, ?_, ?_⟩
  · rintro bw rfl
    rw [execRefl_next h, respond_eng]
  · rintro count lb rfl
    rw [(execReflm_next h).2, respond_eng]
  · rintro rfl
    obtain ⟨_, rfl⟩ | ⟨_, rfl⟩ := execTclone_next h
    · rfl
    · rfl
  · intro r hr hok hi
    obtain ⟨r', hr', _, herr⟩ := heff.response_err
    obtain rfl : r' = r := (List.cons.inj (hr'.symm.trans hr)).1
    simpa [hi] using herr hok

/-- A word the host issues alone runs on the state with its bundle at the port. -/
theorem runWord_of_step {cw : Word} {p : Bundle} {rest : List HostEvent} (hin : s.inbox = .command cw p [] :: rest)
    (h : step s = .next t) : runWord cw { s with port := p, inbox := rest } = .next t := by
  rwa [step_of_inbox_cons hin, serveEvent_command_nil] at h

theorem ErrCode.code_toNat_le (c : ErrCode) : c.code.toNat ≤ 3 := by
  cases c <;> decide

/-- Settles O11: every answer of a command word pairs its response with ERR, and POR clears ERR. -/
theorem errIsSticky : Obligations.ErrIsSticky := by
  intro s t rest hstep
  refine ⟨fun cw p r hin hr => ?_, fun hin => ?_, rfl, t.eng.err.code_toNat_le, rfl, rfl, rfl, rfl⟩
  · obtain ⟨i, hdec, hexec⟩ | ⟨_, rfl⟩ := runWord_next (runWord_of_step hin hstep)
    · obtain ⟨r', hr', hfault, hok⟩ := (exec_effect hexec).response_err
      obtain rfl : r' = r := (List.cons.inj (hr'.symm.trans hr)).1
      exact ⟨hfault, fun h => ⟨i, hdec, hok h⟩⟩
    · obtain rfl : _ = r := (List.cons.inj hr).1
      exact ⟨fun _ => ⟨rfl, rfl⟩, nofun⟩
  · rw [step_of_inbox_cons hin] at hstep
    cases hstep
    rfl

theorem hostRead_descriptor_of_unconfigured {n : Nat} (hs : s.eng.status = .unconfigured) (hn : 2 ≤ n) :
    hostRead n s = none := by
  obtain ⟨k, rfl⟩ := Nat.exists_eq_add_of_le' hn
  simp only [hostRead, hs]

theorem hostRead_above_flags {n : Nat} (hn : 7 ≤ n) : hostRead n s = none := by
  obtain ⟨k, rfl⟩ := Nat.exists_eq_add_of_le' hn
  cases hs : s.eng.status <;> simp only [hostRead, hs]

/-- The fields of FLAGS (10_state.md R24). -/
theorem flagsWord_fields (e : Engine) :
    let v : BitVec 16 := (flagsWord e).zeroExtend 16
    v.getLsbD 0 = e.refin ∧ v.getLsbD 1 = e.refout ∧ v.extractLsb' 2 2 = e.tmode.code ∧ v.extractLsb' 4 12 = 0 := by
  unfold flagsWord
  cases e.tmode <;> cases e.refout <;> cases e.refin <;> decide

/-- Settles O57: the read of each number, by STATE. -/
theorem hostReadsNumberedRegisters : Obligations.HostReadsNumberedRegisters := by
  intro s
  refine ⟨?_, rfl, fun hs n => hostRead_descriptor_of_unconfigured hs, fun hs => ?_⟩
  · cases hs : s.eng.status <;> simp [hostRead, hs, Phase.code]
  · refine ⟨by simp only [hostRead, hs], by simp only [hostRead, hs], ?_, by simp only [hostRead, hs],
      ⟨_, by simp only [hostRead, hs], flagsWord_fields s.eng⟩, fun n => hostRead_above_flags⟩
    cases hw : s.eng.withTable <;> simp [hostRead, hs, hw]

end Sys2Proof.Machine
end

section
/-! Two machines that differ while UNCONFIGURED in the unspecified registers alone (10_state.md R23). -/

namespace Sys2Proof.Machine

/-- All that the host sees of two machines is the same, and so is the engine once configured. -/
structure Alike (t u : State) : Prop where
  responses : t.responses = u.responses
  buf : t.buf = u.buf
  plat : t.plat = u.plat
  port : t.port = u.port
  inbox : t.inbox = u.inbox
  draws : t.draws = u.draws
  status : t.eng.status = u.eng.status
  err : t.eng.err = u.eng.err
  eng : t.eng.status = .accumulating → t.eng = u.eng

/-- Two outcomes: alike next states, or the same stop. -/
inductive AlikeOutcomes : Host.Outcome State Fault Refusal → Host.Outcome State Fault Refusal → Prop where
  | next {t u : State} (h : Alike t u) : AlikeOutcomes (.next t) (.next u)
  | fault (f : Fault) : AlikeOutcomes (.fault f) (.fault f)
  | refused (r : Refusal) : AlikeOutcomes (.refused r) (.refused r)

variable {t u : State}

theorem Alike.refl (t : State) : Alike t t := ⟨rfl, rfl, rfl, rfl, rfl, rfl, rfl, rfl, fun _ => rfl⟩

theorem Alike.hostRead_eq (h : Alike t u) (n : Nat) : hostRead n t = hostRead n u := by
  cases hs : t.eng.status with
  | accumulating =>
    have heng := h.eng hs
    simp only [hostRead, heng]
  | unconfigured =>
    have hu : u.eng.status = .unconfigured := h.status ▸ hs
    simp only [hostRead, h.err, hs, hu]

theorem Alike.deliver (h : Alike t u) (r : Response) : Alike (deliver r t) (deliver r u) :=
  { h with responses := congrArg (r :: ·) h.responses }

theorem Alike.setErr (h : Alike t u) (c : ErrCode) : Alike (setErr c t) (setErr c u) :=
  { h with err := rfl, eng := fun hs => congrArg (fun e : Engine => { e with err := c }) (h.eng hs) }

theorem Alike.raiseFault (h : Alike t u) (c : ErrCode) : Alike (raiseFault c t) (raiseFault c u) :=
  (h.setErr c).deliver _

theorem Alike.withEngine (h : Alike t u) (e : Engine) : Alike { t with eng := e } { u with eng := e } :=
  { h with status := rfl, err := rfl, eng := fun _ => rfl }

theorem Alike.withPort (h : Alike t u) (p : Bundle) : Alike { t with port := p } { u with port := p } :=
  { h with port := rfl }

theorem Alike.withInbox (h : Alike t u) (rest : List HostEvent) : Alike { t with inbox := rest } { u with inbox := rest } :=
  { h with inbox := rfl }

theorem Alike.withBuf (h : Alike t u) {m m' : Memory} (hm : m = m') : Alike { t with buf := m } { u with buf := m' } :=
  { h with buf := hm }

theorem Alike.withDraws (h : Alike t u) {n n' : Nat} (hn : n = n') : Alike { t with draws := n } { u with draws := n' } :=
  { h with draws := hn }

/-- Every command leaves alike UNCONFIGURED machines alike: it faults, or commits the same engine, or reads the bundle alone. -/
theorem Alike.exec (h : Alike t u) (ht : t.eng.status = .unconfigured) (i : Instr) : AlikeOutcomes (exec i t) (exec i u) := by
  have hu : u.eng.status = .unconfigured := h.status ▸ ht
  cases i with
  | cfg width tsrc tmode refout refin shape =>
    simp only [Machine.exec, execCfg, ← h.plat, ← h.port]
    split
    · exact .next (h.raiseFault _)
    · split
      · exact .next (h.raiseFault _)
      · split
        · exact .refused _
        · split
          · exact .refused _
          · refine .next (Alike.deliver ?_ _)
            exact { h with plat := rfl, port := rfl, status := rfl, err := rfl, eng := fun _ => rfl }
  | upd b =>
    simp only [Machine.exec, execUpd, ht, hu]
    exact .next (h.raiseFault _)
  | updb =>
    simp only [Machine.exec, execUpdb, ht, hu]
    exact .next (h.raiseFault _)
  | fin =>
    simp only [Machine.exec, execFin, ht, hu]
    exact .next (h.raiseFault _)
  | rst =>
    simp only [Machine.exec, execRst, ht, hu]
    exact .next (h.raiseFault _)
  | refl bw =>
    simp only [Machine.exec, execRefl, h.port]
    exact .next (h.deliver _)
  | reflm count lb =>
    simp only [Machine.exec, execReflm, h.port]
    split
    · exact .next (h.deliver _)
    · exact .refused _
  | tclone =>
    simp only [Machine.exec, execTclone, ht, hu]
    exact .next (h.raiseFault _)

theorem Alike.runWord (h : Alike t u) (ht : t.eng.status = .unconfigured) (cw : Word) :
    AlikeOutcomes (runWord cw t) (runWord cw u) := by
  unfold Machine.runWord
  split
  · exact h.exec ht _
  · exact .next (h.raiseFault _)

theorem Alike.hostWrite (h : Alike t u) (a : Nat) (b : Byte) : AlikeOutcomes (hostWrite a b t) (hostWrite a b u) := by
  unfold Machine.hostWrite
  simp only [← h.plat]
  split
  · refine .next ?_
    exact { h with buf := congrArg (fun m : Memory => m.write a b) h.buf, plat := rfl }
  · exact .fault _

theorem Alike.hostWrites (h : Alike t u) (ws : List Host.Cell) : AlikeOutcomes (hostWrites ws t) (hostWrites ws u) := by
  induction ws generalizing t u with
  | nil => exact .next h
  | cons w rest ih =>
    have hw := h.hostWrite w.1 w.2
    simp only [Machine.hostWrites]
    generalize Machine.hostWrite w.1 w.2 t = o at hw ⊢
    generalize Machine.hostWrite w.1 w.2 u = o' at hw ⊢
    cases hw with
    | next h' => exact ih h'
    | fault f => exact .fault f
    | refused r => exact .refused r

theorem Alike.serveAmidWrites (h : Alike t u) (ht : t.eng.status = .unconfigured) (cw : Word) (ws : List Host.Cell) :
    AlikeOutcomes (serveAmidWrites cw ws t) (serveAmidWrites cw ws u) := by
  have hseen : seenBuf t.draws ws t.buf = seenBuf u.draws ws u.buf := by rw [h.buf, h.draws]
  have hrun := (h.withBuf hseen).runWord ht cw
  unfold Machine.serveAmidWrites
  generalize Machine.runWord cw { t with buf := seenBuf t.draws ws t.buf } = o at hrun ⊢
  generalize Machine.runWord cw { u with buf := seenBuf u.draws ws u.buf } = o' at hrun ⊢
  cases hrun with
  | next h' => exact ((h'.withBuf h.buf).withDraws (congrArg (· + ws.length) h.draws)).hostWrites ws
  | fault f => exact .fault f
  | refused r => exact .refused r

theorem Alike.serveEvent (h : Alike t u) (ht : t.eng.status = .unconfigured) (ev : HostEvent) :
    AlikeOutcomes (serveEvent ev t) (serveEvent ev u) := by
  cases ev with
  | command cw p ws =>
    cases ws with
    | nil => exact (h.withPort p).runWord ht cw
    | cons w ws => exact (h.withPort p).serveAmidWrites ht cw (w :: ws)
  | bufWrite a b => exact h.hostWrite a b
  | por => exact .next (h.withEngine _)

theorem Alike.step (h : Alike t u) (ht : t.eng.status = .unconfigured) : AlikeOutcomes (step t) (step u) := by
  cases hin : t.inbox with
  | nil =>
    rw [step_of_inbox_nil hin, step_of_inbox_nil (h.inbox ▸ hin)]
    exact .next h
  | cons ev rest =>
    rw [step_of_inbox_cons hin, step_of_inbox_cons (h.inbox ▸ hin)]
    exact (h.withInbox rest).serveEvent ht ev

/-- Settles O55: the two machines are alike before the step, so they are after it. -/
theorem unspecifiedRegistersNeverMatter : Obligations.UnspecifiedRegistersNeverMatter := by
  intro s e hs he herr
  have halike : Alike s { s with eng := e } :=
    { Alike.refl s with status := hs.trans he.symm, err := herr.symm, eng := fun h => nomatch hs.symm.trans h }
  have hstep := halike.step hs
  generalize step s = o at hstep ⊢
  generalize step { s with eng := e } = o' at hstep ⊢
  cases hstep with
  | next h =>
    exact ⟨h.responses, h.buf, h.plat, h.port, h.inbox, h.draws, h.status, h.err, h.hostRead_eq, h.eng⟩
  | fault f => rfl
  | refused r => rfl

end Sys2Proof.Machine
end

section
/-! The invariant of the whole model: what one step can do to the engine and to BUF, and that each of these keeps it. -/

namespace Sys2Proof.Machine

/-- All that one step can do to the engine of a machine with this MAX_WIDTH. -/
inductive EngineStep (maxWidth : Nat) (e : Engine) : Engine → Prop where
  | unchanged : EngineStep maxWidth e e
  | fault (c : ErrCode) : EngineStep maxWidth e { e with err := c }
  | write {v : Nat} (hs : e.status = .accumulating) (hv : e.RegWrite v) : EngineStep maxWidth e { e with reg := v }
  | commit {width : BitVec 16} {tsrc : TSrc} {tmode : TMode} {refout refin : Bool} {shape : Shape} {g : Geom} {p : Bundle}
      (hg : geometry maxWidth shape width.toNat = some g) (hp : operandsBelowWidth width.toNat p = true)
      (ht : tsrc = .explicit → presentableList (tableCount tmode) g.s p.opTable = true) :
      EngineStep maxWidth e (newEngine g width tsrc tmode refout refin shape p)
  | reset : EngineStep maxWidth e Engine.reset

variable {s t : State}

theorem ExecEffect.engineStep {i : Instr} (h : ExecEffect s i t) : EngineStep s.plat.maxWidth s.eng t.eng := by
  cases h with
  | fault => exact .fault _
  | commit hg hp ht => exact .commit hg hp ht
  | write _ hs hv => exact .write hs hv
  | answer => exact .unchanged

theorem runWord_effect {cw : Word} (h : runWord cw s = .next t) :
    SameSurroundings s t ∧ EngineStep s.plat.maxWidth s.eng t.eng := by
  obtain ⟨i, _, hexec⟩ | ⟨_, rfl⟩ := runWord_next h
  · exact ⟨(exec_effect hexec).sameSurroundings, (exec_effect hexec).engineStep⟩
  · exact ⟨⟨rfl, rfl, rfl, rfl, rfl⟩, .fault _⟩

/-- One step: what the engine can become, that the platform stays, and that BUF takes writes at existing addresses. -/
theorem step_effect (h : step s = .next t) :
    EngineStep s.plat.maxWidth s.eng t.eng ∧ t.plat = s.plat ∧
      ∃ ws : List Host.Cell, (∀ w ∈ ws, w.1 < 2 ^ s.plat.addrBits) ∧
        t.buf = ws.foldl (fun m w => m.write w.1 w.2) s.buf := by
  obtain ⟨_, rfl⟩ | ⟨cw, p, ws, rest, _, hcmd⟩ | ⟨a, b, rest, _, hwrite⟩ | ⟨rest, _, rfl⟩ := step_next h
  · exact ⟨.unchanged, rfl, [], by simp, rfl⟩
  · obtain ⟨_, hrun⟩ | ⟨_, hamid⟩ := serveCommand_next hcmd
    · obtain ⟨hsame, heng⟩ := runWord_effect hrun
      exact ⟨heng, hsame.plat, [], by simp, hsame.buf⟩
    · obtain ⟨u, hrun, hws⟩ := serveAmidWrites_next hamid
      obtain ⟨hsame, heng⟩ := runWord_effect hrun
      obtain ⟨hinside, rfl⟩ := hostWrites_next hws
      have hplat : u.plat = s.plat := hsame.plat
      exact ⟨heng, hplat, ws, fun w hw => hplat ▸ hinside w hw, rfl⟩
  · obtain ⟨ha, rfl⟩ := hostWrite_next hwrite
    exact ⟨.unchanged, rfl, [(a, b)], by simpa using ha, rfl⟩
  · exact ⟨.reset, rfl, [], by simp, rfl⟩

theorem Memory.wf_foldl_write {m : Memory} (ws : List Host.Cell) (hm : m.wf = true) :
    (ws.foldl (fun m w => m.write w.1 w.2) m).wf = true := by
  induction ws generalizing m with
  | nil => exact hm
  | cons w ws ih => exact ih (m.wf_write w.1 w.2 hm)

theorem Memory.foldl_write_inside {bound : Nat} {m : Memory} {ws : List Host.Cell} (hws : ∀ w ∈ ws, w.1 < bound)
    (hm : ∀ c ∈ m, c.1 < bound) : ∀ c ∈ ws.foldl (fun m w => m.write w.1 w.2) m, c.1 < bound := by
  induction ws generalizing m with
  | nil => exact hm
  | cons w ws ih =>
    refine ih (fun x hx => hws x (by simp [hx])) fun c hc => ?_
    obtain rfl | hc := Memory.mem_write hc
    · exact hws w (by simp)
    · exact hm c hc

/-! ### What CFG commits -/

theorem lt_of_operandsBelowWidth {width : Nat} {p : Bundle} (h : operandsBelowWidth width p = true) :
    p.opPoly < 2 ^ width ∧ p.opInit < 2 ^ width ∧ p.opXorout < 2 ^ width := by
  simpa [operandsBelowWidth, and_assoc] using h

theorem of_presentableList {count bits : Nat} {xs : List Nat} (h : presentableList count bits xs = true) :
    xs.length = count ∧ ∀ x ∈ xs, x < 2 ^ bits := by
  simpa [presentableList] using h

theorem tableSlices_mul (tmode : TMode) : tableSlices tmode * 256 = tableCount tmode := by
  cases tmode <;> rfl

section Commit

variable {maxWidth : Nat} {width : BitVec 16} {tsrc : TSrc} {tmode : TMode} {refout refin : Bool} {shape : Shape} {g : Geom}
  {p : Bundle}

/-- 44_engine_native.md R101: the committed POLY_P, INIT_P and XOROUT_P are those of the S-bit rules. -/
theorem newEngine_constants (hg : geometry maxWidth shape width.toNat = some g)
    (hp : operandsBelowWidth width.toNat p = true) :
    (newEngine g width tsrc tmode refout refin shape p).polyP = parse p.opPoly g.s width.toNat refin ∧
      (newEngine g width tsrc tmode refout refin shape p).initP = parse p.opInit g.s width.toNat refin ∧
      (newEngine g width tsrc tmode refout refin shape p).xoroutP = p.opXorout := by
  obtain ⟨n, h⟩ := geometry_fits hg
  obtain ⟨hpoly, hinit, hxorout⟩ := lt_of_operandsBelowWidth hp
  exact ⟨shapeParse_eq_parse h refin hpoly, shapeParse_eq_parse h refin hinit, shapeTruncate_eq h hxorout⟩

/-- 43_tablebuilder.md R88 to R93: the committed table is the built one, or the presented one. -/
theorem newEngine_table (hg : geometry maxWidth shape width.toNat = some g)
    (hp : operandsBelowWidth width.toNat p = true) :
    let e := newEngine g width tsrc tmode refout refin shape p
    e.table = buildTable g.s e.polyP refin (tableSlices tmode) ∨ (tsrc = .explicit ∧ e.table = p.opTable) := by
  obtain ⟨n, h⟩ := geometry_fits hg
  have hpoly : shapeParse shape g refin p.opPoly < 2 ^ g.s := by
    have hlt := (lt_of_operandsBelowWidth hp).1
    rw [shapeParse_eq_parse h refin hlt]
    exact parse_lt refin (hlt.trans_le (Nat.pow_le_pow_right (by decide) h.width_le_s))
  cases tmode <;> cases tsrc
  · exact .inl rfl
  · exact .inl rfl
  · exact .inl (shapeTable_eq_buildTable h refin 1 hpoly)
  · exact .inr ⟨rfl, rfl⟩
  · exact .inl (shapeTable_eq_buildTable h refin 16 hpoly)
  · exact .inr ⟨rfl, rfl⟩

/-- 10_state.md R16 to R20: the committed registers hang together. -/
theorem newEngine_coherent (hg : geometry maxWidth shape width.toNat = some g)
    (hp : operandsBelowWidth width.toNat p = true)
    (ht : tsrc = .explicit → presentableList (tableCount tmode) g.s p.opTable = true) :
    (newEngine g width tsrc tmode refout refin shape p).Coherent maxWidth := by
  obtain ⟨n, h⟩ := geometry_fits hg
  obtain ⟨hpoly, hinit, hxorout⟩ := lt_of_operandsBelowWidth hp
  obtain ⟨hpolyP, hinitP, hxoroutP⟩ := newEngine_constants (tsrc := tsrc) (tmode := tmode) (refout := refout)
    (refin := refin) hg hp
  have hparse : ∀ raw, raw < 2 ^ width.toNat → parse raw g.s width.toNat refin < 2 ^ g.s := fun raw hraw =>
    parse_lt refin (hraw.trans_le (Nat.pow_le_pow_right (by decide) h.width_le_s))
  have htable : (newEngine g width tsrc tmode refout refin shape p).table.length = tableCount tmode ∧
      ∀ t ∈ (newEngine g width tsrc tmode refout refin shape p).table, t < 2 ^ g.s := by
    obtain hbuilt | ⟨hsrc, hexplicit⟩ := newEngine_table (tsrc := tsrc) (tmode := tmode) (refout := refout)
      (refin := refin) hg hp
    · rw [hbuilt, buildTable_length, tableSlices_mul, hpolyP]
      exact ⟨rfl, buildTable_lt refin _ h.eight_le_s (hparse _ hpoly)⟩
    · rw [hexplicit]
      exact of_presentableList (ht hsrc)
  have hinitP_lt : (newEngine g width tsrc tmode refout refin shape p).initP < 2 ^ g.s := hinitP ▸ hparse _ hinit
  exact
    { geom_eq := hg
      cklen_eq := rfl
      withTable_eq := rfl
      table_length := htable.1
      table_lt := htable.2
      polyP_lt := hpolyP ▸ hparse _ hpoly
      initP_lt := hinitP_lt
      reg_lt := hinitP_lt
      xoroutP_lt := hxoroutP ▸ hxorout }

end Commit

/-! ### What REG takes -/

section Consume

variable {e : Engine} {P : Nat → Prop} (hbyte : ∀ r b, P r → b < 256 → P (engineByteStep e r b))
  (hblock : ∀ r d, P r → P (engineBlock16 e r d))

include hbyte in
theorem feedBytes_of_forall {r : Nat} {d : List Nat} (hr : P r) (hd : ∀ b ∈ d, b < 256) : P (feedBytes e r d) := by
  induction d generalizing r with
  | nil => exact hr
  | cons b d ih => exact ih (hbyte r b hr (hd b (by simp))) fun x hx => hd x (by simp [hx])

include hblock in
theorem feedBlocks_of_forall (k : Nat) {r : Nat} (d : List Nat) (hr : P r) : P (feedBlocks e k r d) := by
  induction k generalizing r d with
  | zero => exact hr
  | succ k ih => exact ih _ (hblock r _ hr)

include hbyte hblock in
theorem consume_of_forall {r : Nat} {d : List Nat} (hr : P r) (hd : ∀ b ∈ d, b < 256) : P (consume e r d) := by
  unfold consume
  cases e.tmode with
  | none => exact feedBytes_of_forall hbyte hr hd
  | t256 => exact feedBytes_of_forall hbyte hr hd
  | t4096 =>
    exact feedBytes_of_forall hbyte (feedBlocks_of_forall hblock _ d hr) fun b hb => hd b (List.mem_of_mem_drop hb)

include hbyte hblock in
/-- What REG and INIT_P have, and byte and block steps keep, every value written to REG has. -/
theorem Engine.RegWrite.of_forall {v : Nat} (hv : e.RegWrite v) (hreg : P e.reg) (hinit : P e.initP) : P v := by
  cases hv with
  | byte b => exact hbyte _ _ hreg b.isLt
  | range d hd => exact consume_of_forall hbyte hblock hreg hd
  | reload => exact hinit

end Consume

namespace Engine.Coherent

variable {maxWidth : Nat} {e : Engine} (he : e.Coherent maxWidth)
include he

theorem engineByteStep_lt {r b : Nat} (hr : r < 2 ^ e.s) (hb : b < 256) : engineByteStep e r b < 2 ^ e.s := by
  rw [he.engineByteStep_eq hr hb]
  exact byteStep_lt _ _ he.eight_le_s he.polyP_lt he.table_lt hr hb

theorem engineBlock16_lt {r : Nat} (d : List Nat) (hr : r < 2 ^ e.s) : engineBlock16 e r d < 2 ^ e.s := by
  rw [he.engineBlock16_eq d hr]
  exact block16_lt _ _ he.table_lt hr

theorem regWrite_lt {v : Nat} (hv : e.RegWrite v) : v < 2 ^ e.s :=
  hv.of_forall (P := (· < 2 ^ e.s)) (fun _ _ => he.engineByteStep_lt) (fun _ d => he.engineBlock16_lt d) he.reg_lt
    he.initP_lt

end Engine.Coherent

/-- 10_state.md R16 to R20: every step keeps a configured engine's registers together. -/
theorem EngineStep.keeps_coherent {maxWidth : Nat} {e e' : Engine} (h : EngineStep maxWidth e e')
    (he : e.status = .accumulating → e.Coherent maxWidth) : e'.status = .accumulating → e'.Coherent maxWidth := by
  intro hs'
  cases h with
  | unchanged => exact he hs'
  | fault c => exact { he hs' with }
  | write hs hv => exact { he hs with reg_lt := (he hs).regWrite_lt hv }
  | commit hg hp ht => exact newEngine_coherent hg hp ht
  | reset => cases hs'

/-- Settles O53: the engine by what a step can do to it, BUF by what a write keeps. -/
theorem stepKeepsInvariant : Obligations.StepKeepsInvariant := by
  intro s t hinv hstep
  obtain ⟨heng, hplat, ws, hws, hbuf⟩ := step_effect hstep
  refine ⟨⟨?_, ?_, ?_, ?_⟩, hplat⟩
  · rw [hplat]
    exact hinv.platform
  · rw [hbuf]
    exact Memory.wf_foldl_write ws hinv.buf_wf
  · rw [hbuf, hplat]
    exact Memory.foldl_write_inside hws hinv.buf_inside
  · rw [hplat]
    exact heng.keeps_coherent hinv.configured

end Sys2Proof.Machine
end

section
/-! The padding of a configured engine with the built table stays zero (10_state.md R25). -/

namespace Sys2Proof.Machine

/-! ### Forward: the low bits are zero -/

theorem shl_mod_two_pow {S m : Nat} (v k : Nat) (hm : m ≤ S) : shl S v k % 2 ^ m = v * 2 ^ k % 2 ^ m := by
  rw [shl, Nat.mod_mod_of_dvd _ (pow_dvd_pow 2 hm)]

theorem shl_padding {S m v : Nat} (k : Nat) (hm : m ≤ S) (hv : v % 2 ^ m = 0) : shl S v k % 2 ^ m = 0 := by
  rw [shl_mod_two_pow v k hm, Nat.mul_mod, hv, Nat.zero_mul, Nat.zero_mod]

theorem bitStepF_mod {S p m : Nat} (r : Nat) (hm : m ≤ S) (hp : p % 2 ^ m = 0) :
    bitStepF S p r % 2 ^ m = r * 2 % 2 ^ m := by
  have hshl := shl_mod_two_pow r 1 hm
  rw [pow_one] at hshl
  unfold bitStepF
  split
  · rw [Nat.xor_mod_two_pow, hp, Nat.xor_zero, hshl]
  · exact hshl

/-- Below the padding boundary a forward `Div` is a shift by eight bits. -/
theorem divF_mod {S p m : Nat} (r : Nat) (hm : m ≤ S) (hp : p % 2 ^ m = 0) : divF S p r % 2 ^ m = r * 2 ^ 8 % 2 ^ m := by
  have hiter : ∀ k, (bitStepF S p)^[k] r % 2 ^ m = r * 2 ^ k % 2 ^ m := fun k => by
    induction k with
    | zero => simp
    | succ k ih =>
      rw [Function.iterate_succ_apply', bitStepF_mod _ hm hp, Nat.mul_mod, ih, ← Nat.mul_mod, Nat.mul_assoc, pow_succ]
  exact hiter 8

/-- A byte that enters at the top leaves by the top in eight steps. -/
theorem divF_padding {S p m r b : Nat} (hS : 8 ≤ S) (hm : m ≤ S) (hp : p % 2 ^ m = 0) (hr : r % 2 ^ m = 0) (hb : b < 256) :
    divF S p (r ^^^ shl S b (S - 8)) % 2 ^ m = 0 := by
  have hout : shl S b (S - 8) * 2 ^ 8 % 2 ^ m = 0 := by
    rw [shl_byte hS hb, Nat.mul_assoc, ← pow_add, show S - 8 + 8 = S by omega]
    exact Nat.mod_eq_zero_of_dvd (Dvd.dvd.mul_left (pow_dvd_pow 2 hm) b)
  have hreg : r * 2 ^ 8 % 2 ^ m = 0 := by rw [Nat.mul_mod, hr, Nat.zero_mul, Nat.zero_mod]
  rw [divF_mod _ hm hp, ← Nat.shiftLeft_eq, Nat.shiftLeft_xor_distrib, Nat.shiftLeft_eq, Nat.shiftLeft_eq,
    Nat.xor_mod_two_pow, hreg, hout, Nat.xor_zero]

/-! ### Reflected: the high bits are zero -/

theorem bitStepR_lt_of_succ {p r w : Nat} (hp : p < 2 ^ w) (hr : r < 2 ^ (w + 1)) : bitStepR p r < 2 ^ w := by
  have hshr : shr r 1 < 2 ^ w := by
    rw [shr, Nat.div_lt_iff_lt_mul (by decide), ← pow_add]
    exact hr
  unfold bitStepR
  split
  · exact Nat.xor_lt_two_pow hshr hp
  · exact hshr

/-- A reflected `Div` drops eight bits. -/
theorem divR_padding {p r w : Nat} (hp : p < 2 ^ w) (hr : r < 2 ^ (w + 8)) : divR p r < 2 ^ w := by
  have hiter : ∀ k r, r < 2 ^ (w + k) → (bitStepR p)^[k] r < 2 ^ w := fun k => by
    induction k with
    | zero => exact fun r hr => hr
    | succ k ih =>
      intro r hr
      rw [Function.iterate_succ_apply]
      exact ih _ (bitStepR_lt_of_succ (hp.trans_le (Nat.pow_le_pow_right (by decide) (Nat.le_add_right w k))) hr)
  exact hiter 8 r hr

/-- The mirror of a number with its low bits zero has its high bits zero. -/
theorem reflect_shl_lt {S width : Nat} (raw : Nat) (h : width ≤ S) :
    reflect S (shl S raw (S - width)) < 2 ^ width := by
  refine Nat.lt_pow_two_of_testBit _ fun i hi => ?_
  by_cases hiS : i < S
  · simp [hiS, show ¬ S - width ≤ S - 1 - i by omega]
  · simp [hiS]

/-! ### The padding of an engine's registers -/

namespace Engine.PaddingZero

variable {e : Engine} {a b : Nat}

theorem iff_of_forward (h : e.refin = false) : e.PaddingZero a ↔ a % 2 ^ e.moves = 0 := by
  simp [Engine.PaddingZero, h]

theorem iff_of_reflected (h : e.refin = true) : e.PaddingZero a ↔ a < 2 ^ e.width.toNat := by
  simp [Engine.PaddingZero, h]

theorem zero (e : Engine) : e.PaddingZero 0 := by
  cases h : e.refin with
  | false => exact (iff_of_forward h).mpr (Nat.zero_mod _)
  | true => exact (iff_of_reflected h).mpr (Nat.two_pow_pos _)

theorem xor (ha : e.PaddingZero a) (hb : e.PaddingZero b) : e.PaddingZero (a ^^^ b) := by
  cases h : e.refin with
  | false =>
    rw [iff_of_forward h] at *
    rw [Nat.xor_mod_two_pow, ha, hb, Nat.xor_zero]
  | true =>
    rw [iff_of_reflected h] at *
    exact Nat.xor_lt_two_pow ha hb

theorem shift (hm : e.moves ≤ e.s) (k : Nat) (ha : e.PaddingZero a) :
    e.PaddingZero (if e.refin then shr a k else shl e.s a k) := by
  cases h : e.refin with
  | false =>
    rw [iff_of_forward h] at *
    simpa using shl_padding k hm ha
  | true =>
    rw [iff_of_reflected h] at *
    simpa using (shr_le a k).trans_lt ha

end Engine.PaddingZero

namespace Engine.Coherent

variable {maxWidth : Nat} {e : Engine} (he : e.Coherent maxWidth)
include he

theorem moves_eq : e.moves = e.s - e.width.toNat := by
  obtain ⟨_, h⟩ := he.fits
  exact h.moves_eq_sub

/-- 42_normalizer.md R78: `parse` puts zeros in the padding. -/
theorem paddingZero_parse (raw : Nat) :
    e.PaddingZero (parse raw e.s e.width.toNat e.refin) := by
  cases h : e.refin with
  | false =>
    rw [Engine.PaddingZero.iff_of_forward h, he.moves_eq]
    simp only [parse, parseWith, Bool.false_eq_true, if_false]
    split
    · rw [shl_mod_two_pow raw _ (Nat.sub_le _ _), Nat.mul_mod_left]
    · rw [show e.s - e.width.toNat = 0 by omega, pow_zero, Nat.mod_one]
  | true =>
    rw [Engine.PaddingZero.iff_of_reflected h]
    simp only [parse, parseWith, if_true]
    split
    · exact reflect_shl_lt raw he.width_le_s
    · have hS : e.s = e.width.toNat := by
        have := he.width_le_s
        omega
      exact hS ▸ reflect_lt _ _

/-- A bit-serial byte step keeps the padding zero, also where the byte is wider than the register's WIDTH. -/
theorem paddingZero_divStep {r b : Nat} (hp : e.PaddingZero e.polyP) (hr : e.PaddingZero r) (hb : b < 256) :
    e.PaddingZero (divStep e.s e.polyP e.refin (r ^^^ tableSeed e.s e.refin b)) := by
  cases h : e.refin with
  | false =>
    rw [Engine.PaddingZero.iff_of_forward h] at *
    exact divF_padding he.eight_le_s he.moves_le_s hp hr hb
  | true =>
    rw [Engine.PaddingZero.iff_of_reflected h] at *
    have hr8 : r < 2 ^ (e.width.toNat + 8) := hr.trans_le (Nat.pow_le_pow_right (by decide) (Nat.le_add_right _ _))
    exact divR_padding hp (Nat.xor_lt_two_pow hr8 (byte_lt_two_pow (Nat.le_add_left _ _) hb))

theorem paddingZero_buildTable (hp : e.PaddingZero e.polyP) (slices : Nat) :
    ∀ t ∈ buildTable e.s e.polyP e.refin slices, e.PaddingZero t := by
  refine forall_mem_buildTable slices (fun i hi => ?_) fun v hv => ?_
  · simpa using he.paddingZero_divStep hp (Engine.PaddingZero.zero e) hi
  · have hseed : tableSeed e.s e.refin 0 = 0 := by cases e.refin <;> simp [tableSeed, shl]
    have hstep := he.paddingZero_divStep hp hv (show 0 < 256 by decide)
    rwa [hseed, Nat.xor_zero] at hstep

theorem paddingZero_byteStep {r b : Nat} (hp : e.PaddingZero e.polyP) (ht : ∀ t ∈ e.table, e.PaddingZero t)
    (hr : e.PaddingZero r) (hb : b < 256) : e.PaddingZero (byteStep e.s e.tmode e.refin e.polyP e.table r b) := by
  have hserial := he.paddingZero_divStep hp hr hb
  have hshift := hr.shift he.moves_le_s 8
  have hentry := tableAt_of_forall_mem (Engine.PaddingZero.zero e) ht
  generalize hrefin : e.refin = refin at hserial hshift ⊢
  match e.tmode, refin with
  | .none, false => exact hserial
  | .none, true => exact hserial
  | .t256, false | .t4096, false => exact hshift.xor (hentry _)
  | .t256, true | .t4096, true => exact hshift.xor (hentry _)

theorem paddingZero_block16 {r : Nat} (d : List Nat) (ht : ∀ t ∈ e.table, e.PaddingZero t) (hr : e.PaddingZero r) :
    e.PaddingZero (block16 e.s e.refin e.table r d) :=
  block16_of_forall d (Engine.PaddingZero.zero e) (fun _ _ => Engine.PaddingZero.xor) ht (hr.shift he.moves_le_s 128)

end Engine.Coherent

/-- R25 of one engine: every register's padding is zero. -/
structure Engine.Padded (e : Engine) : Prop where
  reg : e.PaddingZero e.reg
  polyP : e.PaddingZero e.polyP
  initP : e.PaddingZero e.initP
  table : ∀ t ∈ e.table, e.PaddingZero t
  xoroutP : e.xoroutP < 2 ^ e.width.toNat

theorem paddingInv_iff (s : State) :
    s.PaddingInv ↔ (s.eng.status = .accumulating → s.eng.TableBuilt → s.eng.Padded) := by
  constructor
  · intro h hs hb
    obtain ⟨hreg, hpoly, hinit, htable, hxorout⟩ := h hs hb
    exact ⟨hreg, hpoly, hinit, htable, hxorout⟩
  · intro h hs hb
    obtain ⟨hreg, hpoly, hinit, htable, hxorout⟩ := h hs hb
    exact ⟨hreg, hpoly, hinit, htable, hxorout⟩

/-- Every value written to REG has zero padding. -/
theorem Engine.Padded.regWrite {maxWidth v : Nat} {e : Engine} (h : e.Padded) (he : e.Coherent maxWidth)
    (hv : e.RegWrite v) : e.PaddingZero v := by
  have hall : v < 2 ^ e.s ∧ e.PaddingZero v := by
    refine hv.of_forall (P := fun r => r < 2 ^ e.s ∧ e.PaddingZero r) ?_ ?_ ⟨he.reg_lt, h.reg⟩ ⟨he.initP_lt, h.initP⟩
    · rintro r b ⟨hr, hpad⟩ hb
      refine ⟨he.engineByteStep_lt hr hb, ?_⟩
      rw [he.engineByteStep_eq hr hb]
      exact he.paddingZero_byteStep h.polyP h.table hpad hb
    · rintro r d ⟨hr, hpad⟩
      refine ⟨he.engineBlock16_lt d hr, ?_⟩
      rw [he.engineBlock16_eq d hr]
      exact he.paddingZero_block16 d h.table hpad
  exact hall.2

/-- R25 of the engine that CFG commits, where its table is the built one. -/
theorem newEngine_padded {maxWidth : Nat} {width : BitVec 16} {tsrc : TSrc} {tmode : TMode} {refout refin : Bool}
    {shape : Shape} {g : Geom} {p : Bundle} (hg : geometry maxWidth shape width.toNat = some g)
    (hp : operandsBelowWidth width.toNat p = true)
    (he : (newEngine g width tsrc tmode refout refin shape p).Coherent maxWidth)
    (hbuilt : (newEngine g width tsrc tmode refout refin shape p).TableBuilt) :
    (newEngine g width tsrc tmode refout refin shape p).Padded := by
  obtain ⟨hpolyP, hinitP, _⟩ := newEngine_constants (tsrc := tsrc) (tmode := tmode) (refout := refout)
    (refin := refin) hg hp
  generalize heng : newEngine g width tsrc tmode refout refin shape p = e at *
  have hs : e.s = g.s := heng ▸ rfl
  have hwidth : e.width = width := heng ▸ rfl
  have hrefin : e.refin = refin := heng ▸ rfl
  have hreg : e.reg = e.initP := heng ▸ rfl
  rw [← hs, ← hwidth, ← hrefin] at hpolyP hinitP
  have hpolyZero : e.PaddingZero e.polyP := hpolyP ▸ he.paddingZero_parse _
  have hinitZero : e.PaddingZero e.initP := hinitP ▸ he.paddingZero_parse _
  exact
    { reg := hreg ▸ hinitZero
      polyP := hpolyZero
      initP := hinitZero
      table := hbuilt ▸ he.paddingZero_buildTable hpolyZero _
      xoroutP := he.xoroutP_lt }

/-- R25: every step keeps the padding zero. -/
theorem EngineStep.keeps_padded {maxWidth : Nat} {e e' : Engine} (h : EngineStep maxWidth e e')
    (hc : e.status = .accumulating → e.Coherent maxWidth) (hp : e.status = .accumulating → e.TableBuilt → e.Padded) :
    e'.status = .accumulating → e'.TableBuilt → e'.Padded := by
  intro hs' hbuilt
  cases h with
  | unchanged => exact hp hs' hbuilt
  | fault c => exact { hp hs' hbuilt with }
  | write hs hv => exact { hp hs hbuilt with reg := (hp hs hbuilt).regWrite (hc hs) hv }
  | commit hg hop ht => exact newEngine_padded hg hop (newEngine_coherent hg hop ht) hbuilt
  | reset => cases hs'

/-- Settles O54: whatever a step does to the engine keeps R25. -/
theorem paddingStaysZero : Obligations.PaddingStaysZero := by
  intro s t hinv hpad hstep
  obtain ⟨heng, _⟩ := step_effect hstep
  exact (paddingInv_iff t).mpr (heng.keeps_padded hinv.configured ((paddingInv_iff s).mp hpad))

end Sys2Proof.Machine
end

section
/-! BUF under commands and host writes (20_memory.md): a command answers the same on every BUF that agrees on what it reads, and
a step amid writes is the command on the BUF it sees, after which the writes have landed. -/

namespace Sys2Proof.Machine

variable {s : State}

/-! ### `mapNext` -/

@[simp] theorem mapNext_next (f : State → State) (t : State) : mapNext f (.next t) = .next (f t) := rfl

@[simp] theorem mapNext_fault (f : State → State) (r : Fault) : mapNext f (.fault r) = .fault r := rfl

@[simp] theorem mapNext_refused (f : State → State) (r : Refusal) : mapNext f (.refused r) = .refused r := rfl

theorem mapNext_mapNext (f g : State → State) (o : Host.Outcome State Fault Refusal) :
    mapNext f (mapNext g o) = mapNext (f ∘ g) o := by
  cases o <;> rfl

theorem mapNext_eq_self {f : State → State} {o : Host.Outcome State Fault Refusal}
    (h : ∀ t, o = .next t → f t = t) : mapNext f o = o := by
  cases o with
  | next t => rw [mapNext_next, h t rfl]
  | fault => rfl
  | refused => rfl

/-! ### What a host write does -/

theorem hostWrite_of_lt {a : Nat} (b : Byte) (ha : a < 2 ^ s.plat.addrBits) :
    hostWrite a b s = .next { s with buf := s.buf.write a b } := if_pos ha

theorem hostWrite_of_le {a : Nat} (b : Byte) (ha : 2 ^ s.plat.addrBits ≤ a) :
    hostWrite a b s = .fault .noSuchAddress := if_neg (Nat.not_lt.mpr ha)

theorem hostWrites_of_forall_lt {ws : List Host.Cell} (hws : ∀ w ∈ ws, w.1 < 2 ^ s.plat.addrBits) :
    hostWrites ws s = .next { s with buf := ws.foldl (fun m w => m.write w.1 w.2) s.buf } := by
  induction ws generalizing s with
  | nil => rfl
  | cons w rest ih =>
    obtain ⟨hw, hrest⟩ := List.forall_mem_cons.mp hws
    simp only [hostWrites, hostWrite_of_lt w.2 hw]
    exact ih hrest

theorem bufByte_write_same (m : Memory) (a : Nat) (b : Byte) : bufByte (m.write a b) a = b := by
  simp [bufByte]

theorem bufByte_write_other (m : Memory) {a x : Nat} (b : Byte) (h : x ≠ a) :
    bufByte (m.write a b) x = bufByte m x := by
  simp [bufByte, m.read_write_other b h]

/-- Settles O7: the write is a step of its own, and the byte it lists is the one read back there. -/
theorem hostWriteChangesOneByte : Obligations.HostWriteChangesOneByte := by
  intro s a b rest hin
  have hstep : step s = hostWrite a b { s with inbox := rest } := step_of_inbox_cons hin
  refine ⟨fun ha => ?_, fun ha => hstep.trans (hostWrite_of_le b ha)⟩
  refine ⟨_, hstep.trans (hostWrite_of_lt b ha), ?_, fun x hx => ?_, rfl, rfl, rfl, rfl, rfl, rfl⟩
  · exact congrArg BitVec.toNat (bufByte_write_same s.buf a b)
  · exact congrArg BitVec.toNat (bufByte_write_other s.buf b hx)

/-! ### What a command reads of BUF -/

/-- UPDB's data is the same on another BUF that agrees on the range (20_memory.md R33). -/
theorem rangeBytes_congr_buf {buf : Memory}
    (h : ∀ k, k < s.port.opLen →
      memRead { s with buf := buf } (s.port.opBase + s.port.opOff + k) = memRead s (s.port.opBase + s.port.opOff + k)) :
    rangeBytes { s with buf := buf } = rangeBytes s :=
  List.map_congr_left fun k hk => h k (List.mem_range.mp hk)

/-- UPDB depends on BUF through its data alone: the tests of 20_memory.md R32 look at the port and the platform. -/
theorem execUpdb_congr_buf {buf : Memory} (h : rangeBytes { s with buf := buf } = rangeBytes s) :
    execUpdb { s with buf := buf } = mapNext (fun t => { t with buf := buf }) (execUpdb s) := by
  have hp : addressesPresentable { s with buf := buf } = addressesPresentable s := rfl
  have hi : rangeInside { s with buf := buf } = rangeInside s := rfl
  have hr : rangeReadable { s with buf := buf } = rangeReadable s := rfl
  cases hs : s.eng.status with
  | unconfigured => simp only [execUpdb, hs]; rfl
  | accumulating =>
    simp only [execUpdb, hs, h, hp, hi, hr]
    split
    · rfl
    · split
      · rfl
      · split <;> rfl

/-- CFG's faults and refusals come from the word, the port and the platform, and so does what it commits. -/
theorem execCfg_congr_buf (width : BitVec 16) (tsrc : TSrc) (tmode : TMode) (refout refin : Bool) (shape : Shape)
    (buf : Memory) :
    execCfg width tsrc tmode refout refin shape { s with buf := buf } =
      mapNext (fun t => { t with buf := buf }) (execCfg width tsrc tmode refout refin shape s) := by
  simp only [execCfg]
  split
  · rfl
  · split
    · rfl
    · split
      · rfl
      · split <;> rfl

/-- Settles O56: UPDB by its data, every other command because its meaning does not mention BUF. -/
theorem commandsReadOnlyTheirRange : Obligations.CommandsReadOnlyTheirRange := by
  intro i s buf h
  cases i with
  | cfg width tsrc tmode refout refin shape => exact execCfg_congr_buf width tsrc tmode refout refin shape buf
  | updb => exact execUpdb_congr_buf (rangeBytes_congr_buf (h rfl))
  | refl bw => rfl
  | upd | fin | rst | reflm | tclone =>
    simp only [exec, execUpd, execFin, execRst, execReflm, execTclone]
    split <;> rfl

/-! ### A command amid writes -/

/-- What a command that answered `t` leaves when `ws` were written to BUF while it ran on `s` (20_memory.md R36, R39): all the
writes have landed, and one free value has been drawn for each. -/
def landed (s : State) (ws : List Host.Cell) (t : State) : State :=
  { t with buf := ws.foldl (fun m w => m.write w.1 w.2) s.buf, draws := s.draws + ws.length }

theorem landed_nil {i : Instr} {t : State} (h : exec i s = .next t) : landed s [] t = t := by
  obtain ⟨hbuf, _, _, _, hdraws⟩ := (exec_effect h).sameSurroundings
  simp only [landed, List.foldl_nil, List.length_nil, Nat.add_zero, ← hbuf, ← hdraws]

theorem serveAmidWrites_of_decode_ok {cw : Word} {i : Instr} {ws : List Host.Cell} (hdec : decode cw = .ok i)
    (hws : ∀ w ∈ ws, w.1 < 2 ^ s.plat.addrBits) :
    serveAmidWrites cw ws s = mapNext (landed s ws) (exec i { s with buf := seenBuf s.draws ws s.buf }) := by
  simp only [serveAmidWrites, runWord_of_decode_ok hdec]
  cases hexec : exec i { s with buf := seenBuf s.draws ws s.buf } with
  | next t =>
    have hplat : t.plat = s.plat := (exec_effect hexec).sameSurroundings.plat
    exact hostWrites_of_forall_lt (s := { t with buf := s.buf, draws := s.draws + ws.length }) (hplat ▸ hws)
  | fault => rfl
  | refused => rfl

/-- A legal word amid writes, or alone: its command on the BUF it sees, then the writes have landed. -/
theorem serveCommand_of_decode_ok {cw : Word} {i : Instr} {p : Bundle} {ws : List Host.Cell} (hdec : decode cw = .ok i)
    (hws : ∀ w ∈ ws, w.1 < 2 ^ s.plat.addrBits) :
    serveCommand cw p ws s =
      mapNext (landed s ws) (exec i { s with port := p, buf := seenBuf s.draws ws s.buf }) := by
  cases ws with
  | nil => exact (runWord_of_decode_ok hdec).trans (mapNext_eq_self fun _ => landed_nil).symm
  | cons w rest => exact serveAmidWrites_of_decode_ok (s := { s with port := p }) hdec hws

/-- Writes outside a range are not seen in it. -/
theorem bufByte_seenBuf_of_outside {n lo len k : Nat} {ws : List Host.Cell} {m : Memory}
    (hws : ∀ w ∈ ws, w.1 < lo ∨ lo + len ≤ w.1) (hk : k < len) :
    bufByte (seenBuf n ws m) (lo + k) = bufByte m (lo + k) := by
  obtain h | ⟨w, hw, ha, _⟩ := bufByte_seenBuf n ws m (lo + k)
  · exact h
  · have := hws w hw
    omega

/-- Settles O6: the command runs on `seenBuf`; where no write falls in the range, that BUF agrees with the old one on all the
command reads (O56). -/
theorem writesDuringCommand : Obligations.WritesDuringCommand := by
  intro s cw p ws rest i hin hdec hws
  have hstep : step s = mapNext (landed s ws)
      (exec i { s with port := p, inbox := rest, buf := seenBuf s.draws ws s.buf }) :=
    (step_of_inbox_cons hin).trans (serveCommand_of_decode_ok (s := { s with inbox := rest }) hdec hws)
  refine ⟨⟨_, bufByte_seenBuf s.draws ws s.buf, hstep⟩, fun houtside => ?_⟩
  have hagree := commandsReadOnlyTheirRange i { s with port := p, inbox := rest } (seenBuf s.draws ws s.buf)
    fun hi k hk => congrArg BitVec.toNat (bufByte_seenBuf_of_outside (houtside hi) hk)
  calc step s
      = mapNext (landed s ws) (mapNext (fun t => { t with buf := seenBuf s.draws ws s.buf })
          (exec i { s with port := p, inbox := rest })) := hstep.trans (congrArg _ hagree)
    _ = mapNext (landed s ws) (exec i { s with port := p, inbox := rest }) := mapNext_mapNext _ _ _

end Sys2Proof.Machine
end

section
/-! Command words field by field (30_encoding.md R47): a word is the encoding of a command, and decodes to it, exactly when
its fields hold that command's codes. -/

namespace Sys2Proof

/-! ### Field codes -/

theorem shapeOfCode_eq_some_iff {c : BitVec 4} {shape : Shape} : shapeOfCode c = some shape ↔ c = shape.code := by
  revert c
  cases shape <;> decide

theorem tmodeOfCode_eq_some_iff {c : BitVec 2} {tmode : TMode} : tmodeOfCode c = some tmode ↔ c = tmode.code := by
  revert c
  cases tmode <;> decide

theorem tsrcOfCode_eq_iff {c : BitVec 1} {tsrc : TSrc} : tsrcOfCode c = tsrc ↔ c = tsrc.code := by
  revert c
  cases tsrc <;> decide

theorem limbWidthOfCode_eq_iff {c : BitVec 2} {w : LimbWidth} : limbWidthOfCode c = w ↔ c = w.code := by
  revert c
  cases w <;> decide

/-- 30_encoding.md R50: the legal shape codes are 0 to 8. -/
theorem exists_shape_code_iff {c : BitVec 4} : (∃ shape : Shape, c = shape.code) ↔ c.toNat < 9 := by
  have hsome : (shapeOfCode c).isSome = decide (c.toNat < 9) := by
    revert c
    decide
  simp only [← shapeOfCode_eq_some_iff, ← Option.isSome_iff_exists, hsome, decide_eq_true_eq]

/-- 30_encoding.md R51: the legal table mode codes are 0 to 2. -/
theorem exists_tmode_code_iff {c : BitVec 2} : (∃ tmode : TMode, c = tmode.code) ↔ c.toNat ≠ 3 := by
  have hsome : (tmodeOfCode c).isSome = decide (c.toNat ≠ 3) := by
    revert c
    decide
  simp only [← tmodeOfCode_eq_some_iff, ← Option.isSome_iff_exists, hsome, decide_eq_true_eq]

/-- 30_encoding.md R51: the one illegal pair of legal codes. -/
theorem cfg_wf_iff {width : BitVec 16} {tsrc : TSrc} {tmode : TMode} {refout refin : Bool} {shape : Shape} :
    (Instr.cfg width tsrc tmode refout refin shape).wf = true ↔ ¬ (tsrc.code.toNat = 1 ∧ tmode.code.toNat = 0) := by
  cases tsrc <;> cases tmode <;> simp [Instr.wf, TSrc.code, TMode.code]

/-! ### Fields of a concatenation -/

/-- A concatenation is a field of `x` when each part is its part of the field. -/
theorem append_eq_extractLsb'_iff {w lo : Nat} (x : BitVec w) (n m : Nat) {a : BitVec n} {b : BitVec m} :
    a ++ b = x.extractLsb' lo (n + m) ↔ x.extractLsb' (lo + m) n = a ∧ x.extractLsb' lo m = b := by
  rw [← BitVec.extractLsb'_append_extractLsb'_eq_extractLsb' rfl]
  generalize x.extractLsb' (lo + m) n = hi, x.extractLsb' lo m = low
  refine ⟨fun h => ⟨?_, ?_⟩, fun ⟨ha, hb⟩ => by rw [ha, hb]⟩
  · simpa [BitVec.extractLsb'_append_eq_left] using (congrArg (BitVec.extractLsb' m n) h).symm
  · simpa [BitVec.extractLsb'_append_eq_right] using (congrArg (BitVec.extractLsb' 0 m) h).symm

theorem extractLsb'_eq_append_iff {w lo : Nat} (x : BitVec w) (n m : Nat) {a : BitVec n} {b : BitVec m} :
    x.extractLsb' lo (n + m) = a ++ b ↔ x.extractLsb' (lo + m) n = a ∧ x.extractLsb' lo m = b := by
  rw [eq_comm, append_eq_extractLsb'_iff]

theorem extractLsb'_eq_ofBool_iff {w lo : Nat} (x : BitVec w) {b : Bool} :
    x.extractLsb' lo 1 = BitVec.ofBool b ↔ x.getLsbD lo = b := by
  rw [BitVec.getLsbD_eq_extractLsb']
  generalize x.extractLsb' lo 1 = c
  revert c b
  decide

/-- The fields of a command word `cw` hold the codes of a command (30_encoding.md R47 to R55). -/
def Spells (cw : Word) : Instr → Prop
  | .cfg width tsrc tmode refout refin shape =>
    cw.extractLsb' 16 16 = width ∧ cw.extractLsb' 13 3 = 0 ∧ cw.extractLsb' 12 1 = tsrc.code ∧
      cw.extractLsb' 10 2 = tmode.code ∧ cw.getLsbD 9 = refout ∧ cw.getLsbD 8 = refin ∧
      cw.extractLsb' 4 4 = shape.code ∧ cw.extractLsb' 0 4 = 1
  | .upd byte =>
    cw.extractLsb' 16 16 = 0 ∧ cw.extractLsb' 8 8 = byte ∧ cw.extractLsb' 4 4 = 0 ∧ cw.extractLsb' 0 4 = 2
  | .updb => cw.extractLsb' 4 28 = 0 ∧ cw.extractLsb' 0 4 = 3
  | .fin => cw.extractLsb' 4 28 = 0 ∧ cw.extractLsb' 0 4 = 4
  | .rst => cw.extractLsb' 4 28 = 0 ∧ cw.extractLsb' 0 4 = 5
  | .refl bw => cw.extractLsb' 6 26 = 0 ∧ cw.extractLsb' 4 2 = bw.code ∧ cw.extractLsb' 0 4 = 6
  | .reflm count lb =>
    cw.extractLsb' 16 16 = count ∧ cw.extractLsb' 6 10 = 0 ∧ cw.extractLsb' 4 2 = lb.code ∧ cw.extractLsb' 0 4 = 7
  | .tclone => cw.extractLsb' 4 28 = 0 ∧ cw.extractLsb' 0 4 = 8

/-- Format Z is a reserved field of 28 bits above the opcode. -/
theorem formatZ_eq_iff (cw : Word) {op : BitVec 4} :
    0#28 ++ op = cw ↔ cw.extractLsb' 4 28 = 0 ∧ cw.extractLsb' 0 4 = op := by
  conv_lhs => rw [← BitVec.extractLsb'_eq_self (x := cw), append_eq_extractLsb'_iff cw 28 4]
  exact Iff.rfl

/-- The encoder writes every field, and no word but the encoding holds them all. -/
theorem encode_eq_iff_spells {cw : Word} {i : Instr} : encode i = cw ↔ Spells cw i := by
  cases i with
  | cfg width tsrc tmode refout refin shape =>
    unfold encode encodeCLow
    conv_lhs => rw [← BitVec.extractLsb'_eq_self (x := cw), append_eq_extractLsb'_iff cw 19 13,
      extractLsb'_eq_append_iff cw 16 3, extractLsb'_eq_append_iff cw 9 4, extractLsb'_eq_append_iff cw 5 4,
      extractLsb'_eq_append_iff cw 4 1, extractLsb'_eq_append_iff cw 3 1, extractLsb'_eq_append_iff cw 1 2,
      extractLsb'_eq_ofBool_iff, extractLsb'_eq_ofBool_iff]
    simp only [and_assoc]
    exact Iff.rfl
  | upd byte =>
    unfold encode
    conv_lhs => rw [← BitVec.extractLsb'_eq_self (x := cw), append_eq_extractLsb'_iff cw 28 4,
      extractLsb'_eq_append_iff cw 24 4, extractLsb'_eq_append_iff cw 16 8]
    simp only [and_assoc]
    exact Iff.rfl
  | updb => exact formatZ_eq_iff cw
  | fin => exact formatZ_eq_iff cw
  | rst => exact formatZ_eq_iff cw
  | refl bw =>
    unfold encode
    conv_lhs => rw [← BitVec.extractLsb'_eq_self (x := cw), append_eq_extractLsb'_iff cw 28 4,
      extractLsb'_eq_append_iff cw 26 2]
    exact and_assoc
  | reflm count lb =>
    unfold encode encodeMLow
    conv_lhs => rw [← BitVec.extractLsb'_eq_self (x := cw), append_eq_extractLsb'_iff cw 26 6,
      extractLsb'_eq_append_iff cw 16 10, extractLsb'_eq_append_iff cw 2 4]
    exact and_assoc
  | tclone => exact formatZ_eq_iff cw

/-! ### What the decoder accepts, format by format -/

section Decoder

variable {cw : Word} {i : Instr}

theorem decodeC_eq_ok_iff :
    decodeC cw = .ok i ↔ cw.extractLsb' 13 3 = 0 ∧ ∃ shape tmode, cw.extractLsb' 4 4 = shape.code ∧
      cw.extractLsb' 10 2 = tmode.code ∧ i.wf = true ∧
      Instr.cfg (cw.extractLsb' 16 16) (tsrcOfCode (cw.extractLsb' 12 1)) tmode (cw.getLsbD 9) (cw.getLsbD 8) shape = i := by
  simp only [← shapeOfCode_eq_some_iff, ← tmodeOfCode_eq_some_iff]
  unfold decodeC
  by_cases hrsv : cw.extractLsb' 13 3 = 0
  · simp only [hrsv, if_true, true_and]
    cases shapeOfCode (cw.extractLsb' 4 4) with
    | none => simp
    | some shape =>
      cases tmodeOfCode (cw.extractLsb' 10 2) with
      | none => simp
      | some tmode =>
        simp only [Option.some.injEq]
        constructor
        · split
          · rintro ⟨⟩
            exact ⟨shape, tmode, rfl, rfl, ‹_›, rfl⟩
          · nofun
        · rintro ⟨_, _, rfl, rfl, hwf, rfl⟩
          exact if_pos hwf
  · simp only [hrsv, if_false, false_and, reduceCtorEq]

theorem decodeU_eq_ok_iff :
    decodeU cw = .ok i ↔ (cw.extractLsb' 16 16 = 0 ∧ cw.extractLsb' 4 4 = 0) ∧ Instr.upd (cw.extractLsb' 8 8) = i := by
  unfold decodeU
  split <;> simp only [*, true_and, false_and, Except.ok.injEq, reduceCtorEq]

theorem decodeZ_eq_ok_iff {j : Instr} : decodeZ j cw = .ok i ↔ cw.extractLsb' 4 28 = 0 ∧ j = i := by
  unfold decodeZ
  split <;> simp only [*, true_and, false_and, Except.ok.injEq, reduceCtorEq]

theorem decodeR_eq_ok_iff :
    decodeR cw = .ok i ↔ cw.extractLsb' 6 26 = 0 ∧ Instr.refl (limbWidthOfCode (cw.extractLsb' 4 2)) = i := by
  unfold decodeR
  split <;> simp only [*, true_and, false_and, Except.ok.injEq, reduceCtorEq]

theorem decodeM_eq_ok_iff :
    decodeM cw = .ok i ↔ cw.extractLsb' 6 10 = 0 ∧
      Instr.reflm (cw.extractLsb' 16 16) (limbWidthOfCode (cw.extractLsb' 4 2)) = i := by
  unfold decodeM
  split <;> simp only [*, true_and, false_and, Except.ok.injEq, reduceCtorEq]

theorem spells_of_decode (h : decode cw = .ok i) : Spells cw i ∧ i.wf = true := by
  unfold decode at h
  split at h
  case h_1 hop =>
    obtain ⟨hrsv, shape, tmode, hshape, htmode, hwf, rfl⟩ := decodeC_eq_ok_iff.mp h
    exact ⟨⟨rfl, hrsv, tsrcOfCode_eq_iff.mp rfl, htmode, rfl, rfl, hshape, BitVec.eq_of_toNat_eq hop⟩, hwf⟩
  case h_2 hop =>
    obtain ⟨⟨hhigh, hlow⟩, rfl⟩ := decodeU_eq_ok_iff.mp h
    exact ⟨⟨hhigh, rfl, hlow, BitVec.eq_of_toNat_eq hop⟩, rfl⟩
  case h_6 hop =>
    obtain ⟨hrsv, rfl⟩ := decodeR_eq_ok_iff.mp h
    exact ⟨⟨hrsv, limbWidthOfCode_eq_iff.mp rfl, BitVec.eq_of_toNat_eq hop⟩, rfl⟩
  case h_7 hop =>
    obtain ⟨hrsv, rfl⟩ := decodeM_eq_ok_iff.mp h
    exact ⟨⟨rfl, hrsv, limbWidthOfCode_eq_iff.mp rfl, BitVec.eq_of_toNat_eq hop⟩, rfl⟩
  case h_9 => cases h
  all_goals
    rename_i hop
    obtain ⟨hrsv, rfl⟩ := decodeZ_eq_ok_iff.mp h
    exact ⟨⟨hrsv, BitVec.eq_of_toNat_eq hop⟩, rfl⟩

theorem decode_of_spells (h : Spells cw i) (hwf : i.wf = true) : decode cw = .ok i := by
  cases i with
  | cfg width tsrc tmode refout refin shape =>
    obtain ⟨hwidth, hrsv, htsrc, htmode, hrefout, hrefin, hshape, hop⟩ := h
    simp only [decode, hop]
    exact decodeC_eq_ok_iff.mpr ⟨hrsv, shape, tmode, hshape, htmode, hwf,
      by rw [hwidth, tsrcOfCode_eq_iff.mpr htsrc, hrefout, hrefin]⟩
  | upd byte =>
    obtain ⟨hhigh, hbyte, hlow, hop⟩ := h
    simp only [decode, hop]
    exact decodeU_eq_ok_iff.mpr ⟨⟨hhigh, hlow⟩, by rw [hbyte]⟩
  | refl bw =>
    obtain ⟨hrsv, hbw, hop⟩ := h
    simp only [decode, hop]
    exact decodeR_eq_ok_iff.mpr ⟨hrsv, by rw [limbWidthOfCode_eq_iff.mpr hbw]⟩
  | reflm count lb =>
    obtain ⟨hcount, hrsv, hlb, hop⟩ := h
    simp only [decode, hop]
    exact decodeM_eq_ok_iff.mpr ⟨hrsv, by rw [hcount, limbWidthOfCode_eq_iff.mpr hlb]⟩
  | _ =>
    obtain ⟨hrsv, hop⟩ := h
    simp only [decode, hop]
    exact decodeZ_eq_ok_iff.mpr ⟨hrsv, rfl⟩

/-- 30_encoding.md R58: a word decodes to a command exactly when the command is well-formed and the word is its encoding. -/
theorem decode_eq_ok_iff : decode cw = .ok i ↔ encode i = cw ∧ i.wf = true := by
  rw [encode_eq_iff_spells]
  exact ⟨spells_of_decode, fun ⟨h, hwf⟩ => decode_of_spells h hwf⟩

end Decoder

/-- Settles O1: the fields of an encoded word are those of the command, and they decode to it. -/
theorem decodeEncodeRoundTrip : Obligations.DecodeEncodeRoundTrip :=
  fun _ hwf => decode_eq_ok_iff.mpr ⟨rfl, hwf⟩

/-- Settles O2: the fields that decode to a command are those its encoding has. -/
theorem encodeDecodeRoundTrip : Obligations.EncodeDecodeRoundTrip :=
  fun _ _ h => decode_eq_ok_iff.mp h

/-- Settles O4: the decoder evaluates each of R62's words. -/
theorem workedEncodings : Obligations.WorkedEncodings := by
  unfold Obligations.WorkedEncodings
  decide

end Sys2Proof
end

section
/-! The illegal words of 30_encoding.md R57: those whose fields are no command's, and what a step does with one. -/

namespace Sys2Proof.Machine

theorem toNat_extractLsb'_eq_slice {w : Nat} (x : BitVec w) (lo len : Nat) :
    (x.extractLsb' lo len).toNat = slice x.toNat lo len := by
  rw [BitVec.extractLsb'_toNat, Nat.shiftRight_eq_div_pow, slice]

theorem extractLsb'_eq_iff_slice {w lo len : Nat} {x : BitVec w} {c : BitVec len} :
    x.extractLsb' lo len = c ↔ slice x.toNat lo len = c.toNat := by
  rw [← BitVec.toNat_inj, toNat_extractLsb'_eq_slice]

variable {cw : Word} {i : Instr}

/-- No condition of R57 is met by a word whose fields are a command's. -/
theorem not_wordIllegal_of_spells (h : Spells cw i) (hwf : i.wf = true) : ¬ wordIllegal cw.toNat := by
  cases i with
  | cfg width tsrc tmode refout refin shape =>
    obtain ⟨-, hrsv, htsrc, htmode, -, -, hshape, hop⟩ := h
    have hshapeLt := exists_shape_code_iff.mp ⟨shape, hshape⟩
    have htmodeNe := exists_tmode_code_iff.mp ⟨tmode, htmode⟩
    have hpair := cfg_wf_iff.mp hwf
    rw [← htsrc, ← htmode] at hpair
    rw [extractLsb'_eq_iff_slice] at hrsv hop
    simp only [toNat_extractLsb'_eq_slice] at hshapeLt htmodeNe hpair
    simp [wordIllegal, hop, hrsv, hshapeLt, htmodeNe, hpair]
  | upd byte =>
    obtain ⟨hhigh, -, hlow, hop⟩ := h
    rw [extractLsb'_eq_iff_slice] at hhigh hlow hop
    simp [wordIllegal, hop, hhigh, hlow]
  | refl bw =>
    obtain ⟨hrsv, -, hop⟩ := h
    rw [extractLsb'_eq_iff_slice] at hrsv hop
    simp [wordIllegal, hop, hrsv]
  | reflm count lb =>
    obtain ⟨-, hrsv, -, hop⟩ := h
    rw [extractLsb'_eq_iff_slice] at hrsv hop
    simp [wordIllegal, hop, hrsv]
  | _ =>
    obtain ⟨hrsv, hop⟩ := h
    rw [extractLsb'_eq_iff_slice] at hrsv hop
    simp [wordIllegal, hop, hrsv]

/-- A word that meets no condition of R57 spells the command of its opcode. -/
theorem exists_spells_of_not_wordIllegal (h : ¬ wordIllegal cw.toNat) : ∃ i, Spells cw i ∧ i.wf = true := by
  simp only [wordIllegal, not_or, not_and, not_not, ne_eq] at h
  obtain ⟨hzero, hnine, hz, hc, hu, hr, hm, hcodes⟩ := h
  have hopcodes : ∀ op, ¬ op = 0 → ¬ 9 ≤ op →
      op = 1 ∨ op = 2 ∨ op = 3 ∨ op = 4 ∨ op = 5 ∨ op = 6 ∨ op = 7 ∨ op = 8 := by omega
  obtain hop | hop | hop | hop | hop | hop | hop | hop := hopcodes _ hzero hnine
  · obtain ⟨hshape, htmode, hpair⟩ := hcodes hop
    rw [← toNat_extractLsb'_eq_slice] at hshape htmode
    obtain ⟨shape, hshape⟩ := exists_shape_code_iff.mpr (Nat.lt_of_not_le hshape)
    obtain ⟨tmode, htmode⟩ := exists_tmode_code_iff.mpr htmode
    have htsrc := tsrcOfCode_eq_iff (c := cw.extractLsb' 12 1).mp rfl
    refine ⟨.cfg _ _ tmode _ _ shape, ⟨rfl, extractLsb'_eq_iff_slice.mpr (hc hop), htsrc, htmode, rfl, rfl, hshape,
      extractLsb'_eq_iff_slice.mpr hop⟩, cfg_wf_iff.mpr ?_⟩
    rw [← htsrc, ← htmode, toNat_extractLsb'_eq_slice, toNat_extractLsb'_eq_slice, not_and]
    exact hpair
  · obtain ⟨hhigh, hlow⟩ := hu hop
    exact ⟨.upd _, ⟨extractLsb'_eq_iff_slice.mpr hhigh, rfl, extractLsb'_eq_iff_slice.mpr hlow,
      extractLsb'_eq_iff_slice.mpr hop⟩, rfl⟩
  · exact ⟨.updb, ⟨extractLsb'_eq_iff_slice.mpr (hz (by simp [hop])), extractLsb'_eq_iff_slice.mpr hop⟩, rfl⟩
  · exact ⟨.fin, ⟨extractLsb'_eq_iff_slice.mpr (hz (by simp [hop])), extractLsb'_eq_iff_slice.mpr hop⟩, rfl⟩
  · exact ⟨.rst, ⟨extractLsb'_eq_iff_slice.mpr (hz (by simp [hop])), extractLsb'_eq_iff_slice.mpr hop⟩, rfl⟩
  · exact ⟨.refl _, ⟨extractLsb'_eq_iff_slice.mpr (hr hop), limbWidthOfCode_eq_iff.mp rfl,
      extractLsb'_eq_iff_slice.mpr hop⟩, rfl⟩
  · exact ⟨.reflm _ _, ⟨rfl, extractLsb'_eq_iff_slice.mpr (hm hop), limbWidthOfCode_eq_iff.mp rfl,
      extractLsb'_eq_iff_slice.mpr hop⟩, rfl⟩
  · exact ⟨.tclone, ⟨extractLsb'_eq_iff_slice.mpr (hz (by simp [hop])), extractLsb'_eq_iff_slice.mpr hop⟩, rfl⟩

/-- R57: every word either decodes to a command or is illegal, never both. -/
theorem wordIllegal_iff_decode (cw : Word) : wordIllegal cw.toNat ↔ ∀ i, decode cw ≠ .ok i := by
  constructor
  · intro h i hdec
    obtain ⟨hspells, hwf⟩ := spells_of_decode hdec
    exact not_wordIllegal_of_spells hspells hwf h
  · intro h
    by_contra hlegal
    obtain ⟨i, hspells, hwf⟩ := exists_spells_of_not_wordIllegal hlegal
    exact h i (decode_of_spells hspells hwf)

theorem runWord_of_forall_decode_ne {s : State} (h : ∀ i, decode cw ≠ .ok i) :
    runWord cw s = .next (faulted .illegalCommand s) := by
  unfold runWord
  split
  · exact absurd ‹_› (h _)
  · rfl

/-- Settles O3: the words R57 lists are those that spell no command, and such a word raises ILLEGAL_COMMAND. -/
theorem illegalWordsFault : Obligations.IllegalWordsFault := by
  intro cw
  refine ⟨wordIllegal_iff_decode cw, fun s p rest hill hin => ?_⟩
  calc step s
      = runWord cw { s with port := p, inbox := rest } := by rw [step_of_inbox_cons hin, serveEvent_command_nil]
    _ = .next (faulted .illegalCommand { s with port := p, inbox := rest }) :=
        runWord_of_forall_decode_ne ((wordIllegal_iff_decode cw).mp hill)

end Sys2Proof.Machine
end

section
/-! `Finalize` and the number FIN delivers (44_engine_native.md R108): below `2^WIDTH` where the padding is shifted out or
zero. -/

namespace Sys2Proof.Machine

/-! ### Finalize on an S-bit vector -/

theorem mirrorIf_lt {S r : Nat} (c : Bool) (hr : r < 2 ^ S) : (if c then reflect S r else r) < 2 ^ S := by
  split
  · exact reflect_lt _ _
  · exact hr

theorem finalize_lt {S x r : Nat} (moves : Nat) (refin refout : Bool) (hx : x < 2 ^ S) (hr : r < 2 ^ S) :
    finalize S moves refin refout x r < 2 ^ S := by
  have hmirror := mirrorIf_lt (refout != refin) hr
  refine Nat.xor_lt_two_pow ?_ hx
  split
  · exact (shr_le _ _).trans_lt hmirror
  · exact hmirror

/-- The shift by the padding leaves WIDTH bits. -/
theorem shr_padding_lt {S width v : Nat} (hwidth : width ≤ S) (hv : v < 2 ^ S) : shr v (S - width) < 2 ^ width := by
  rw [shr, Nat.div_lt_iff_lt_mul (Nat.two_pow_pos _), ← pow_add, Nat.add_sub_cancel' hwidth]
  exact hv

/-- The mirror carries zero padding at the bottom to the top. -/
theorem reflect_lt_of_padding {S width r : Nat} (hwidth : width ≤ S) (hr : r < 2 ^ S) (hpad : r % 2 ^ (S - width) = 0) :
    reflect S r < 2 ^ width := by
  have hshl : shl S (r / 2 ^ (S - width)) (S - width) = r := by
    rw [shl, Nat.div_mul_cancel (Nat.dvd_of_mod_eq_zero hpad), Nat.mod_eq_of_lt hr]
  rw [← hshl]
  exact reflect_shl_lt _ hwidth

/-- R108: refout = 0 shifts the padding out. -/
theorem finalize_lt_of_shifted {S width x r : Nat} (refin : Bool) (hwidth : width ≤ S) (hx : x < 2 ^ width)
    (hr : r < 2 ^ S) :
    finalize S (S - width) refin false x r < 2 ^ width := by
  have hmirror := mirrorIf_lt (false != refin) hr
  refine Nat.xor_lt_two_pow ?_ hx
  split
  · exact shr_padding_lt hwidth hmirror
  · rename_i hmoves
    obtain rfl : width = S := by
      simp only [and_true, gt_iff_lt, Nat.not_lt] at hmoves
      omega
    exact hmirror

/-! ### Finalize in the shape's own formulas -/

/-- 45_engine_sharded.md R134: `Finalize` on limbs is `Finalize` on the S-bit vector. -/
theorem limbFinalize_limbsOf {L n moves r : Nat} (h : moves ≤ L) (refin refout : Bool) (x : Nat) (hL : IsLimbBits L)
    (hr : r < 2 ^ (L * n)) :
    limbFinalize L moves h refin refout (limbsOf L n x) (limbsOf L n r) =
      limbsOf L n (finalize (L * n) moves refin refout x r) := by
  have hmirror : (if refout != refin then limbReverse L (limbsOf L n r) else limbsOf L n r) =
      limbsOf L n (if refout != refin then reflect (L * n) r else r) := by
    split
    · exact limbReverse_limbsOf r hL
    · rfl
  have hlt := mirrorIf_lt (refout != refin) hr
  simp only [limbFinalize, finalize, finalizeWith, hmirror]
  split
  · rw [limbShiftRight_limbsOf h hlt, limbXor_limbsOf, shr]
  · rw [limbXor_limbsOf]

/-- 46_engine_128.md R147: `Finalize` on two limbs is `Finalize` on the 128-bit vector. -/
theorem pairFinalize_pairOf {moves r : Nat} (h : moves ≤ 64) (refin refout : Bool) (x : Nat) (hr : r < 2 ^ 128) :
    pairFinalize moves h refin refout (pairOf x) (pairOf r) = pairOf (finalize 128 moves refin refout x r) := by
  have hmirror : (if refout != refin then pairReverse (pairOf r) else pairOf r) =
      pairOf (if refout != refin then reflect 128 r else r) := by
    split
    · exact pairReverse_pairOf r
    · rfl
  have hlt := mirrorIf_lt (refout != refin) hr
  simp only [pairFinalize, finalize, finalizeWith, hmirror]
  generalize (if refout != refin then reflect 128 r else r) = v at hlt ⊢
  cases refout with
  | true => simp [pairXor_pairOf]
  | false =>
    rw [if_pos rfl, pairShiftRight_pairOf h hlt, pairXor_pairOf]
    obtain rfl | hm := Nat.eq_zero_or_pos moves
    · simp
    · simp [hm, shr]

namespace Engine.Coherent

variable {maxWidth : Nat} {e : Engine} (he : e.Coherent maxWidth)
include he

/-- 45_engine_sharded.md R135, 46_engine_128.md R147: whatever the shape, `Finalize` is the S-bit rule. -/
theorem engineFinalize_eq {r : Nat} (hr : r < 2 ^ e.s) :
    engineFinalize e r = finalize e.s e.moves e.refin e.refout e.xoroutP r := by
  obtain ⟨n, h⟩ := he.fits
  have hL : IsLimbBits e.l := h.limb_bits
  have hnl : e.nl = n + 1 := h.nl_eq
  have hs : e.s = e.l * (n + 1) := h.s_eq
  have hx : e.xoroutP < 2 ^ e.s := he.xoroutP_lt.trans_le (Nat.pow_le_pow_right (by decide) he.width_le_s)
  have hlt := finalize_lt e.moves e.refin e.refout hx hr
  cases hk : shapeKind e.shape with
  | native =>
    have hS : e.s = e.l := h.s_eq_l_of_native hk
    rw [← hS] at hL
    simp only [engineFinalize, hk, nativeFinalize, finalize, finalizeWith, reflectSwap_eq_reflect hL hr]
  | sharded =>
    have hm : e.moves ≤ e.l := h.moves_le_l
    rw [engineFinalize_sharded hk hm, hnl]
    rw [hs] at hr hlt ⊢
    rw [limbFinalize_limbsOf hm e.refin e.refout e.xoroutP hL hr, limbVal_limbsOf_of_lt hlt]
  | twoLimb =>
    have hS : e.s = 128 := h.s_eq_of_twoLimb hk
    have hm : e.moves ≤ 64 := h.moves_le_of_twoLimb hk
    rw [engineFinalize_twoLimb hk hm]
    rw [hS] at hr hlt ⊢
    rw [pairFinalize_pairOf hm e.refin e.refout e.xoroutP hr, pairVal_pairOf hlt]

/-- 10_state.md R25, R108: with refout = 1 and zero padding no shift is needed. -/
theorem finalize_lt_of_padding {r : Nat} (hr : r < 2 ^ e.s) (hpad : e.PaddingZero r) :
    finalize e.s e.moves e.refin true e.xoroutP r < 2 ^ e.width.toNat := by
  refine Nat.xor_lt_two_pow ?_ he.xoroutP_lt
  cases hrefin : e.refin with
  | true => simpa using (Engine.PaddingZero.iff_of_reflected hrefin).mp hpad
  | false =>
    rw [Engine.PaddingZero.iff_of_forward hrefin, he.moves_eq] at hpad
    simpa using reflect_lt_of_padding he.width_le_s hr hpad

theorem engineFinalize_lt {r : Nat} (hr : r < 2 ^ e.s) (h : e.refout = false ∨ e.PaddingZero r) :
    engineFinalize e r < 2 ^ e.width.toNat := by
  rw [he.engineFinalize_eq hr]
  cases hrefout : e.refout with
  | false =>
    rw [he.moves_eq]
    exact finalize_lt_of_shifted e.refin he.width_le_s he.xoroutP_lt hr
  | true => exact he.finalize_lt_of_padding hr (h.resolve_left (by simp [hrefout]))

end Engine.Coherent

variable {s : State}

theorem execFin_of_accumulating (hs : s.eng.status = .accumulating) :
    exec .fin s = .next (respond (.result s.eng.width (engineResult s.eng s.eng.reg)) (setReg s.eng.initP s)) := by
  simp only [exec, execFin, hs]

/-- Settles O58: FIN's number is bounded as delivered, and is Finalize's own number where that is below `2^WIDTH`. -/
theorem finResultBelowWidth : Obligations.FinResultBelowWidth := by
  intro s hs
  refine ⟨_, engineResult s.eng s.eng.reg, execFin_of_accumulating hs, rfl, boundedResult_lt _ _, fun hinv hcase => ?_⟩
  have he := hinv.configured hs
  have hpad : s.eng.refout = false ∨ s.eng.PaddingZero s.eng.reg := by
    obtain hrefout | hreg | ⟨hinvPad, hbuilt⟩ := hcase
    · exact .inl hrefout
    · exact .inr hreg
    · exact .inr ((paddingInv_iff s).mp hinvPad hs hbuilt).reg
  exact boundedResult_of_lt (he.engineFinalize_lt he.reg_lt hpad)

end Sys2Proof.Machine
end

section
/-! The response of each command and its payload (30_encoding.md R59). -/

namespace Sys2Proof.Machine

theorem reflectSwap_lt {w v : Nat} (hv : v < 2 ^ w) : reflectSwap w v < 2 ^ w := swapStages_lt _ hv

theorem limbReverse_lt {L : Nat} {xs : List Nat} (h : ∀ x ∈ xs, x < 2 ^ L) : ∀ x ∈ limbReverse L xs, x < 2 ^ L := by
  intro x hx
  obtain ⟨d, hd, rfl⟩ := List.mem_map.mp hx
  exact reflectSwap_lt (h d (List.mem_reverse.mp hd))

/-- Settles O10: by command, from the states each can answer. -/
theorem exactlyOneResponse : Obligations.ExactlyOneResponse := by
  intro i s t h
  cases i with
  | cfg width tsrc tmode refout refin shape =>
    obtain ⟨_, _, rfl⟩ | ⟨_, rfl⟩ | ⟨_, _, _, _, _, rfl⟩ := execCfg_next h <;>
      exact ⟨_, rfl, fun _ => rfl, fun _ => rfl⟩
  | upd b => obtain ⟨_, rfl⟩ | ⟨_, rfl⟩ := execUpd_next h <;> exact ⟨_, rfl, fun _ => rfl, fun _ => rfl⟩
  | updb => obtain ⟨_, rfl⟩ | ⟨_, _, _, _, rfl⟩ := execUpdb_next h <;> exact ⟨_, rfl, fun _ => rfl, fun _ => rfl⟩
  | rst => obtain ⟨_, rfl⟩ | ⟨_, rfl⟩ := execRst_next h <;> exact ⟨_, rfl, fun _ => rfl, fun _ => rfl⟩
  | fin =>
    obtain ⟨_, rfl⟩ | ⟨_, rfl⟩ := execFin_next h
    · exact ⟨_, rfl, fun _ => rfl, nofun⟩
    · exact ⟨_, rfl, fun h => absurd rfl h, fun _ => ⟨_, boundedResult_lt _ _, rfl⟩⟩
  | refl bw =>
    obtain rfl := execRefl_next h
    exact ⟨_, rfl, fun h => absurd rfl h, fun _ => ⟨_, reflectSwap_lt (slice_lt _ _ _), rfl⟩⟩
  | reflm count lb =>
    obtain ⟨hp, rfl⟩ := execReflm_next h
    obtain ⟨hlen, hlt⟩ := of_presentableList hp
    exact ⟨_, rfl, fun h => absurd rfl h, fun _ => ⟨_, by simpa [limbReverse] using hlen, limbReverse_lt hlt, rfl⟩⟩
  | tclone =>
    obtain ⟨_, rfl⟩ | ⟨_, rfl⟩ := execTclone_next h
    · exact ⟨_, rfl, fun _ => rfl, nofun⟩
    · exact ⟨_, rfl, fun h => absurd rfl h, fun _ => rfl⟩

end Sys2Proof.Machine
end

section
/-! The bit-reflector unit (41_bitreflector.md R65 to R72): the algebra of the mirror bit by bit, limb arrays as limb views of
their value, and what REFL and REFLM respond. -/

namespace Sys2Proof.Machine

/-! ### The mirror -/

/-- Settles O26: the bound, and the bits of the mirror. -/
theorem reflectMovesBits : Obligations.ReflectMovesBits := by
  intro w v
  refine ⟨reflect_lt w v, fun i hi => ?_⟩
  rw [testBit_reflect, decide_eq_true hi, Bool.true_and]

/-- Numbers of `w` bits are equal when their `w` bits are. -/
theorem eq_of_testBit_below {w a b : Nat} (ha : a < 2 ^ w) (hb : b < 2 ^ w)
    (h : ∀ i < w, a.testBit i = b.testBit i) : a = b := by
  apply Nat.eq_of_testBit_eq
  intro i
  by_cases hi : i < w
  · exact h i hi
  · have hle : 2 ^ w ≤ 2 ^ i := Nat.pow_le_pow_right (by decide) (by omega)
    rw [Nat.testBit_lt_two_pow (ha.trans_le hle), Nat.testBit_lt_two_pow (hb.trans_le hle)]

/-- R68: bit `i` goes to `w-1-i` and back. -/
theorem reflect_reflect {w v : Nat} (hv : v < 2 ^ w) : reflect w (reflect w v) = v := by
  refine eq_of_testBit_below (reflect_lt _ _) hv fun i hi => ?_
  simp [hi, show w - 1 - i < w by omega, show w - 1 - (w - 1 - i) = i by omega]

theorem reflect_zero (w : Nat) : reflect w 0 = 0 := by
  apply Nat.eq_of_testBit_eq
  simp

theorem reflect_ones (w : Nat) : reflect w (2 ^ w - 1) = 2 ^ w - 1 := by
  refine eq_of_testBit_below (reflect_lt _ _) (Nat.sub_lt (Nat.two_pow_pos w) (by decide)) fun i hi => ?_
  simp [hi, show w - 1 - i < w by omega]

theorem reflect_xor (w a b : Nat) : reflect w (a ^^^ b) = reflect w a ^^^ reflect w b := by
  apply Nat.eq_of_testBit_eq
  intro i
  by_cases hi : i < w <;> simp [hi]

/-- R68: in the mirror the bits that a left shift drops are those that a right shift drops. -/
theorem reflect_shl (w v k : Nat) : reflect w (shl w v k) = shr (reflect w v) k := by
  refine eq_of_testBit_below (reflect_lt _ _) ((shr_le _ _).trans_lt (reflect_lt _ _)) fun i hi => ?_
  by_cases hk : i + k < w
  · simp [hi, hk, show w - 1 - i < w by omega, show k ≤ w - 1 - i by omega,
      show w - 1 - i - k = w - 1 - (i + k) by omega]
  · simp [hk, show ¬ k ≤ w - 1 - i by omega]

/-- Settles O28: each identity by the bits of both sides. -/
theorem reflectAlgebra : Obligations.ReflectAlgebra := by
  intro w v hv
  exact ⟨reflect_reflect hv, reflect_zero w, reflect_ones w, fun u _ => reflect_xor w u v,
    fun k _ => reflect_shl w v k⟩

/-! ### The swap network and limb arrays -/

theorem isLimbBits_limbBits (lw : LimbWidth) : IsLimbBits (limbBits lw) := by
  cases lw <;> simp [IsLimbBits, limbBits]

/-- Settles O27: R67 at each width the unit has. -/
theorem swapNetworkReflects : Obligations.SwapNetworkReflects := fun bw _ hv =>
  reflectSwap_eq_reflect (isLimbBits_limbBits bw) hv

section LimbArray

variable {L : Nat} {x : List Nat} (hL : IsLimbBits L) (hx : ∀ d ∈ x, d < 2 ^ L)
include hL hx

theorem limbReverse_eq_map_reflect : limbReverse L x = x.reverse.map (reflect L) :=
  List.map_congr_left fun d hd => reflectSwap_eq_reflect hL (hx d (List.mem_reverse.mp hd))

/-- R69: the array is the limb view of its value, and reversing that view mirrors the value. -/
theorem limbVal_limbReverse : limbVal L (limbReverse L x) = reflect (L * x.length) (limbVal L x) := by
  calc limbVal L (limbReverse L x)
    _ = limbVal L (limbReverse L (limbsOf L x.length (limbVal L x))) := by rw [limbsOf_limbVal hx]
    _ = limbVal L (limbsOf L x.length (reflect (L * x.length) (limbVal L x))) := by rw [limbReverse_limbsOf _ hL]
    _ = reflect (L * x.length) (limbVal L x) := limbVal_limbsOf_of_lt (reflect_lt _ _)

/-- 48_required_properties.md R173: the order is reversed twice, and each limb mirrored twice. -/
theorem limbReverse_limbReverse : limbReverse L (limbReverse L x) = x := by
  rw [limbReverse_eq_map_reflect hL (limbReverse_lt hx), limbReverse_eq_map_reflect hL hx, ← List.map_reverse,
    List.reverse_reverse, List.map_map]
  exact (List.map_congr_left fun d hd => reflect_reflect (hx d hd)).trans (List.map_id x)

end LimbArray

/-- Settles O29: limb by limb, as one number, and twice. -/
theorem limbReverseMirrors : Obligations.LimbReverseMirrors := fun lw _ hx =>
  have hL := isLimbBits_limbBits lw
  ⟨limbReverse_eq_map_reflect hL hx, limbVal_limbReverse hL hx, limbReverse_limbReverse hL hx⟩

/-! ### REFL and REFLM -/

variable {s : State}

theorem exec_refl (bw : LimbWidth) (s : State) :
    exec (.refl bw) s = .next (respond (.scalar bw (reflectSwap (limbBits bw) (scalarOperand bw s.port))) s) := rfl

theorem scalarOperand_eq_mod (bw : LimbWidth) (p : Bundle) : scalarOperand bw p = p.opA.toNat % 2 ^ limbBits bw := by
  rw [scalarOperand, slice, pow_zero, Nat.div_one]

/-- Settles O22: the swap network mirrors the low bits of `op_a`, in every state. -/
theorem reflRespondsMirror : Obligations.ReflRespondsMirror := by
  intro bw s
  have hlt : s.port.opA.toNat % 2 ^ limbBits bw < 2 ^ limbBits bw := Nat.mod_lt _ (Nat.two_pow_pos _)
  rw [exec_refl, scalarOperand_eq_mod, reflectSwap_eq_reflect (isLimbBits_limbBits bw) hlt]
  rfl

theorem presentableList_of {count bits : Nat} {xs : List Nat} (hlen : xs.length = count) (hlt : ∀ x ∈ xs, x < 2 ^ bits) :
    presentableList count bits xs = true := by
  simpa [presentableList] using And.intro hlen hlt

theorem exec_reflm_of_presentable {count : BitVec 16} {lb : LimbWidth}
    (h : presentableList count.toNat (limbBits lb) s.port.opLimbs = true) :
    exec (.reflm count lb) s = .next (respond (.limbs lb (limbReverse (limbBits lb) s.port.opLimbs)) s) := by
  simp only [exec, execReflm, h, if_true]

/-- Settles O23: with its limbs at the port REFLM responds `Reverse_L` of them, which is the mirror (R69). -/
theorem reflmRespondsMirror : Obligations.ReflmRespondsMirror := by
  intro count lb s hlen hlt
  have hL := isLimbBits_limbBits lb
  refine ⟨limbReverse (limbBits lb) s.port.opLimbs, limbReverse_eq_map_reflect hL hlt, ?_, ?_⟩
  · rw [limbVal_limbReverse hL hlt, hlen]
  · exact exec_reflm_of_presentable (presentableList_of hlen hlt)

end Sys2Proof.Machine
end

section
/-! The normaliser (42_normalizer.md R75 to R81): the geometry of each kind of shape, `parse` in closed form, and both
functions on limb arrays. -/

namespace Sys2Proof.Machine

/-! ### Geometry -/

namespace Geom.Fits

variable {shape : Shape} {width n : Nat} {g : Geom} (h : g.Fits shape width n)
include h

/-- 45_engine_sharded.md R129: the padding is less than a limb. -/
theorem moves_lt_l : g.moves < g.l := by
  have hgt := h.width_gt
  have hl := h.limb_bits.eight_le
  rw [h.moves_eq, Nat.mul_succ]
  omega

theorem eight_dvd_s : 8 ∣ g.s := h.s_eq ▸ h.limb_bits.dvd_eight.mul_right _

end Geom.Fits

/-- R76: a sharded shape takes widths up to the platform's MAX_WIDTH. -/
theorem width_le_maxWidth_of_sharded {maxWidth width : Nat} {shape : Shape} {g : Geom}
    (h : geometry maxWidth shape width = some g) (hk : shapeKind shape = .sharded) : width ≤ maxWidth := by
  by_contra hgt
  simp [geometry, hk, Nat.lt_of_not_le hgt] at h

theorem geometry_l {maxWidth width : Nat} {shape : Shape} {g : Geom} (h : geometry maxWidth shape width = some g) :
    g.l = shapeLimbBits shape := by
  obtain ⟨_, _, rfl, _⟩ := geometry_some h
  rfl

/-- Settles O30: by the least number of limbs that holds the width, and for the ranges by the kind of the shape. -/
theorem geometryIsLegal : Obligations.GeometryIsLegal := by
  intro maxWidth shape width g h
  obtain ⟨n, hf⟩ := geometry_fits h
  have hgt : n * g.l < width := Nat.mul_comm g.l n ▸ hf.width_gt
  have hle : width ≤ (n + 1) * g.l := Nat.mul_comm g.l (n + 1) ▸ hf.width_le
  refine ⟨geometry_l h, hf.nl_eq ▸ hf.s_eq, hf.moves_eq_sub, hf.width_pos, hf.width_le_s, hf.eight_le_s,
    Nat.mod_eq_zero_of_dvd hf.eight_dvd_s, hf.limb_bits.eight_le, hf.moves_lt_l, ?_⟩
  rw [hf.nl_eq]
  cases hk : shapeKind shape with
  | native =>
    obtain rfl := hf.native hk
    exact ⟨rfl, by simpa using hle⟩
  | sharded => exact ⟨hgt, hle, width_le_maxWidth_of_sharded h hk⟩
  | twoLimb =>
    obtain ⟨rfl, hl⟩ := hf.twoLimb hk
    rw [hl] at hgt hle
    exact ⟨rfl, hgt, hle⟩

/-! ### Closed forms of `parse` -/

/-- R78: a shift by no bits is no shift. -/
theorem parse_eq_shl {raw S : Nat} (width : Nat) (refin : Bool) (hraw : raw < 2 ^ S) :
    parse raw S width refin = if refin then reflect S (shl S raw (S - width)) else shl S raw (S - width) := by
  have hshl : (if S - width > 0 then shl S raw (S - width) else raw) = shl S raw (S - width) := by
    split
    · rfl
    · rw [show S - width = 0 by omega, shl, pow_zero, Nat.mul_one, Nat.mod_eq_of_lt hraw]
  simp only [parse, parseWith, hshl]

/-- An operand of `width` bits goes to the top of the register and loses none. -/
theorem shl_to_top {raw S width : Nat} (hwidth : width ≤ S) (hraw : raw < 2 ^ width) :
    shl S raw (S - width) = raw * 2 ^ (S - width) := by
  refine Nat.mod_eq_of_lt ?_
  calc raw * 2 ^ (S - width)
    _ < 2 ^ width * 2 ^ (S - width) := Nat.mul_lt_mul_of_pos_right hraw (Nat.two_pow_pos _)
    _ = 2 ^ S := by rw [← pow_add, Nat.add_sub_cancel' hwidth]

/-- The mirror of the low `width` bits stands at the top of the mirror. -/
theorem shr_reflect {S width : Nat} (v : Nat) (hwidth : width ≤ S) :
    shr (reflect S v) (S - width) = reflect width v := by
  refine eq_of_testBit_below (shr_padding_lt hwidth (reflect_lt _ _)) (reflect_lt _ _) fun i hi => ?_
  simp [hi, show i + (S - width) < S by omega, show S - 1 - (i + (S - width)) = width - 1 - i by omega]

/-- Settles O31: the shift loses no bit, and in the mirror it undoes itself (R68). -/
theorem parseClosedForms : Obligations.ParseClosedForms := by
  intro raw S width _ hwidth hraw
  have hrawS : raw < 2 ^ S := hraw.trans_le (Nat.pow_le_pow_right (by decide) hwidth)
  have hforward : parse raw S width false = raw * 2 ^ (S - width) :=
    (parse_eq_shl width false hrawS).trans (shl_to_top hwidth hraw)
  have hreflected : parse raw S width true = reflect width raw := by
    calc parse raw S width true
      _ = reflect S (shl S raw (S - width)) := parse_eq_shl width true hrawS
      _ = shr (reflect S raw) (S - width) := reflect_shl _ _ _
      _ = reflect width raw := shr_reflect raw hwidth
  refine ⟨hforward, hreflected, ?_⟩
  rintro rfl
  exact ⟨by simpa using hforward, hreflected⟩

/-! ### The normaliser on limb arrays -/

/-- Settles O32: both limb functions give the limb view of the S-bit result, which fits the register. -/
theorem limbNormaliserAgrees : Obligations.LimbNormaliserAgrees := by
  intro lw n width raw refin hpos hwidth hraw L moves hm
  have hrawS : raw < 2 ^ (L * n) := hraw.trans_le (Nat.pow_le_pow_right (by decide) hwidth)
  refine ⟨?_, fun x hx => ?_⟩
  · rw [limbParse_limbsOf raw refin (isLimbBits_limbBits lw) rfl, limbVal_limbsOf_of_lt (parse_lt refin hrawS)]
  · cases n with
    | zero => omega
    | succ n =>
      rw [limbTruncateLeft_limbsOf x hm.le, limbVal_limbsOf_of_lt ((Nat.mod_le _ _).trans_lt hx), truncateLeft]

end Sys2Proof.Machine
end

section
/-! The table builder (43_tablebuilder.md R85 to R95): division is linear over xor, the entries of a built table are repeated
divisions of seeds, and what TCLONE responds. -/

namespace Sys2Proof.Machine

variable {S : Nat}

/-! ### Division is linear over xor -/

theorem shl_xor (S a b k : Nat) : shl S (a ^^^ b) k = shl S a k ^^^ shl S b k := by
  simp only [shl, ← Nat.shiftLeft_eq, Nat.shiftLeft_xor_distrib, Nat.xor_mod_two_pow]

theorem shr_xor (a b k : Nat) : shr (a ^^^ b) k = shr a k ^^^ shr b k := Nat.xor_div_two_pow

/-- The polynomial is added once for each operand whose tested bit is set; twice cancels. -/
theorem ite_xor_linear (c d : Bool) (x y p : Nat) :
    (if c ^^ d then (x ^^^ y) ^^^ p else x ^^^ y) = (if c then x ^^^ p else x) ^^^ (if d then y ^^^ p else y) := by
  cases c <;> cases d
  · simp
  · simp [Nat.xor_assoc]
  · simp [Nat.xor_right_comm]
  · simp [Nat.xor_assoc]

theorem bitStepF_xor (S p a b : Nat) : bitStepF S p (a ^^^ b) = bitStepF S p a ^^^ bitStepF S p b := by
  rw [bitStepF, Nat.testBit_xor, shl_xor]
  exact ite_xor_linear _ _ _ _ p

theorem bitStepR_xor (p a b : Nat) : bitStepR p (a ^^^ b) = bitStepR p a ^^^ bitStepR p b := by
  rw [bitStepR, Nat.testBit_xor, shr_xor]
  exact ite_xor_linear _ _ _ _ p

theorem iterate_xor {f : Nat → Nat} (hf : ∀ a b, f (a ^^^ b) = f a ^^^ f b) (k a b : Nat) :
    f^[k] (a ^^^ b) = f^[k] a ^^^ f^[k] b :=
  Function.Semiconj₂.iterate (f := f) (op := (· ^^^ ·)) hf k a b

theorem divStep_xor (S p : Nat) (refin : Bool) (a b : Nat) :
    divStep S p refin (a ^^^ b) = divStep S p refin a ^^^ divStep S p refin b := by
  cases refin
  · exact iterate_xor (bitStepF_xor S p) 8 a b
  · exact iterate_xor (bitStepR_xor p) 8 a b

theorem tableSeed_xor (S : Nat) (refin : Bool) (a b : Nat) :
    tableSeed S refin (a ^^^ b) = tableSeed S refin a ^^^ tableSeed S refin b := by
  cases refin
  · exact shl_xor S a b (S - 8)
  · rfl

/-! ### Division is a shift where no set bit leaves the register -/

theorem bitStepF_of_lt {r : Nat} (p : Nat) (hr : r * 2 < 2 ^ S) : bitStepF S p r = r * 2 := by
  have htop : r.testBit (S - 1) = false := by
    refine Nat.testBit_lt_two_pow ?_
    cases S with
    | zero => omega
    | succ n => rw [pow_succ] at hr; exact lt_of_mul_lt_mul_right hr (Nat.zero_le 2)
  simp [bitStepF, htop, shl, Nat.mod_eq_of_lt hr]

theorem bitStepF_iterate_of_lt {r : Nat} (p k : Nat) (hr : r * 2 ^ k < 2 ^ S) : (bitStepF S p)^[k] r = r * 2 ^ k := by
  induction k with
  | zero => simp
  | succ k ih =>
    rw [pow_succ, ← Nat.mul_assoc] at hr
    rw [Function.iterate_succ_apply', ih (by omega), bitStepF_of_lt p hr, pow_succ, Nat.mul_assoc]

theorem bitStepR_mul_two (p r : Nat) : bitStepR p (r * 2) = r := by
  simp [bitStepR, shr, Nat.testBit_zero]

theorem bitStepR_iterate_mul_two_pow (p r k : Nat) : (bitStepR p)^[k] (r * 2 ^ k) = r := by
  induction k with
  | zero => simp
  | succ k ih => rw [Function.iterate_succ_apply, pow_succ, ← Nat.mul_assoc, bitStepR_mul_two, ih]

@[simp] theorem divStep_zero (S p : Nat) (refin : Bool) : divStep S p refin 0 = 0 := by
  simpa using divStep_xor S p refin 0 0

/-- The bit of the seed that leaves the register last brings the polynomial in (R88). -/
theorem divStep_forward_lowest (p : Nat) (hS : 8 ≤ S) : divStep S p false (tableSeed S false 1) = p := by
  have hseed : tableSeed S false 1 = 1 * 2 ^ (S - 8) := shl_byte hS (by decide)
  have hseven : (bitStepF S p)^[7] (1 * 2 ^ (S - 8)) = 2 ^ (S - 1) := by
    have hpow : 1 * 2 ^ (S - 8) * 2 ^ 7 = 2 ^ (S - 1) := by
      rw [Nat.one_mul, ← pow_add, show S - 8 + 7 = S - 1 by omega]
    rw [bitStepF_iterate_of_lt, hpow]
    rw [hpow]
    exact Nat.pow_lt_pow_right (by decide) (by omega)
  have hout : shl S (2 ^ (S - 1)) 1 = 0 := by
    rw [shl, ← pow_add, show S - 1 + 1 = S by omega, Nat.mod_self]
  calc divStep S p false (tableSeed S false 1)
    _ = bitStepF S p ((bitStepF S p)^[7] (tableSeed S false 1)) := Function.iterate_succ_apply' _ 7 _
    _ = bitStepF S p (2 ^ (S - 1)) := by rw [hseed, hseven]
    _ = p := by rw [bitStepF, Nat.testBit_two_pow_self, if_pos rfl, hout, Nat.zero_xor]

/-- In the reflected direction that bit is bit 7 (R89). -/
theorem divStep_reflected_highest (S p : Nat) : divStep S p true (tableSeed S true 0x80) = p := by
  have hseven : (bitStepR p)^[7] (tableSeed S true 0x80) = 1 := by
    simpa [tableSeed] using bitStepR_iterate_mul_two_pow p 1 7
  calc divStep S p true (tableSeed S true 0x80)
    _ = bitStepR p ((bitStepR p)^[7] (tableSeed S true 0x80)) := Function.iterate_succ_apply' _ 7 _
    _ = bitStepR p 1 := by rw [hseven]
    _ = p := by simp [bitStepR, shr]

/-! ### Division by table: the outgoing byte selects what the rest is xored with (R95 (b)) -/

theorem divStep_forward_eq_shl_xor {r : Nat} (p : Nat) (hS : 8 ≤ S) (hr : r < 2 ^ S) :
    divStep S p false r = shl S r 8 ^^^ divStep S p false (tableSeed S false (shr r (S - 8))) := by
  have hpow : 2 ^ S = 2 ^ (S - 8) * 2 ^ 8 := by rw [← pow_add, Nat.sub_add_cancel hS]
  have hsplit : r = r % 2 ^ (S - 8) ^^^ tableSeed S false (shr r (S - 8)) := by
    refine eq_of_testBit_below hr (Nat.xor_lt_two_pow ?_ (shl_lt _ _ _)) fun i hi => ?_
    · exact (Nat.mod_le _ _).trans_lt hr
    · by_cases h : i < S - 8
      · simp [tableSeed, h, show ¬ S - 8 ≤ i by omega]
      · simp [tableSeed, h, hi, show S - 8 ≤ i by omega]
  have hshift : r % 2 ^ (S - 8) * 2 ^ 8 = shl S r 8 := by rw [shl, hpow, Nat.mul_mod_mul_right]
  have hrest : divStep S p false (r % 2 ^ (S - 8)) = shl S r 8 := by
    rw [← hshift]
    refine bitStepF_iterate_of_lt p 8 ?_
    rw [hshift]
    exact shl_lt S r 8
  conv_lhs => rw [hsplit, divStep_xor, hrest]

theorem divStep_reflected_eq_shr_xor (S p r : Nat) :
    divStep S p true r = shr r 8 ^^^ divStep S p true (tableSeed S true (r % 256)) := by
  have hsplit : r = shr r 8 * 2 ^ 8 ^^^ r % 2 ^ 8 := by
    apply Nat.eq_of_testBit_eq
    intro i
    rw [Nat.testBit_xor, Nat.testBit_mul_two_pow, Nat.testBit_mod_two_pow]
    by_cases h : i < 8
    · simp [h, show ¬ 8 ≤ i by omega]
    · simp [h, show 8 ≤ i by omega]
  have hrest : divStep S p true (shr r 8 * 2 ^ 8) = shr r 8 := bitStepR_iterate_mul_two_pow p _ 8
  conv_lhs => rw [hsplit, divStep_xor, hrest]
  rfl

/-! ### The entries of a built table -/

theorem chainSlices_getElem? {α : Type} (div : α → α) {k n i : Nat} {first : List α} (hk : k < n)
    (hi : i < first.length) : (chainSlices div n first)[k * first.length + i]? = some (div^[k] first[i]) := by
  induction n generalizing k first with
  | zero => omega
  | succ n ih =>
    cases k with
    | zero => simp [chainSlices, List.getElem?_append_left, hi]
    | succ k =>
      have hnext := ih (k := k) (first := first.map div) (by omega) (by simpa using hi)
      rw [chainSlices, List.getElem?_append_right (by rw [Nat.succ_mul]; omega),
        show (k + 1) * first.length + i - first.length = k * first.length + i by rw [Nat.succ_mul]; omega]
      simpa using hnext

/-- R90: entry `k*256 + i` is seed `i` divided `k+1` times. -/
theorem tableAt_buildTable (S p : Nat) (refin : Bool) {slices k i : Nat} (hk : k < slices) (hi : i < 256) :
    tableAt (buildTable S p refin slices) (k * 256 + i) = (divStep S p refin)^[k + 1] (tableSeed S refin i) := by
  have hentry := chainSlices_getElem? (divStep S p refin) (n := slices)
    (first := (List.range 256).map fun i => divStep S p refin (tableSeed S refin i)) hk (by simpa using hi)
  simp only [List.length_map, List.length_range, List.getElem_map, List.getElem_range] at hentry
  rw [tableAt, List.getD_eq_getElem?_getD, buildTable, hentry, Option.getD_some, Function.iterate_succ_apply]

/-- R88, R89: slice 0 is the 256-entry table, one division of each seed. -/
theorem tableAt_buildTable_first (S p : Nat) (refin : Bool) {slices i : Nat} (hslices : 1 ≤ slices) (hi : i < 256) :
    tableAt (buildTable S p refin slices) i = divStep S p refin (tableSeed S refin i) := by
  simpa using tableAt_buildTable S p refin hslices hi

/-- R95 (b): one `Div` takes each slice to the next. -/
theorem tableAt_buildTable_succ (S p : Nat) (refin : Bool) {slices k i : Nat} (hk : k + 1 < slices) (hi : i < 256) :
    tableAt (buildTable S p refin slices) ((k + 1) * 256 + i) =
      divStep S p refin (tableAt (buildTable S p refin slices) (k * 256 + i)) := by
  rw [tableAt_buildTable S p refin hk hi, tableAt_buildTable S p refin (Nat.lt_of_succ_lt hk) hi,
    Function.iterate_succ_apply']

/-- R95 (a): seeds are linear in the index, and division is linear. -/
theorem tableAt_buildTable_xor (S p : Nat) (refin : Bool) {slices k a b : Nat} (hk : k < slices) (ha : a < 256)
    (hb : b < 256) : tableAt (buildTable S p refin slices) (k * 256 + (a ^^^ b)) =
      tableAt (buildTable S p refin slices) (k * 256 + a) ^^^ tableAt (buildTable S p refin slices) (k * 256 + b) := by
  have hab : a ^^^ b < 256 := Nat.xor_lt_two_pow (n := 8) ha hb
  rw [tableAt_buildTable S p refin hk hab, tableAt_buildTable S p refin hk ha, tableAt_buildTable S p refin hk hb,
    tableSeed_xor, iterate_xor (divStep_xor S p refin)]

/-- R95 (b): a `Div` is one table-driven step with a zero byte. -/
theorem divStep_eq_by_table {r : Nat} (p : Nat) (refin : Bool) {slices : Nat} (hslices : 1 ≤ slices) (hS : 8 ≤ S)
    (hr : r < 2 ^ S) : divStep S p refin r =
      if refin then shr r 8 ^^^ tableAt (buildTable S p refin slices) (r % 256)
      else shl S r 8 ^^^ tableAt (buildTable S p refin slices) (shr r (S - 8)) := by
  cases refin with
  | false =>
    have hbyte : shr r (S - 8) < 256 := by
      rw [shr, Nat.div_lt_iff_lt_mul (Nat.two_pow_pos _), show 256 = 2 ^ 8 from rfl, ← pow_add, Nat.add_sub_cancel' hS]
      exact hr
    rw [tableAt_buildTable_first S p false hslices hbyte]
    exact divStep_forward_eq_shl_xor p hS hr
  | true =>
    rw [tableAt_buildTable_first S p true hslices (Nat.mod_lt _ (by decide))]
    exact divStep_reflected_eq_shr_xor S p r

/-- Settles O36: the known entries are divisions of seeds 0, 1 and 0x80. -/
theorem tableFixedEntries : Obligations.TableFixedEntries := by
  intro S p hS _
  have hzero : ∀ refin, tableAt (buildTable S p refin 1) 0 = 0 := fun refin => by
    have hseed : tableSeed S refin 0 = 0 := by simpa using tableSeed_xor S refin 0 0
    rw [tableAt_buildTable_first S p refin le_rfl (by decide), hseed, divStep_zero]
  refine ⟨hzero false, hzero true, ?_, ?_, fun refin slices => ⟨?_, fun hslices i hi => ?_⟩⟩
  · rw [tableAt_buildTable_first S p false le_rfl (by decide), divStep_forward_lowest p hS]
  · rw [tableAt_buildTable_first S p true le_rfl (by decide), divStep_reflected_highest]
  · rw [buildTable_length, Nat.mul_comm]
  · rw [tableAt_buildTable_first S p refin hslices hi, tableAt_buildTable_first S p refin le_rfl hi]

/-- Settles O37: entries are repeated divisions of seeds, and both are linear; a division is a table-driven step. -/
theorem tableLinearAndChained : Obligations.TableLinearAndChained := by
  intro S p refin hS hp T
  refine ⟨fun k a b hk ha hb => tableAt_buildTable_xor S p refin hk ha hb, fun k i hk hi => ?_⟩
  intro e
  have hnext : T ((k + 1) * 256 + i) = divStep S p refin e :=
    tableAt_buildTable_succ S p refin (show k + 1 < 16 by omega) hi
  have he : e < 2 ^ S := tableAt_lt (buildTable_lt refin 16 hS hp) _
  exact ⟨hnext, hnext.trans (divStep_eq_by_table p refin (by decide) hS he)⟩

/-! ### TCLONE -/

theorem exec_tclone_of_accumulating {s : State} (hs : s.eng.status = .accumulating) :
    exec .tclone s = .next (respond (.table s.eng.tmode s.eng.table) s) := by
  simp only [exec, execTclone, hs]

/-- Settles O24: `respond` adds the one response and writes no register. -/
theorem tcloneRespondsTable : Obligations.TcloneRespondsTable := fun _ hs => exec_tclone_of_accumulating hs

end Sys2Proof.Machine
end

section
/-! Byte steps and blocks with the built table are the bit-serial byte step (44_engine_native.md R103, R105, R106): a byte enters
the register by an exclusive-or with its seed, and then the register is divided once. -/

namespace Sys2Proof.Machine

/-! ### One byte step -/

/-- R103: without a table a byte step is one division, and no entry is read. -/
theorem byteStep_none (S : Nat) (refin : Bool) (p : Nat) (table : List Nat) (r b : Nat) :
    byteStep S .none refin p table r b = divStep S p refin (r ^^^ tableSeed S refin b) := by
  cases refin
  · rfl
  · rfl

/-- The register moved `k` bits out at the end where division tests it: the shift term of R103 and R105. -/
def shiftOut (S : Nat) (refin : Bool) (r k : Nat) : Nat := if refin then shr r k else shl S r k

theorem shiftOut_lt {S r : Nat} (refin : Bool) (k : Nat) (hr : r < 2 ^ S) : shiftOut S refin r k < 2 ^ S := by
  cases refin
  · exact shl_lt S r k
  · exact (shr_le r k).trans_lt hr

theorem shiftOut_shiftOut (S : Nat) (refin : Bool) (r k m : Nat) :
    shiftOut S refin (shiftOut S refin r k) m = shiftOut S refin r (k + m) := by
  cases refin with
  | false => simp only [shiftOut, shl, Bool.false_eq_true, if_false, Nat.mod_mul_mod, Nat.mul_assoc, pow_add]
  | true => simp only [shiftOut, shr, if_true, Nat.div_div_eq_div_mul, pow_add]

/-- The byte that a division by eight bits moves out is register byte 0 (R105). -/
theorem registerByte_zero {S r : Nat} (refin : Bool) (hS : 8 ≤ S) (hr : r < 2 ^ S) :
    registerByte S refin r 0 = if refin then r % 256 else shr r (S - 8) := by
  have htop : shr r (S - 8) < 2 ^ 8 := by
    rw [shr, Nat.div_lt_iff_lt_mul (Nat.two_pow_pos _), ← pow_add, Nat.add_sub_cancel' hS]
    exact hr
  rw [registerByte, if_pos (Nat.div_pos hS (by decide))]
  cases refin with
  | false => exact Nat.mod_eq_of_lt htop
  | true => simp [slice]

theorem registerByte_lt (S : Nat) (refin : Bool) (r j : Nat) : registerByte S refin r j < 256 := by
  unfold registerByte
  split
  · split
    · exact slice_lt r _ 8
    · exact slice_lt r _ 8
  · decide

/-- 43_tablebuilder.md R95 (b): a division is a shift, xor the division of the byte moved out. -/
theorem divStep_eq_shiftOut_xor {S r : Nat} (p : Nat) (refin : Bool) (hS : 8 ≤ S) (hr : r < 2 ^ S) :
    divStep S p refin r =
      shiftOut S refin r 8 ^^^ divStep S p refin (tableSeed S refin (registerByte S refin r 0)) := by
  rw [registerByte_zero refin hS hr]
  cases refin
  · exact divStep_forward_eq_shl_xor p hS hr
  · exact divStep_reflected_eq_shr_xor S p r

/-- A byte step moves register byte 0 out and divides it together with the data byte. -/
theorem divStep_xor_seed {S r : Nat} (p : Nat) (refin : Bool) (b : Nat) (hS : 8 ≤ S) (hr : r < 2 ^ S) :
    divStep S p refin (r ^^^ tableSeed S refin b) =
      shiftOut S refin r 8 ^^^ divStep S p refin (tableSeed S refin (b ^^^ registerByte S refin r 0)) := by
  rw [divStep_xor, divStep_eq_shiftOut_xor p refin hS hr, tableSeed_xor, divStep_xor, Nat.xor_assoc,
    Nat.xor_comm (divStep S p refin (tableSeed S refin b))]

/-- R103: with entries that are divisions of seeds a table-driven byte step is the bit-serial one. -/
theorem byteStep_eq_byteStep_none {S r b : Nat} (tmode : TMode) (p : Nat) (refin : Bool) (table : List Nat)
    (hS : 8 ≤ S) (hr : r < 2 ^ S) (hb : b < 256)
    (htable : tmode ≠ .none → ∀ i < 256, tableAt table i = divStep S p refin (tableSeed S refin i)) :
    byteStep S tmode refin p table r b = byteStep S .none refin p [] r b := by
  have hbyte : b ^^^ registerByte S refin r 0 < 256 := Nat.xor_lt_two_pow (n := 8) hb (registerByte_lt _ _ _ _)
  have hindex : r % 256 ^^^ b = (r ^^^ b) % 256 := by
    simpa only [slice_of_lt hr] using bottomByte_xor_limb r hS hb
  rw [byteStep_none, divStep_xor_seed p refin b hS hr]
  by_cases hmode : tmode = .none
  · rw [hmode, byteStep_none, divStep_xor_seed p refin b hS hr]
  · rw [← htable hmode _ hbyte, registerByte_zero refin hS hr, Nat.xor_comm b]
    match tmode, refin with
    | .t256, false | .t4096, false => rfl
    | .t256, true | .t4096, true => simp only [byteStep, hindex, shiftOut, if_true]

/-- R103 with R93: whatever TMODE, the byte step with the built table is the bit-serial one. -/
theorem byteStep_built {S r b : Nat} (tmode : TMode) (p : Nat) (refin : Bool) (hS : 8 ≤ S) (hr : r < 2 ^ S) (hb : b < 256) :
    byteStep S tmode refin p (buildTable S p refin (tableSlices tmode)) r b = byteStep S .none refin p [] r b := by
  refine byteStep_eq_byteStep_none tmode p refin _ hS hr hb fun hmode i hi => tableAt_buildTable_first S p refin ?_ hi
  cases tmode with
  | none => exact absurd rfl hmode
  | t256 => decide
  | t4096 => decide

/-- Settles O38: both built tables hold the division of every byte's seed in slice 0. -/
theorem tableStepEqualsBitSerial : Obligations.TableStepEqualsBitSerial := by
  intro S p r b refin hS _ hr hb
  exact ⟨byteStep_built .t256 p refin hS hr hb, byteStep_built .t4096 p refin hS hr hb⟩

/-- R103 over a message: whatever TMODE, with the built table it is fed bit-serially. -/
theorem foldl_byteStep_built {S p r : Nat} (tmode : TMode) (refin : Bool) {d : List Nat} (hS : 8 ≤ S) (hp : p < 2 ^ S)
    (hr : r < 2 ^ S) (hd : ∀ b ∈ d, b < 256) :
    d.foldl (byteStep S tmode refin p (buildTable S p refin (tableSlices tmode))) r =
      d.foldl (byteStep S .none refin p []) r := by
  induction d generalizing r with
  | nil => rfl
  | cons b d ih =>
    obtain ⟨hb, hrest⟩ := List.forall_mem_cons.mp hd
    rw [List.foldl_cons, List.foldl_cons, byteStep_built tmode p refin hS hr hb,
      ih (byteStep_lt .none refin hS hp (by simp) hr hb) hrest]

/-! ### One block step -/

/-- Feeding a message is linear in the register: what is added to it is divided once a byte. -/
theorem foldl_byteStep_none_xor (S p : Nat) (refin : Bool) (d : List Nat) (r c : Nat) :
    d.foldl (byteStep S .none refin p []) (r ^^^ c) =
      d.foldl (byteStep S .none refin p []) r ^^^ (divStep S p refin)^[d.length] c := by
  induction d generalizing r c with
  | nil => rfl
  | cons b d ih =>
    have hstep : byteStep S .none refin p [] (r ^^^ c) b = byteStep S .none refin p [] r b ^^^ divStep S p refin c := by
      rw [byteStep_none, byteStep_none, Nat.xor_right_comm, divStep_xor]
    rw [List.foldl_cons, List.foldl_cons, hstep, ih, List.length_cons, Function.iterate_succ_apply]

theorem slice_shr (v k lo len : Nat) : slice (shr v k) lo len = slice v (lo + k) len := by
  rw [slice, slice, shr, Nat.div_div_eq_div_mul, ← pow_add, Nat.add_comm]

theorem slice_shl {S v k lo len : Nat} (hk : k ≤ lo) (h : lo + len ≤ S) :
    slice (shl S v k) lo len = slice v (lo - k) len := by
  rw [shl, slice_mod_of_le h, slice, slice, ← Nat.sub_add_cancel hk, pow_add, Nat.mul_div_mul_right _ _ (Nat.two_pow_pos k),
    Nat.add_sub_cancel]

theorem slice_shl_zero {S len : Nat} (v : Nat) (h : len ≤ S) : slice (shl S v len) 0 len = 0 := by
  rw [shl, slice_mod_of_le (by omega), slice_mul_zero, Nat.mul_mod_left]

/-- R105: when the register moves by eight bits each of its bytes takes the place of the one before it. -/
theorem registerByte_shiftOut {S r : Nat} (refin : Bool) (j : Nat) (hdvd : S % 8 = 0) (hr : r < 2 ^ S) :
    registerByte S refin (shiftOut S refin r 8) j = registerByte S refin r (j + 1) := by
  have hbytes : 8 * (S / 8) = S := Nat.mul_div_cancel' (Nat.dvd_of_mod_eq_zero hdvd)
  unfold registerByte
  obtain hlt | heq | hgt := Nat.lt_trichotomy (j + 1) (S / 8)
  · rw [if_pos (show j < S / 8 by omega), if_pos hlt]
    cases refin
    · exact (slice_shl (by omega) (by omega)).trans (congrArg (slice r · 8) (by omega))
    · exact slice_shr r 8 (8 * j) 8
  · rw [if_pos (show j < S / 8 by omega), if_neg (show ¬ j + 1 < S / 8 by omega)]
    cases refin
    · exact (congrArg (slice _ · 8) (show S - 8 - 8 * j = 0 by omega)).trans (slice_shl_zero r (by omega))
    · exact (slice_shr r 8 (8 * j) 8).trans (slice_eq_zero_of_lt (by rwa [show 8 * j + 8 = S by omega]))
  · rw [if_neg (show ¬ j < S / 8 by omega), if_neg (show ¬ j + 1 < S / 8 by omega)]

theorem foldl_xor_start (f : Nat → Nat) (js : List Nat) (a : Nat) :
    js.foldl (fun acc j => acc ^^^ f j) a = a ^^^ js.foldl (fun acc j => acc ^^^ f j) 0 := by
  simpa [List.foldl_map] using List.foldl_assoc (op := HXor.hXor) (l := js.map f) (a₁ := a) (a₂ := 0)

theorem foldl_xor_range_succ (f : Nat → Nat) (n : Nat) :
    (List.range (n + 1)).foldl (fun acc j => acc ^^^ f j) 0 =
      f 0 ^^^ (List.range n).foldl (fun acc j => acc ^^^ f (j + 1)) 0 := by
  rw [List.range_succ_eq_map, List.foldl_cons, List.foldl_map, foldl_xor_start, Nat.zero_xor]

/-- R106 for a message of any length: feeding it moves the register out by a byte at a time, and adds for each byte, with the
register byte it meets, the seed divided once for this byte and once for every later one. -/
theorem foldl_byteStep_none_eq {S p r : Nat} (refin : Bool) {d : List Nat} (hS : 8 ≤ S) (hdvd : S % 8 = 0)
    (hr : r < 2 ^ S) :
    d.foldl (byteStep S .none refin p []) r =
      shiftOut S refin r (8 * d.length) ^^^
        (List.range d.length).foldl (fun acc j => acc ^^^
          (divStep S p refin)^[d.length - j] (tableSeed S refin (d.getD j 0 ^^^ registerByte S refin r j))) 0 := by
  induction d generalizing r with
  | nil => cases refin <;> simp [shiftOut, shl, shr, Nat.mod_eq_of_lt hr]
  | cons b d ih =>
    rw [List.foldl_cons, byteStep_none, divStep_xor_seed p refin b hS hr, foldl_byteStep_none_xor,
      ih (shiftOut_lt refin 8 hr), shiftOut_shiftOut, List.length_cons, foldl_xor_range_succ]
    simp only [registerByte_shiftOut refin _ hdvd hr, List.getD_cons_zero, List.getD_cons_succ, Nat.sub_zero,
      Nat.add_sub_add_right, Function.iterate_succ_apply]
    rw [Nat.xor_assoc, Nat.xor_comm (List.foldl _ _ _), show 8 + 8 * d.length = 8 * (d.length + 1) by omega]

/-- R106 bit-serially: block entry `j` is the seed of data byte `j` with register byte `j`, divided `16 - j` times. -/
theorem block16_built {S p r : Nat} (refin : Bool) {d : List Nat} (hS : 8 ≤ S) (hdvd : S % 8 = 0) (hr : r < 2 ^ S)
    (hlen : d.length = 16) (hd : ∀ b ∈ d, b < 256) :
    block16 S refin (buildTable S p refin 16) r d = d.foldl (byteStep S .none refin p []) r := by
  have hentry : ∀ acc, ∀ j ∈ List.range 16, acc ^^^ blockEntry S refin (buildTable S p refin 16) r d j =
      acc ^^^ (divStep S p refin)^[16 - j] (tableSeed S refin (d.getD j 0 ^^^ registerByte S refin r j)) := by
    intro acc j hj
    have hj : j < 16 := List.mem_range.mp hj
    have hdata : d.getD j 0 < 256 := by
      rw [List.getD_eq_getElem _ _ (hlen ▸ hj)]
      exact hd _ (List.getElem_mem _)
    have hbyte : d.getD j 0 ^^^ registerByte S refin r j < 256 :=
      Nat.xor_lt_two_pow (n := 8) hdata (registerByte_lt S refin r j)
    rw [blockEntry, tableAt_buildTable S p refin (show 15 - j < 16 by omega) hbyte, show 15 - j + 1 = 16 - j by omega]
  rw [block16_eq, List.foldl_ext _ _ _ hentry, foldl_byteStep_none_eq refin hS hdvd hr, hlen]
  rfl

/-- Settles O39: both sides are the bit-serial feed of the sixteen bytes. -/
theorem blockEqualsSixteenByteSteps : Obligations.BlockEqualsSixteenByteSteps := by
  intro S p r refin d hS hdvd hp hr hlen hd
  exact (block16_built refin hS hdvd hr hlen hd).trans (foldl_byteStep_built .t4096 refin hS hp hr hd).symm

end Sys2Proof.Machine
end

section
/-! The engine commands of 44_engine_native.md where they complete: the whole next state of each, and the registers that CFG
commits by the S-bit rules. -/

namespace Sys2Proof.Machine

section Completion

variable {s : State}

theorem exec_cfg_of_accepted {width : BitVec 16} {tsrc : TSrc} {tmode : TMode} {refout refin : Bool} {shape : Shape} {g : Geom}
    (hwf : (Instr.cfg width tsrc tmode refout refin shape).wf = true)
    (hg : geometry s.plat.maxWidth shape width.toNat = some g) (hp : operandsBelowWidth width.toNat s.port = true)
    (ht : tsrc = .explicit → presentableList (tableCount tmode) g.s s.port.opTable = true) :
    exec (.cfg width tsrc tmode refout refin shape) s =
      .next (respond .none { s with eng := newEngine g width tsrc tmode refout refin shape s.port }) := by
  have hlegal : ¬ (tsrc = .explicit ∧ tmode = .none) := by
    rintro ⟨rfl, rfl⟩
    cases hwf
  have htable : ¬ (tsrc = .explicit ∧ ¬ presentableList (tableCount tmode) g.s s.port.opTable = true) :=
    fun ⟨hsrc, hnot⟩ => hnot (ht hsrc)
  simp only [exec, execCfg, if_neg hlegal, hg, hp, not_true_eq_false, if_false, if_neg htable]

theorem exec_upd_of_accumulating (hs : s.eng.status = .accumulating) (b : Byte) :
    exec (.upd b) s = .next (respond .none (setReg (engineByteStep s.eng s.eng.reg b.toNat) s)) := by
  simp only [exec, execUpd, hs]

theorem exec_updb_of_admitted (hs : s.eng.status = .accumulating) (hp : addressesPresentable s = true)
    (hi : rangeInside s = true) (hr : rangeReadable s = true) :
    exec .updb s = .next (respond .none (setReg (consume s.eng s.eng.reg (rangeBytes s)) s)) := by
  simp only [exec, execUpdb, hs, hp, hi, hr, not_true_eq_false, if_false]

theorem exec_rst_of_accumulating (hs : s.eng.status = .accumulating) :
    exec .rst s = .next (respond .none (setReg s.eng.initP s)) := by
  simp only [exec, execRst, hs]

end Completion

/-- Settles O16: no fault and no refusal of CFG applies, so it commits. -/
theorem cfgCommitsInstance : Obligations.CfgCommitsInstance :=
  fun _ _ _ _ _ _ _ _ hwf hg hp ht => exec_cfg_of_accepted hwf hg hp ht

/-- Settles O18: the byte step of the engine is written to REG, and `respond` writes no register. -/
theorem updAdvancesRegister : Obligations.UpdAdvancesRegister := fun b _ hs => exec_upd_of_accumulating hs b

@[simp] theorem consume_nil (e : Engine) (r : Nat) : consume e r [] = r := by
  unfold consume
  cases e.tmode
  · rfl
  · rfl
  · rfl

theorem rangeInside_iff (s : State) :
    rangeInside s = true ↔ s.port.opLen = 0 ∨ s.port.opBase + s.port.opOff + s.port.opLen ≤ 2 ^ s.plat.addrBits := by
  simp [rangeInside]

theorem rangeReadable_iff (s : State) :
    rangeReadable s = true ↔
      ∀ k, k < s.port.opLen → s.plat.bufReadable (s.port.opBase + s.port.opOff + k) = true := by
  simp [rangeReadable, effectiveAddress]

theorem rangeBytes_of_opLen_zero {s : State} (h : s.port.opLen = 0) : rangeBytes s = [] := by
  simp [rangeBytes, h]

/-- Settles O19: none of UPDB's refusals applies; a range of no byte leaves REG as it was. -/
theorem updbConsumesRange : Obligations.UpdbConsumesRange := by
  intro s hs hp hinside hreadable
  have hexec := exec_updb_of_admitted hs hp ((rangeInside_iff s).mpr hinside) ((rangeReadable_iff s).mpr hreadable)
  refine ⟨hexec, fun hlen => ?_⟩
  rw [hexec, rangeBytes_of_opLen_zero hlen, consume_nil]
  rfl

/-- Settles O20: the number delivered is below `2^WIDTH`, and is Finalize's own where that is. -/
theorem finDeliversAndReloads : Obligations.FinDeliversAndReloads := fun s hs =>
  ⟨engineResult s.eng s.eng.reg, boundedResult_lt _ _, boundedResult_of_lt, execFin_of_accumulating hs⟩

/-- Settles O21: RST writes INIT_P to REG, where a second RST finds it. -/
theorem rstReloadsInit : Obligations.RstReloadsInit := fun _ hs =>
  ⟨_, exec_rst_of_accumulating hs, rfl, _, exec_rst_of_accumulating hs, rfl⟩

/-! ### The registers CFG commits -/

section Commit

variable {maxWidth : Nat} {width : BitVec 16} {tsrc : TSrc} {tmode : TMode} {refout refin : Bool} {shape : Shape} {g : Geom}
  {p : Bundle}

/-- 43_tablebuilder.md R93: a presented table is taken as it is. -/
theorem newEngine_table_of_explicit (hwf : (Instr.cfg width .explicit tmode refout refin shape).wf = true) :
    (newEngine g width .explicit tmode refout refin shape p).table = p.opTable := by
  cases tmode with
  | none => cases hwf
  | t256 => rfl
  | t4096 => rfl

/-- 43_tablebuilder.md R88 to R91: without a presented table CFG commits the built one. -/
theorem newEngine_tableBuilt (hg : geometry maxWidth shape width.toNat = some g)
    (hp : operandsBelowWidth width.toNat p = true) :
    (newEngine g width .build tmode refout refin shape p).TableBuilt := by
  obtain hbuilt | ⟨hsrc, _⟩ := newEngine_table (tsrc := .build) (tmode := tmode) (refout := refout) (refin := refin) hg hp
  · exact hbuilt
  · cases hsrc

end Commit

/-- Settles O17: POLY_P, INIT_P and XOROUT_P are those of the S-bit rules, and so is a table built of POLY_P. -/
theorem cfgBuildsSBitEngine : Obligations.CfgBuildsSBitEngine := by
  intro width tsrc tmode refout refin shape s g hwf hg hp ht
  refine ⟨_, exec_cfg_of_accepted hwf hg hp ht, rfl, ?_⟩
  obtain ⟨hpolyP, hinitP, hxoroutP⟩ := newEngine_constants (tsrc := tsrc) (tmode := tmode) (refout := refout)
    (refin := refin) hg hp
  rw [respond_eng, ← hpolyP, ← hinitP, ← hxoroutP]
  cases tsrc with
  | build =>
    exact congrArg (fun entries => { newEngine g width .build tmode refout refin shape s.port with table := entries })
      (newEngine_tableBuilt hg hp)
  | explicit =>
    exact congrArg (fun entries => { newEngine g width .explicit tmode refout refin shape s.port with table := entries })
      (newEngine_table_of_explicit hwf)

end Sys2Proof.Machine
end

section
/-! The configured engine meets the S-bit rules of 44_engine_native.md, whatever its shape; with the built table a UPDB feeds its
bytes one by one; and a session's result depends neither on the shape nor on the table mode. -/

namespace Sys2Proof.Machine

/-! ### The shape's operations -/

/-- Settles O40: in each kind of shape the byte step is the S-bit rule seen through its limbs. -/
theorem engineByteStepMeetsRule : Obligations.EngineByteStepMeetsRule := fun _ _ _ _ he hr hb =>
  he.engineByteStep_eq hr hb

/-- Settles O41: in each kind of shape the block step is the S-bit rule seen through its limbs. -/
theorem engineBlockMeetsRule : Obligations.EngineBlockMeetsRule := fun _ _ _ d he hr _ _ => he.engineBlock16_eq d hr

/-- Settles O42: in each kind of shape `Finalize` is the S-bit rule seen through its limbs. -/
theorem engineFinalizeMeetsRule : Obligations.EngineFinalizeMeetsRule := fun _ _ _ he hr => he.engineFinalize_eq hr

/-! ### UPDB -/

theorem feedBytes_append (e : Engine) (r : Nat) (d₁ d₂ : List Nat) :
    feedBytes e r (d₁ ++ d₂) = feedBytes e (feedBytes e r d₁) d₂ := List.foldl_append

namespace Engine.Coherent

variable {maxWidth : Nat} {e : Engine} (he : e.Coherent maxWidth)
include he

theorem s_mod_eight : e.s % 8 = 0 := by
  obtain ⟨_, h⟩ := he.fits
  exact Nat.mod_eq_zero_of_dvd h.eight_dvd_s

theorem feedBytes_eq_foldl {r : Nat} {d : List Nat} (hr : r < 2 ^ e.s) (hd : ∀ b ∈ d, b < 256) :
    feedBytes e r d = d.foldl (byteStep e.s e.tmode e.refin e.polyP e.table) r := by
  induction d generalizing r with
  | nil => rfl
  | cons b d ih =>
    obtain ⟨hb, hrest⟩ := List.forall_mem_cons.mp hd
    rw [List.foldl_cons, ← he.engineByteStep_eq hr hb, ← ih (he.engineByteStep_lt hr hb) hrest]
    rfl

theorem feedBytes_lt {r : Nat} {d : List Nat} (hr : r < 2 ^ e.s) (hd : ∀ b ∈ d, b < 256) : feedBytes e r d < 2 ^ e.s :=
  feedBytes_of_forall (P := (· < 2 ^ e.s)) (fun _ _ => he.engineByteStep_lt) hr hd

/-- R106: with the built table a block step feeds its sixteen bytes. -/
theorem engineBlock16_built {r : Nat} {d : List Nat} (hmode : e.tmode = .t4096) (hbuilt : e.TableBuilt) (hr : r < 2 ^ e.s)
    (hlen : d.length = 16) (hd : ∀ b ∈ d, b < 256) : engineBlock16 e r d = feedBytes e r d := by
  have htable : e.table = buildTable e.s e.polyP e.refin 16 := by
    rw [hbuilt, hmode]
    rfl
  rw [he.engineBlock16_eq d hr, he.feedBytes_eq_foldl hr hd, htable, hmode]
  exact blockEqualsSixteenByteSteps _ _ _ _ _ he.eight_le_s he.s_mod_eight he.polyP_lt hr hlen hd

theorem feedBlocks_built (hmode : e.tmode = .t4096) (hbuilt : e.TableBuilt) (k : Nat) {r : Nat} {d : List Nat}
    (hr : r < 2 ^ e.s) (hk : 16 * k ≤ d.length) (hd : ∀ b ∈ d, b < 256) :
    feedBlocks e k r d = feedBytes e r (d.take (16 * k)) := by
  induction k generalizing r d with
  | zero => rfl
  | succ k ih =>
    have hfirst : ∀ b ∈ d.take 16, b < 256 := fun b hb => hd b (List.mem_of_mem_take hb)
    have hrest : ∀ b ∈ d.drop 16, b < 256 := fun b hb => hd b (List.mem_of_mem_drop hb)
    have hlen : (d.take 16).length = 16 := by rw [List.length_take]; omega
    have hblock := he.engineBlock16_built hmode hbuilt hr hlen hfirst
    rw [feedBlocks, hblock, ih (he.feedBytes_lt hr hfirst) (by rw [List.length_drop]; omega) hrest,
      ← feedBytes_append, show 16 * (k + 1) = 16 + 16 * k by omega, List.take_add]

/-- R104 with R106: with the built table UPDB feeds its bytes one by one, whole blocks or not. -/
theorem consume_built {r : Nat} {d : List Nat} (hbuilt : e.TableBuilt) (hr : r < 2 ^ e.s) (hd : ∀ b ∈ d, b < 256) :
    consume e r d = feedBytes e r d := by
  unfold consume
  cases hmode : e.tmode with
  | none => rfl
  | t256 => rfl
  | t4096 =>
    have hblocks := he.feedBlocks_built hmode hbuilt (d.length / 16) hr (Nat.mul_div_le _ _) hd
    show feedBytes e (feedBlocks e (d.length / 16) r d) (d.drop (16 * (d.length / 16))) = feedBytes e r d
    rw [hblocks, ← feedBytes_append, List.take_append_drop]

end Engine.Coherent

/-- Settles O44: UPDB consumes the range, which with the built table feeds its bytes one by one. -/
theorem updbIsByteByByte : Obligations.UpdbIsByteByByte := by
  intro s hinv hs hbuilt hp hinside hreadable
  have he := hinv.configured hs
  rw [exec_updb_of_admitted hs hp hinside hreadable, he.consume_built hbuilt he.reg_lt rangeBytes_lt,
    he.feedBytes_eq_foldl he.reg_lt rangeBytes_lt]
  rfl

/-! ### Finalize in its four cases -/

/-- R108: with refout = 1 the register, as it stands or mirrored, is the result but for xorout. -/
theorem finalize_refout (S moves : Nat) (refin : Bool) (x r : Nat) :
    finalize S moves refin true x r = (if refin then r else reflect S r) ^^^ x := by
  cases refin <;> simp [finalize, finalizeWith]

/-- R108: with refout = 0 the padding is shifted out; a shift by no bits is no shift. -/
theorem finalize_not_refout (S moves : Nat) (refin : Bool) (x r : Nat) :
    finalize S moves refin false x r = shr (if refin then reflect S r else r) moves ^^^ x := by
  obtain rfl | hm := Nat.eq_zero_or_pos moves
  · cases refin <;> simp [finalize, finalizeWith, shr]
  · cases refin <;> simp [finalize, finalizeWith, hm]

/-- Zeros below a number stand above its mirror. -/
theorem reflect_mul_two_pow (S k r : Nat) : reflect (S + k) (r * 2 ^ k) = reflect S r := by
  apply Nat.eq_of_testBit_eq
  intro i
  obtain hlow | ⟨hpad, hlow⟩ | hout : i < S ∨ (i < S + k ∧ S ≤ i) ∨ S + k ≤ i := by omega
  · simp [Nat.testBit_mul_two_pow, hlow, show i < S + k by omega, show k ≤ S + k - 1 - i by omega,
      show S + k - 1 - i - k = S - 1 - i by omega]
  · simp [Nat.testBit_mul_two_pow, hpad, show ¬ i < S by omega, show ¬ k ≤ S + k - 1 - i by omega]
  · simp [show ¬ i < S + k by omega, show ¬ i < S by omega]

/-- R108, reflected: on a register of any length the remainder stands at the bottom. -/
theorem finalize_reflected {S width : Nat} (refout : Bool) (x r : Nat) (hwidth : width ≤ S) :
    finalize S (S - width) true refout x r = (if refout then r else reflect width r) ^^^ x := by
  cases refout
  · rw [finalize_not_refout, if_pos rfl, shr_reflect r hwidth, if_neg Bool.false_ne_true]
  · rw [finalize_refout, if_pos rfl, if_pos rfl]

/-- R108, forward: the zeros below a remainder do not matter. -/
theorem finalize_forward_mul_two_pow {S width : Nat} (k : Nat) (refout : Bool) (x r : Nat) (hwidth : width ≤ S) :
    finalize (S + k) (S + k - width) false refout x (r * 2 ^ k) = finalize S (S - width) false refout x r := by
  cases refout with
  | false =>
    have hpow : 2 ^ (S + k - width) = 2 ^ (S - width) * 2 ^ k := by rw [← pow_add, Nat.sub_add_comm hwidth]
    simp only [finalize_not_refout, shr, hpow, Bool.false_eq_true, if_false, Nat.mul_div_mul_right _ _ (Nat.two_pow_pos k)]
  | true => simp only [finalize_refout, reflect_mul_two_pow, Bool.false_eq_true, if_false]

/-- Settles O43: a forward remainder has its zeros removed, a reflected one stands at the bottom; a mirror twice is none. -/
theorem finalizeFourCases : Obligations.FinalizeFourCases := by
  intro S width C x _ hwidth hC hx moves
  have hforward (refout : Bool) :
      finalize S moves false refout x (C * 2 ^ moves) = finalize width 0 false refout x C := by
    have h := finalize_forward_mul_two_pow moves refout x C (le_refl width)
    rwa [Nat.sub_self, show width + moves = S from Nat.add_sub_cancel' hwidth] at h
  refine ⟨?_, ?_, ?_, ?_, Nat.xor_lt_two_pow hC hx, Nat.xor_lt_two_pow (reflect_lt _ _) hx⟩
  · rw [hforward]
    rfl
  · rw [finalize_reflected true x _ hwidth, if_pos rfl]
  · rw [finalize_reflected false x _ hwidth, if_neg Bool.false_ne_true, reflect_reflect hC]
  · rw [hforward]
    rfl

/-! ### Sessions -/

/-- `crc(P, m)` on a register of `S` bits that is fed bit-serially, with no shape and no table (48_required_properties.md, before
R165): the number that every engine with the built table delivers (`sessionCrc_newEngine`). -/
def serialCrc (S width poly init : Nat) (refin refout : Bool) (xorout : Nat) (message : List Nat) : Nat :=
  finalize S (S - width) refin refout xorout
    (message.foldl (byteStep S .none refin (parse poly S width refin) []) (parse init S width refin))

theorem shl_mul_two_pow (S k v m : Nat) : shl (S + k) (v * 2 ^ k) m = shl S v m * 2 ^ k := by
  rw [shl, shl, Nat.mul_right_comm, pow_add, Nat.mul_mod_mul_right]

theorem xor_mul_two_pow (a b k : Nat) : (a ^^^ b) * 2 ^ k = a * 2 ^ k ^^^ b * 2 ^ k := by
  simp only [← Nat.shiftLeft_eq, Nat.shiftLeft_xor_distrib]

/-- A forward step on a register that is `k` bits longer below leaves those bits zero. -/
theorem bitStepF_mul_two_pow {S : Nat} (hS : 1 ≤ S) (k p r : Nat) :
    bitStepF (S + k) (p * 2 ^ k) (r * 2 ^ k) = bitStepF S p r * 2 ^ k := by
  have htop : (r * 2 ^ k).testBit (S + k - 1) = r.testBit (S - 1) := by
    simp [Nat.testBit_mul_two_pow, show k ≤ S + k - 1 by omega, show S + k - 1 - k = S - 1 by omega]
  rw [bitStepF, bitStepF, htop, shl_mul_two_pow, ← xor_mul_two_pow]
  split
  · rfl
  · rfl

theorem divStep_mul_two_pow {S : Nat} (hS : 1 ≤ S) (k p r : Nat) :
    divStep (S + k) (p * 2 ^ k) false (r * 2 ^ k) = divStep S p false r * 2 ^ k :=
  iterate_view (view := (· * 2 ^ k)) (P := fun _ => True) (fun v _ => bitStepF_mul_two_pow hS k p v) (fun _ _ => trivial) 8
    trivial

theorem byteStep_none_mul_two_pow {S : Nat} (hS : 8 ≤ S) (k p r b : Nat) :
    byteStep (S + k) .none false (p * 2 ^ k) [] (r * 2 ^ k) b = byteStep S .none false p [] r b * 2 ^ k := by
  have hseed : tableSeed (S + k) false b = tableSeed S false b * 2 ^ k := by
    show shl (S + k) b (S + k - 8) = shl S b (S - 8) * 2 ^ k
    rw [← shl_mul_two_pow, shl, shl, Nat.mul_assoc, ← pow_add, show k + (S - 8) = S + k - 8 by omega]
  rw [byteStep_none, byteStep_none, hseed, ← xor_mul_two_pow, divStep_mul_two_pow (by omega)]

/-- The reflected byte step tests the bottom bit and shifts down: it is the same on every register. -/
theorem byteStep_none_reflected (S S' p : Nat) : byteStep S .none true p [] = byteStep S' .none true p [] := rfl

theorem parse_forward_mul_two_pow {raw S width : Nat} (k : Nat) (hpos : 1 ≤ width) (hwidth : width ≤ S)
    (hraw : raw < 2 ^ width) : parse raw (S + k) width false = parse raw S width false * 2 ^ k := by
  obtain ⟨hshort, _⟩ := parseClosedForms raw S width hpos hwidth hraw
  obtain ⟨hlong, _⟩ := parseClosedForms raw (S + k) width hpos (by omega) hraw
  rw [hshort, hlong, Nat.mul_assoc, ← pow_add, Nat.sub_add_comm hwidth]

theorem parse_reflected_add {raw S width : Nat} (k : Nat) (hpos : 1 ≤ width) (hwidth : width ≤ S) (hraw : raw < 2 ^ width) :
    parse raw (S + k) width true = parse raw S width true := by
  obtain ⟨_, hshort, _⟩ := parseClosedForms raw S width hpos hwidth hraw
  obtain ⟨_, hlong, _⟩ := parseClosedForms raw (S + k) width hpos (by omega) hraw
  rw [hshort, hlong]

/-- The checksum does not depend on the length of the register: a longer one holds zeros below (forward) or above (reflected). -/
theorem serialCrc_add {S width poly init : Nat} (k : Nat) (refin refout : Bool) (xorout : Nat) (message : List Nat)
    (hS : 8 ≤ S) (hwidth : width ≤ S) (hpos : 1 ≤ width) (hpoly : poly < 2 ^ width) (hinit : init < 2 ^ width) :
    serialCrc (S + k) width poly init refin refout xorout message =
      serialCrc S width poly init refin refout xorout message := by
  unfold serialCrc
  cases refin with
  | true =>
    rw [parse_reflected_add k hpos hwidth hpoly, parse_reflected_add k hpos hwidth hinit, byteStep_none_reflected (S + k) S,
      finalize_reflected refout xorout _ hwidth, finalize_reflected refout xorout _ (hwidth.trans (Nat.le_add_right S k))]
  | false =>
    rw [parse_forward_mul_two_pow k hpos hwidth hpoly, parse_forward_mul_two_pow k hpos hwidth hinit,
      List.foldl_hom (· * 2 ^ k) fun r b => byteStep_none_mul_two_pow hS k _ r b,
      finalize_forward_mul_two_pow k refout xorout _ hwidth]

section Session

variable {maxWidth : Nat} {width : BitVec 16} {tmode : TMode} {refout refin : Bool} {shape : Shape} {g : Geom} {p : Bundle}
  {message : List Nat}

/-- 48_required_properties.md R166: an engine with the built table computes the bit-serial checksum on its register. -/
theorem sessionCrc_newEngine (hg : geometry maxWidth shape width.toNat = some g) (hp : operandsBelowWidth width.toNat p = true)
    (hm : ∀ b ∈ message, b < 256) :
    sessionCrc (newEngine g width .build tmode refout refin shape p) message =
      boundedResult width (serialCrc g.s width.toNat p.opPoly p.opInit refin refout p.opXorout message) := by
  have he : (newEngine g width .build tmode refout refin shape p).Coherent maxWidth := newEngine_coherent hg hp nofun
  have hbuilt : (newEngine g width .build tmode refout refin shape p).TableBuilt := newEngine_tableBuilt hg hp
  obtain ⟨hpolyP, hinitP, hxoroutP⟩ := newEngine_constants (tsrc := .build) (tmode := tmode) (refout := refout)
    (refin := refin) hg hp
  rw [sessionCrc, engineResult, he.engineFinalize_eq (he.feedBytes_lt he.initP_lt hm), he.feedBytes_eq_foldl he.initP_lt hm,
    hbuilt, foldl_byteStep_built _ _ he.eight_le_s he.polyP_lt he.initP_lt hm, he.moves_eq, hpolyP, hinitP, hxoroutP]
  rfl

/-- The checksum on a register of exactly the needed bits is the checksum on that of every legal shape. -/
theorem serialCrc_of_geometry (hg : geometry maxWidth shape width.toNat = some g)
    (hp : operandsBelowWidth width.toNat p = true) :
    serialCrc g.s width.toNat p.opPoly p.opInit refin refout p.opXorout message =
      serialCrc (max width.toNat 8) width.toNat p.opPoly p.opInit refin refout p.opXorout message := by
  obtain ⟨n, h⟩ := geometry_fits hg
  obtain ⟨hpoly, hinit, _⟩ := lt_of_operandsBelowWidth hp
  obtain ⟨k, hk⟩ := Nat.exists_eq_add_of_le (Nat.max_le.mpr ⟨h.width_le_s, h.eight_le_s⟩)
  rw [hk]
  exact serialCrc_add k refin refout _ message (Nat.le_max_right _ _) (Nat.le_max_left _ _) h.width_pos hpoly hinit

end Session

/-- Settles O51: both sessions compute the bit-serial checksum on a register of the width, or of 8 bits if that is more. -/
theorem resultIndependentOfShapeAndTable : Obligations.ResultIndependentOfShapeAndTable := by
  intro maxWidth width tmode tmode' refout refin shape shape' g g' p message hg hg' hp hm
  rw [sessionCrc_newEngine hg hp hm, sessionCrc_newEngine hg' hp hm, serialCrc_of_geometry hg hp, serialCrc_of_geometry hg' hp]

end Sys2Proof.Machine
end

section
/-! Any array of L-bit limbs is the limb view of its value, so each limb operation is read off its rule on the limb view
(45_engine_sharded.md R126 to R128). -/

namespace Sys2Proof.Machine

section LimbOperations

variable {L k : Nat} {x y : List Nat} (h : k ≤ L) (hx : ∀ d ∈ x, d < 2 ^ L)

include hx

/-- R126: the left shift of an array is the limb view of its shifted value. -/
theorem limbShiftLeft_eq_limbsOf : limbShiftLeft L k h x = limbsOf L x.length (limbVal L x * 2 ^ k) := by
  rw [← limbShiftLeft_limbsOf h, limbsOf_limbVal hx]

/-- R127: the right shift of an array is the limb view of its shifted value. -/
theorem limbShiftRight_eq_limbsOf : limbShiftRight L k h x = limbsOf L x.length (limbVal L x / 2 ^ k) := by
  rw [← limbShiftRight_limbsOf h (limbVal_lt hx), limbsOf_limbVal hx]

theorem limbShiftLeft_zero : limbShiftLeft L 0 (Nat.zero_le L) x = x := by
  rw [limbShiftLeft_eq_limbsOf _ hx, pow_zero, Nat.mul_one, limbsOf_limbVal hx]

theorem limbShiftRight_zero : limbShiftRight L 0 (Nat.zero_le L) x = x := by
  rw [limbShiftRight_eq_limbsOf _ hx, pow_zero, Nat.div_one, limbsOf_limbVal hx]

/-- R128: the exclusive or of two arrays of one length is the limb view of the exclusive or of their values. -/
theorem limbXor_eq_limbsOf (hlen : x.length = y.length) (hy : ∀ d ∈ y, d < 2 ^ L) :
    limbXor x y = limbsOf L x.length (limbVal L x ^^^ limbVal L y) := by
  rw [← limbXor_limbsOf, limbsOf_limbVal hx, hlen, limbsOf_limbVal hy]

end LimbOperations

/-- R128: `Xor` is element-wise; past the end both sides are 0. -/
theorem limbXor_getD {x y : List Nat} (hlen : x.length = y.length) (j : Nat) :
    (limbXor x y).getD j 0 = x.getD j 0 ^^^ y.getD j 0 := by
  by_cases hj : j < x.length
  · have hjy : j < y.length := hlen ▸ hj
    simp [limbXor, hj, hjy]
  · have hjy : ¬ j < y.length := hlen ▸ hj
    simp [limbXor, hj, hjy]

/-- Settles O33: the value of the limb view of `v * 2^bits` is its low `L*n` bits, which is `shl`. -/
theorem limbShiftLeftIsShl : Obligations.LimbShiftLeftIsShl := by
  intro L bits x h hx
  refine ⟨?_, ?_, fun d hd => ?_, limbShiftLeft_zero hx⟩
  · rw [limbShiftLeft_eq_limbsOf h hx, limbVal_limbsOf, shl]
  · rw [limbShiftLeft_eq_limbsOf h hx, limbsOf_length]
  · rw [limbShiftLeft_eq_limbsOf h hx] at hd
    exact limbsOf_lt hd

/-- Settles O34: a right shift stays below `2^(L*n)`, so the limb view loses nothing of it. -/
theorem limbShiftRightIsShr : Obligations.LimbShiftRightIsShr := by
  intro L bits x h hx
  have hlt : limbVal L x / 2 ^ bits < 2 ^ (L * x.length) := (Nat.div_le_self _ _).trans_lt (limbVal_lt hx)
  refine ⟨?_, ?_, fun d hd => ?_, limbShiftRight_zero hx⟩
  · rw [limbShiftRight_eq_limbsOf h hx, limbVal_limbsOf_of_lt hlt, shr]
  · rw [limbShiftRight_eq_limbsOf h hx, limbsOf_length]
  · rw [limbShiftRight_eq_limbsOf h hx] at hd
    exact limbsOf_lt hd

/-- Settles O35: the exclusive or of two values below `2^(L*n)` stays below it. -/
theorem limbXorIsXor : Obligations.LimbXorIsXor := by
  intro L x y hlen hx hy
  have hlt : limbVal L x ^^^ limbVal L y < 2 ^ (L * x.length) :=
    Nat.xor_lt_two_pow (limbVal_lt hx) (hlen ▸ limbVal_lt hy)
  refine ⟨?_, ?_, limbXor_getD hlen⟩
  · rw [limbXor_eq_limbsOf hx hlen hy, limbVal_limbsOf_of_lt hlt]
  · rw [limbXor_eq_limbsOf hx hlen hy, limbsOf_length]

end Sys2Proof.Machine
end

section
/-! Engines that differ in the shape code alone (46_engine_128.md R148, 48_required_properties.md R171): where both are
coherent, both meet the same S-bit rules, and so every command does the same to both. -/

namespace Sys2Proof.Machine

/-! ### The engine that CFG commits -/

section Commit

variable {maxWidth : Nat} {width : BitVec 16} {shape shape' : Shape} {g : Geom} {p : Bundle}

/-- Two shapes of one geometry commit the same registers but for the shape code. -/
theorem newEngine_withShape (tsrc : TSrc) (tmode : TMode) (refout refin : Bool)
    (hg : geometry maxWidth shape width.toNat = some g) (hg' : geometry maxWidth shape' width.toNat = some g)
    (hp : operandsBelowWidth width.toNat p = true) :
    newEngine g width tsrc tmode refout refin shape' p =
      { newEngine g width tsrc tmode refout refin shape p with shape := shape' } := by
  obtain ⟨_, h⟩ := geometry_fits hg
  obtain ⟨_, h'⟩ := geometry_fits hg'
  obtain ⟨hpoly, hinit, hxorout⟩ := lt_of_operandsBelowWidth hp
  have hparse : ∀ raw < 2 ^ width.toNat, shapeParse shape' g refin raw = shapeParse shape g refin raw := fun _ hraw =>
    (shapeParse_eq_parse h' refin hraw).trans (shapeParse_eq_parse h refin hraw).symm
  have htruncate : shapeTruncate shape' g p.opXorout = shapeTruncate shape g p.opXorout :=
    (shapeTruncate_eq h' hxorout).trans (shapeTruncate_eq h hxorout).symm
  have hpolyP : shapeParse shape g refin p.opPoly < 2 ^ g.s := by
    rw [shapeParse_eq_parse h refin hpoly]
    exact parse_lt refin (hpoly.trans_le (Nat.pow_le_pow_right (by decide) h.width_le_s))
  have htable : ∀ slices, shapeTable shape' g (shapeParse shape g refin p.opPoly) refin slices =
      shapeTable shape g (shapeParse shape g refin p.opPoly) refin slices := fun slices =>
    (shapeTable_eq_buildTable h' refin slices hpolyP).trans (shapeTable_eq_buildTable h refin slices hpolyP).symm
  simp only [newEngine, hparse _ hpoly, hparse _ hinit, htruncate, htable]

end Commit

/-- 42_normalizer.md R76: a D128 register is two 64-bit limbs. -/
theorem geometry_d128 (maxWidth : Nat) {width : Nat} (hgt : 64 < width) (hle : width ≤ 128) :
    geometry maxWidth .d128 width = some (geomOf 64 2 width) := by
  simp [geometry, shapeKind, show width ≠ 0 by omega, show ¬ width ≤ 64 by omega, show ¬ width > 128 by omega]

/-- 42_normalizer.md R76: an S64 register for widths 65 to 128 is two 64-bit limbs. -/
theorem geometry_s64 {maxWidth width : Nat} (hgt : 64 < width) (hle : width ≤ 128) (hmax : width ≤ maxWidth) :
    geometry maxWidth .s64 width = some (geomOf 64 2 width) := by
  have hlimbs : (width + 63) / 64 = 2 := by omega
  simp [geometry, shapeKind, shapeLimbBits, hlimbs, show width ≠ 0 by omega, show ¬ width > maxWidth by omega]

/-- CFG on one geometry ends alike but for the shape code: no fault applies, the refusals look at the geometry, and the commit
differs in that code alone. -/
theorem exec_cfg_s64 {width : BitVec 16} {tsrc : TSrc} {tmode : TMode} {refout refin : Bool} {s : State}
    (hwf : (Instr.cfg width tsrc tmode refout refin .d128).wf = true) (hgt : 64 < width.toNat) (hle : width.toNat ≤ 128)
    (hmax : width.toNat ≤ s.plat.maxWidth) :
    exec (.cfg width tsrc tmode refout refin .s64) s =
      mapNext asS64 (exec (.cfg width tsrc tmode refout refin .d128) s) := by
  have hd128 := geometry_d128 s.plat.maxWidth hgt hle
  have hs64 := geometry_s64 hgt hle hmax
  have hlegal : ¬ (tsrc = .explicit ∧ tmode = .none) := by
    rintro ⟨rfl, rfl⟩
    cases hwf
  simp only [exec, execCfg, if_neg hlegal, hd128, hs64]
  split
  · rfl
  · rename_i hp
    split
    · rfl
    · rw [newEngine_withShape tsrc tmode refout refin hd128 hs64 (not_not.mp hp)]
      rfl

/-! ### The operations of a coherent engine under another shape code -/

/-- The limits of MAX_WIDTH do not concern D128, so a coherent D128 engine is coherent under S64 on the platform of least
MAX_WIDTH (00_scope.md R5). -/
theorem Engine.Coherent.withS64 {maxWidth : Nat} {e : Engine} (he : e.Coherent maxWidth) (hshape : e.shape = .d128) :
    { e with shape := .s64 : Engine }.Coherent 128 := by
  have hgeom := he.geom_eq
  obtain ⟨_, h⟩ := he.fits
  obtain ⟨rfl, hl⟩ := h.twoLimb (by rw [hshape]; rfl)
  have hgt := h.width_gt
  have hle := h.width_le
  rw [hl] at hgt hle
  rw [hshape, geometry_d128 maxWidth hgt hle] at hgeom
  exact { he with geom_eq := (geometry_s64 hgt hle hle).trans hgeom }

namespace Engine.Coherent

variable {maxWidth maxWidth' : Nat} {shape : Shape} {e : Engine} (he : e.Coherent maxWidth)
  (he' : { e with shape := shape : Engine }.Coherent maxWidth')
include he he'

theorem engineByteStep_withShape {r b : Nat} (hr : r < 2 ^ e.s) (hb : b < 256) :
    engineByteStep { e with shape := shape } r b = engineByteStep e r b :=
  (he'.engineByteStep_eq hr hb).trans (he.engineByteStep_eq hr hb).symm

theorem engineBlock16_withShape {r : Nat} (d : List Nat) (hr : r < 2 ^ e.s) :
    engineBlock16 { e with shape := shape } r d = engineBlock16 e r d :=
  (he'.engineBlock16_eq d hr).trans (he.engineBlock16_eq d hr).symm

theorem feedBytes_withShape {r : Nat} {d : List Nat} (hr : r < 2 ^ e.s) (hd : ∀ b ∈ d, b < 256) :
    feedBytes { e with shape := shape } r d = feedBytes e r d :=
  (he'.feedBytes_eq_foldl hr hd).trans (he.feedBytes_eq_foldl hr hd).symm

theorem feedBlocks_withShape (k : Nat) {r : Nat} (d : List Nat) (hr : r < 2 ^ e.s) :
    feedBlocks { e with shape := shape } k r d = feedBlocks e k r d := by
  induction k generalizing r d with
  | zero => rfl
  | succ k ih =>
    rw [feedBlocks, feedBlocks, he.engineBlock16_withShape he' _ hr]
    exact ih _ (he.engineBlock16_lt _ hr)

theorem consume_withShape {r : Nat} {d : List Nat} (hr : r < 2 ^ e.s) (hd : ∀ b ∈ d, b < 256) :
    consume { e with shape := shape } r d = consume e r d := by
  have hblocks := feedBlocks_of_forall (P := (· < 2 ^ e.s)) (fun _ d => he.engineBlock16_lt d) (d.length / 16) d hr
  have htail : ∀ b ∈ d.drop (16 * (d.length / 16)), b < 256 := fun b hb => hd b (List.mem_of_mem_drop hb)
  simp only [consume, he.feedBlocks_withShape he' _ d hr, he.feedBytes_withShape he' hr hd,
    he.feedBytes_withShape he' hblocks htail]

theorem engineResult_withShape {r : Nat} (hr : r < 2 ^ e.s) :
    engineResult { e with shape := shape } r = engineResult e r :=
  congrArg (boundedResult e.width) ((he'.engineFinalize_eq hr).trans (he.engineFinalize_eq hr).symm)

end Engine.Coherent

/-! ### The commands -/

section Commands

variable {s : State}

@[simp] theorem asS64_status (s : State) : (asS64 s).eng.status = s.eng.status := rfl
@[simp] theorem asS64_width (s : State) : (asS64 s).eng.width = s.eng.width := rfl
@[simp] theorem asS64_initP (s : State) : (asS64 s).eng.initP = s.eng.initP := rfl
@[simp] theorem asS64_reg (s : State) : (asS64 s).eng.reg = s.eng.reg := rfl
@[simp] theorem addressesPresentable_asS64 (s : State) : addressesPresentable (asS64 s) = addressesPresentable s := rfl
@[simp] theorem rangeInside_asS64 (s : State) : rangeInside (asS64 s) = rangeInside s := rfl
@[simp] theorem rangeReadable_asS64 (s : State) : rangeReadable (asS64 s) = rangeReadable s := rfl
@[simp] theorem rangeBytes_asS64 (s : State) : rangeBytes (asS64 s) = rangeBytes s := rfl

/-- UPDB's refusals look at the port and the platform alone; what it writes is the value consumed. -/
theorem execUpdb_asS64
    (h : consume (asS64 s).eng s.eng.reg (rangeBytes s) = consume s.eng s.eng.reg (rangeBytes s)) :
    execUpdb (asS64 s) = mapNext asS64 (execUpdb s) := by
  simp only [execUpdb, asS64_status, asS64_reg, addressesPresentable_asS64, rangeInside_asS64, rangeReadable_asS64,
    rangeBytes_asS64, h]
  split
  · rfl
  · split
    · rfl
    · split
      · rfl
      · split <;> rfl

/-- R148: on a coherent D128 engine each command other than CFG ends as under the shape code S64, since the operation it uses
gives the same value. -/
theorem exec_asS64 {maxWidth : Nat} {i : Instr} (hi : isCfg i = false) (he : s.eng.Coherent maxWidth)
    (hshape : s.eng.shape = .d128) : exec i (asS64 s) = mapNext asS64 (exec i s) := by
  have he' : (asS64 s).eng.Coherent 128 := he.withS64 hshape
  cases i with
  | cfg => cases hi
  | upd b =>
    have hstep : engineByteStep (asS64 s).eng s.eng.reg b.toNat = engineByteStep s.eng s.eng.reg b.toNat :=
      he.engineByteStep_withShape he' he.reg_lt b.isLt
    simp only [exec, execUpd, asS64_status, asS64_reg, hstep]
    split <;> rfl
  | updb => exact execUpdb_asS64 (he.consume_withShape he' he.reg_lt rangeBytes_lt)
  | fin =>
    have hresult : engineResult (asS64 s).eng s.eng.reg = engineResult s.eng s.eng.reg :=
      he.engineResult_withShape he' he.reg_lt
    simp only [exec, execFin, asS64_status, asS64_width, asS64_initP, asS64_reg, hresult]
    split <;> rfl
  | refl bw => rfl
  | reflm count lb =>
    simp only [exec, execReflm, apply_ite (mapNext asS64)]
    rfl
  | rst | tclone =>
    simp only [exec, execRst, execTclone, asS64_status]
    split <;> rfl

end Commands

/-- Settles O46: CFG by the one geometry of both shapes, every other command by the S-bit rules that both engines meet. -/
theorem twoLimbEqualsSharded : Obligations.TwoLimbEqualsSharded :=
  ⟨fun _ _ _ _ _ _ hwf hgt hle hmax => exec_cfg_s64 hwf hgt hle (hle.trans hmax),
    fun _ _ hi he hshape => exec_asS64 hi he hshape⟩

end Sys2Proof.Machine
end

section
/-! The engine against the textbook definition of a CRC (48_required_properties.md R174, R172): a forward register is the
mirror of a reflected one, and a reflected one is the mirror of the textbook's. -/

namespace Sys2Proof.Machine

/-! ### A forward engine mirrors a reflected one -/

theorem testBit_reflect_zero {w : Nat} (hw : 1 ≤ w) (v : Nat) : (reflect w v).testBit 0 = v.testBit (w - 1) := by
  rw [testBit_reflect, decide_eq_true (Nat.lt_of_succ_le hw), Bool.true_and, Nat.sub_zero]

/-- 43_tablebuilder.md R86, R87: the reflected step is the mirror of the forward one. -/
theorem reflect_bitStepF {S : Nat} (hS : 1 ≤ S) (p r : Nat) :
    reflect S (bitStepF S p r) = bitStepR (reflect S p) (reflect S r) := by
  rw [bitStepF, bitStepR, testBit_reflect_zero hS, ← reflect_shl, ← reflect_xor]
  split
  · rfl
  · rfl

/-- A byte enters at the top of a forward register, and mirrored at the bottom of a reflected one. -/
theorem reflect_tableSeed {S : Nat} (hS : 8 ≤ S) (b : Nat) : reflect S (tableSeed S false b) = reflect 8 b :=
  (reflect_shl S b (S - 8)).trans (shr_reflect b hS)

/-- R103: mirrored, a forward byte step is the reflected one on the mirrored byte. -/
theorem reflect_byteStep_none {S : Nat} (hS : 8 ≤ S) (p r b : Nat) :
    reflect S (byteStep S .none false p [] r b) =
      byteStep S .none true (reflect S p) [] (reflect S r) (reflect 8 b) := by
  have hdiv : Function.Semiconj (reflect S) (bitStepF S p) (bitStepR (reflect S p)) := reflect_bitStepF (by omega) p
  have hbyte : reflect S r ^^^ reflect 8 b = reflect S (r ^^^ tableSeed S false b) := by
    rw [reflect_xor, reflect_tableSeed hS]
  calc reflect S (divStep S p false (r ^^^ tableSeed S false b))
    _ = (bitStepR (reflect S p))^[8] (reflect S (r ^^^ tableSeed S false b)) := hdiv.iterate_right 8 _
    _ = byteStep S .none true (reflect S p) [] (reflect S r) (reflect 8 b) := by
      rw [← hbyte]
      rfl

theorem reflect_parse_forward {raw S width : Nat} (hpos : 1 ≤ width) (hwidth : width ≤ S) (hraw : raw < 2 ^ width) :
    reflect S (parse raw S width false) = parse raw S width true := by
  obtain ⟨hforward, hreflected, _⟩ := parseClosedForms raw S width hpos hwidth hraw
  have hmirror := reflect_mul_two_pow width (S - width) raw
  rwa [Nat.add_sub_cancel' hwidth, ← hforward, ← hreflected] at hmirror

/-- R108: Finalize mirrors a forward register exactly where it does not mirror a reflected one. -/
theorem finalize_forward_eq_reflected {S r : Nat} (moves : Nat) (refout : Bool) (x : Nat) (hr : r < 2 ^ S) :
    finalize S moves false refout x r = finalize S moves true refout x (reflect S r) := by
  cases refout with
  | false => simp only [finalize_not_refout, reflect_reflect hr, Bool.false_eq_true, if_false, if_true]
  | true => simp only [finalize_refout, Bool.false_eq_true, if_false, if_true]

theorem foldl_byteStep_none_lt {S p r : Nat} (refin : Bool) {d : List Nat} (hS : 8 ≤ S) (hp : p < 2 ^ S) (hr : r < 2 ^ S)
    (hd : ∀ b ∈ d, b < 256) : d.foldl (byteStep S .none refin p []) r < 2 ^ S :=
  List.foldlRecOn (motive := (· < 2 ^ S)) d _ hr fun _ hv b hb => byteStep_lt .none refin hS hp (by simp) hv (hd b hb)

/-- A forward engine computes what the reflected one does on the mirrored bytes. -/
theorem serialCrc_forward {S width poly init : Nat} (refout : Bool) (xorout : Nat) {message : List Nat} (hS : 8 ≤ S)
    (hwidth : width ≤ S) (hpos : 1 ≤ width) (hpoly : poly < 2 ^ width) (hinit : init < 2 ^ width)
    (hm : ∀ b ∈ message, b < 256) :
    serialCrc S width poly init false refout xorout message =
      serialCrc S width poly init true refout xorout (message.map (reflect 8)) := by
  have hparse {raw : Nat} (hraw : raw < 2 ^ width) : parse raw S width false < 2 ^ S :=
    parse_lt false (hraw.trans_le (Nat.pow_le_pow_right (by decide) hwidth))
  rw [serialCrc, serialCrc, List.foldl_map, ← reflect_parse_forward hpos hwidth hpoly,
    ← reflect_parse_forward hpos hwidth hinit, List.foldl_hom (reflect S) fun r b => (reflect_byteStep_none hS _ r b).symm,
    finalize_forward_eq_reflected _ _ _ (foldl_byteStep_none_lt false hS (hparse hpoly) (hparse hinit) hm)]

/-! ### A reflected engine mirrors the textbook's register -/

theorem textbookByteBits_forward (b : Nat) : textbookByteBits false b = textbookByteBits true (reflect 8 b) := by
  have hbits : (List.range 8).map (reflect 8 b).testBit = (List.range 8).map fun i => b.testBit (7 - i) :=
    List.map_congr_left fun i hi => by rw [testBit_reflect, decide_eq_true (List.mem_range.mp hi), Bool.true_and]
  exact hbits.symm

/-- R174: the bits of a forward message are those of the mirrored bytes, read the other way. -/
theorem textbookCrc_forward (width poly init : Nat) (refout : Bool) (xorout : Nat) (message : List Nat) :
    textbookCrc width poly init false refout xorout message =
      textbookCrc width poly init true refout xorout (message.map (reflect 8)) := by
  have hbits : textbookByteBits false = fun b => textbookByteBits true (reflect 8 b) := funext textbookByteBits_forward
  rw [textbookCrc, textbookCrc, List.flatMap_map, hbits]

theorem textbookBit_lt {width poly : Nat} (hpoly : poly < 2 ^ width) (r : Nat) (bit : Bool) :
    textbookBit width poly r bit < 2 ^ width := by
  unfold textbookBit
  split
  · exact Nat.xor_lt_two_pow (shl_lt _ _ _) hpoly
  · exact shl_lt _ _ _

/-- In the mirror of the textbook's register the message bit enters at the bottom, which is then tested. -/
theorem reflect_textbookBit {width : Nat} (hpos : 1 ≤ width) (poly r : Nat) (bit : Bool) :
    reflect width (textbookBit width poly r bit) = bitStepR (reflect width poly) (reflect width r ^^^ bit.toNat) := by
  have htested : (reflect width r ^^^ bit.toNat).testBit 0 = (r.testBit (width - 1) != bit) := by
    rw [Nat.testBit_xor, testBit_reflect_zero hpos]
    cases bit <;> rfl
  have hshift : shr (reflect width r ^^^ bit.toNat) 1 = reflect width (shl width r 1) := by
    rw [shr_xor, reflect_shl]
    cases bit <;> simp [shr]
  rw [textbookBit, bitStepR, htested, hshift, ← reflect_xor]
  split
  · rfl
  · rfl

theorem mod_two_pow_succ_eq_xor (b k : Nat) : b % 2 ^ (k + 1) = b % 2 ^ k ^^^ (b.testBit k).toNat * 2 ^ k := by
  have hbit (i : Nat) : ((b.testBit k).toNat * 2 ^ k).testBit i = (decide (k = i) && b.testBit k) := by
    cases b.testBit k <;> simp [Nat.testBit_two_pow]
  apply Nat.eq_of_testBit_eq
  intro i
  rw [Nat.testBit_xor, hbit, Nat.testBit_mod_two_pow, Nat.testBit_mod_two_pow]
  obtain rfl | hne := eq_or_ne k i
  · simp
  · simp [hne, show i < k + 1 ↔ i < k by omega]

/-- Bits that enter one by one, bit 0 first, divide as they do when all stand in the register from the start. -/
theorem foldl_bitStepR_range (p r b k : Nat) :
    ((List.range k).map b.testBit).foldl (fun v bit => bitStepR p (v ^^^ bit.toNat)) r =
      (bitStepR p)^[k] (r ^^^ b % 2 ^ k) := by
  induction k with
  | zero => simp [Nat.mod_one]
  | succ k ih =>
    rw [List.range_succ, List.map_append, List.foldl_append, ih, Function.iterate_succ_apply', mod_two_pow_succ_eq_xor,
      ← Nat.xor_assoc, iterate_xor (bitStepR_xor p) k (r ^^^ b % 2 ^ k), bitStepR_iterate_mul_two_pow]
    rfl

/-- R174: the eight bits of a byte, one by one, take the mirrored register where the reflected byte step takes it. -/
theorem reflect_textbookByte {width b : Nat} (hpos : 1 ≤ width) (poly r : Nat) (hb : b < 256) :
    reflect width ((textbookByteBits true b).foldl (textbookBit width poly) r) =
      byteStep width .none true (reflect width poly) [] (reflect width r) b := by
  have hfold := List.foldl_hom (g₂ := fun v bit => bitStepR (reflect width poly) (v ^^^ bit.toNat)) (reflect width)
    (l := textbookByteBits true b) (init := r) fun v bit => (reflect_textbookBit hpos poly v bit).symm
  calc reflect width ((textbookByteBits true b).foldl (textbookBit width poly) r)
    _ = (bitStepR (reflect width poly))^[8] (reflect width r ^^^ b % 2 ^ 8) :=
      hfold.symm.trans (foldl_bitStepR_range _ _ _ _)
    _ = byteStep width .none true (reflect width poly) [] (reflect width r) b := by
      rw [Nat.mod_eq_of_lt (b := 2 ^ 8) hb]
      rfl

theorem reflect_textbookMessage {width : Nat} (hpos : 1 ≤ width) (poly r : Nat) {message : List Nat}
    (hm : ∀ b ∈ message, b < 256) :
    reflect width ((message.flatMap (textbookByteBits true)).foldl (textbookBit width poly) r) =
      message.foldl (byteStep width .none true (reflect width poly) []) (reflect width r) := by
  induction message generalizing r with
  | nil => rfl
  | cons b message ih =>
    obtain ⟨hb, hrest⟩ := List.forall_mem_cons.mp hm
    rw [List.flatMap_cons, List.foldl_append, ih _ hrest, reflect_textbookByte hpos poly r hb, List.foldl_cons]

theorem foldl_textbookBit_lt {width poly init : Nat} (hpoly : poly < 2 ^ width) (hinit : init < 2 ^ width)
    (bits : List Bool) : bits.foldl (textbookBit width poly) init < 2 ^ width :=
  List.foldlRecOn (motive := (· < 2 ^ width)) bits _ hinit fun _ _ _ _ => textbookBit_lt hpoly _ _

theorem textbookCrc_lt {width poly init xorout : Nat} (refin refout : Bool) (message : List Nat) (hpoly : poly < 2 ^ width)
    (hinit : init < 2 ^ width) (hxorout : xorout < 2 ^ width) :
    textbookCrc width poly init refin refout xorout message < 2 ^ width :=
  Nat.xor_lt_two_pow (mirrorIf_lt refout (foldl_textbookBit_lt hpoly hinit _)) hxorout

/-- R174: the reflected engine holds the mirror of the textbook's register, and Finalize mirrors it back unless refout = 1. -/
theorem serialCrc_reflected {S width poly init : Nat} (refout : Bool) (xorout : Nat) {message : List Nat}
    (hwidth : width ≤ S) (hpos : 1 ≤ width) (hpoly : poly < 2 ^ width) (hinit : init < 2 ^ width)
    (hm : ∀ b ∈ message, b < 256) :
    serialCrc S width poly init true refout xorout message =
      textbookCrc width poly init true refout xorout message := by
  obtain ⟨_, hpolyP, _⟩ := parseClosedForms poly S width hpos hwidth hpoly
  obtain ⟨_, hinitP, _⟩ := parseClosedForms init S width hpos hwidth hinit
  have hreg := foldl_textbookBit_lt hpoly hinit (message.flatMap (textbookByteBits true))
  rw [serialCrc, textbookCrc, hpolyP, hinitP, byteStep_none_reflected S width, finalize_reflected refout xorout _ hwidth,
    ← reflect_textbookMessage hpos poly init hm, reflect_reflect hreg]

/-- R174: the bit-serial checksum on a register of any length is that of the textbook model. -/
theorem serialCrc_eq_textbookCrc {S width poly init : Nat} (refin refout : Bool) (xorout : Nat) {message : List Nat}
    (hS : 8 ≤ S) (hwidth : width ≤ S) (hpos : 1 ≤ width) (hpoly : poly < 2 ^ width) (hinit : init < 2 ^ width)
    (hm : ∀ b ∈ message, b < 256) :
    serialCrc S width poly init refin refout xorout message =
      textbookCrc width poly init refin refout xorout message := by
  cases refin with
  | true => exact serialCrc_reflected refout xorout hwidth hpos hpoly hinit hm
  | false =>
    have hmirror : ∀ b ∈ message.map (reflect 8), b < 256 := by
      intro b hb
      obtain ⟨v, _, rfl⟩ := List.mem_map.mp hb
      exact reflect_lt 8 v
    rw [serialCrc_forward refout xorout hS hwidth hpos hpoly hinit hm, textbookCrc_forward,
      serialCrc_reflected refout xorout hwidth hpos hpoly hinit hmirror]

/-! ### What FIN delivers -/

section Session

variable {maxWidth : Nat} {width : BitVec 16} {refout refin : Bool} {shape : Shape} {g : Geom} {p : Bundle}
  {message : List Nat}

/-- The engine's checksum is the textbook's, which needs no bound. -/
theorem boundedResult_serialCrc (hg : geometry maxWidth shape width.toNat = some g)
    (hp : operandsBelowWidth width.toNat p = true) (hm : ∀ b ∈ message, b < 256) :
    boundedResult width (serialCrc g.s width.toNat p.opPoly p.opInit refin refout p.opXorout message) =
      textbookCrc width.toNat p.opPoly p.opInit refin refout p.opXorout message := by
  obtain ⟨n, h⟩ := geometry_fits hg
  obtain ⟨hpoly, hinit, hxorout⟩ := lt_of_operandsBelowWidth hp
  rw [serialCrc_eq_textbookCrc refin refout _ h.eight_le_s h.width_le_s h.width_pos hpoly hinit hm]
  exact boundedResult_of_lt (textbookCrc_lt refin refout message hpoly hinit hxorout)

end Session

/-- Settles O50: an engine with the built table computes the bit-serial checksum, which is the textbook's. -/
theorem agreesWithTextbook : Obligations.AgreesWithTextbook := by
  intro maxWidth width tmode refout refin shape g p message hg hp hm
  rw [sessionCrc_newEngine hg hp hm, boundedResult_serialCrc hg hp hm]

end Sys2Proof.Machine
end

section
/-! Sessions (48_required_properties.md R165 to R174): chunking, the empty session, and what FIN and RST restore. -/

namespace Sys2Proof.Machine

/-- Settles O45: with the built table each piece is fed byte by byte, and feeding one piece after the other feeds both. -/
theorem chunkingInvariance : Obligations.ChunkingInvariance := by
  intro maxWidth e r d₁ d₂ he hbuilt hr hd
  obtain ⟨hd₁, hd₂⟩ := List.forall_mem_append.mp hd
  refine ⟨?_, he.consume_built hbuilt hr hd₁⟩
  rw [he.consume_built hbuilt hr hd₁, he.consume_built hbuilt (he.feedBytes_lt hr hd₁) hd₂, he.consume_built hbuilt hr hd,
    feedBytes_append]

/-! ### A successful CFG -/

section Configured

variable {width : BitVec 16} {tsrc : TSrc} {tmode : TMode} {refout refin : Bool} {shape : Shape} {s t : State}

/-- CFG that answers OK raised no fault: it committed the new engine. -/
theorem exec_cfg_ok_commits (h : exec (.cfg width tsrc tmode refout refin shape) s = .next t)
    (hok : t.responses = { status := .ok, payload := .none } :: s.responses) :
    ∃ g, geometry s.plat.maxWidth shape width.toNat = some g ∧ operandsBelowWidth width.toNat s.port = true ∧
      (tsrc = .explicit → presentableList (tableCount tmode) g.s s.port.opTable = true) ∧
      t = respond .none { s with eng := newEngine g width tsrc tmode refout refin shape s.port } := by
  obtain ⟨_, _, rfl⟩ | ⟨_, rfl⟩ | ⟨g, hg, hp, ht, _, rfl⟩ := execCfg_next h
  · cases hok
  · cases hok
  · exact ⟨g, hg, hp, ht, rfl⟩

/-- R172: the register CFG leaves gives the textbook's checksum of the empty message, whatever the table. -/
theorem engineResult_newEngine_empty {maxWidth : Nat} {g : Geom} {p : Bundle}
    (hg : geometry maxWidth shape width.toNat = some g) (hp : operandsBelowWidth width.toNat p = true)
    (ht : tsrc = .explicit → presentableList (tableCount tmode) g.s p.opTable = true) :
    let e := newEngine g width tsrc tmode refout refin shape p
    engineResult e e.reg = textbookCrc width.toNat p.opPoly p.opInit refin refout p.opXorout [] := by
  intro e
  have he : e.Coherent maxWidth := newEngine_coherent hg hp ht
  obtain ⟨_, hinitP, hxoroutP⟩ : e.polyP = _ ∧ e.initP = _ ∧ e.xoroutP = _ := newEngine_constants hg hp
  rw [← boundedResult_serialCrc hg hp (by simp), engineResult, he.engineFinalize_eq he.reg_lt, he.moves_eq,
    show e.reg = e.initP from rfl, hinitP, hxoroutP]
  rfl

end Configured

/-- Settles O48: the textbook's checksum of the empty message is the initial value, mirrored if refout = 1, xor xorout. -/
theorem emptySessionResult : Obligations.EmptySessionResult := by
  intro width tsrc tmode refout refin shape s s₀ hcfg hok
  obtain ⟨g, hg, hp, ht, rfl⟩ := exec_cfg_ok_commits hcfg hok
  refine ⟨_, execFin_of_accumulating rfl, ?_⟩
  rw [respond_responses, respond_eng, engineResult_newEngine_empty hg hp ht]
  rfl

/-! ### Commands of a session -/

section Commands

variable {s t : State}

/-- R92, R201: on a configured engine a completed command other than CFG writes no register but REG. -/
theorem exec_writes_only_reg {i : Instr} (hi : isCfg i = false) (hs : s.eng.status = .accumulating)
    (h : exec i s = .next t) : t.eng = { s.eng with reg := t.eng.reg } := by
  have hconf : s.eng.status ≠ .unconfigured := by simp [hs]
  cases i with
  | cfg => cases hi
  | upd b =>
    obtain ⟨hno, _⟩ | ⟨_, rfl⟩ := execUpd_next h
    · exact absurd hno hconf
    · rfl
  | updb =>
    obtain ⟨hno, _⟩ | ⟨_, _, _, _, rfl⟩ := execUpdb_next h
    · exact absurd hno hconf
    · rfl
  | fin =>
    obtain ⟨hno, _⟩ | ⟨_, rfl⟩ := execFin_next h
    · exact absurd hno hconf
    · rfl
  | rst =>
    obtain ⟨hno, _⟩ | ⟨_, rfl⟩ := execRst_next h
    · exact absurd hno hconf
    · rfl
  | refl bw => rw [execRefl_next h, respond_eng]
  | reflm count lb => rw [(execReflm_next h).2, respond_eng]
  | tclone =>
    obtain ⟨hno, _⟩ | ⟨_, rfl⟩ := execTclone_next h
    · exact absurd hno hconf
    · rfl

theorem runCommands_cons_of_next {i : Instr} {p : Bundle} {rest : List (Instr × Bundle)}
    (h : exec i { s with port := p } = .next t) : runCommands ((i, p) :: rest) s = runCommands rest t := by
  simp only [runCommands, h]

theorem runCommands_cons_next {i : Instr} {p : Bundle} {rest : List (Instr × Bundle)}
    (h : runCommands ((i, p) :: rest) s = .next t) :
    ∃ u, exec i { s with port := p } = .next u ∧ runCommands rest u = .next t := by
  unfold runCommands at h
  split at h
  · exact ⟨_, ‹_›, h⟩
  · cases h
  · cases h

theorem runCommands_writes_only_reg {cmds : List (Instr × Bundle)} (hcmds : ∀ c ∈ cmds, isCfg c.1 = false)
    (hs : s.eng.status = .accumulating) (h : runCommands cmds s = .next t) : t.eng = { s.eng with reg := t.eng.reg } := by
  induction cmds generalizing s with
  | nil =>
    cases h
    rfl
  | cons c rest ih =>
    obtain ⟨i, p⟩ := c
    obtain ⟨hi, hrest⟩ := List.forall_mem_cons.mp hcmds
    obtain ⟨u, hexec, hrun⟩ := runCommands_cons_next h
    have hu : u.eng = { s.eng with reg := u.eng.reg } := exec_writes_only_reg (s := { s with port := p }) hi hs hexec
    have ht : t.eng = { u.eng with reg := t.eng.reg } := ih hrest (by rw [hu]; exact hs) hrun
    rw [ht, hu]

/-- R107, R109: FIN and RST load INIT_P, and leave every other register. -/
theorem exec_fin_or_rst_reloads_initP {i : Instr} (hi : i = .fin ∨ i = .rst) (hs : s.eng.status = .accumulating) :
    ∃ t, exec i s = .next t ∧ t.eng = { s.eng with reg := s.eng.initP } := by
  obtain rfl | rfl := hi
  · exact ⟨_, execFin_of_accumulating hs, rfl⟩
  · exact ⟨_, exec_rst_of_accumulating hs, rfl⟩

/-- 44_engine_native.md R102: the UPDs of a message complete, feed its bytes to REG and respond once each. -/
theorem runCommands_upds (p : Bundle) (message : List Byte) (hs : s.eng.status = .accumulating) :
    ∃ t, runCommands (message.map fun b => (Instr.upd b, p)) s = .next t ∧
      t.eng = { s.eng with reg := feedBytes s.eng s.eng.reg (message.map BitVec.toNat) } ∧
      t.responses.length = s.responses.length + message.length := by
  induction message generalizing s with
  | nil => exact ⟨s, rfl, rfl, rfl⟩
  | cons b message ih =>
    have hexec := exec_upd_of_accumulating (s := { s with port := p }) hs b
    obtain ⟨t, hrun, heng, hlen⟩ :=
      ih (s := respond .none (setReg (engineByteStep s.eng s.eng.reg b.toNat) { s with port := p })) hs
    refine ⟨t, (runCommands_cons_of_next hexec).trans hrun, heng, ?_⟩
    simp only [hlen, respond_responses, setReg_responses, List.length_cons]
    omega

end Commands

/-- Settles O47: the commands between write no register but REG, and FIN and RST load it as CFG did. -/
theorem finAndRstRestoreConfiguredEngine : Obligations.FinAndRstRestoreConfiguredEngine := by
  intro width tsrc tmode refout refin shape s s₀ s₁ cmds hcfg hok hcmds hrun i hi
  obtain ⟨g, _, _, _, rfl⟩ := exec_cfg_ok_commits hcfg hok
  have heng := runCommands_writes_only_reg hcmds rfl hrun
  obtain ⟨t, hexec, ht⟩ := exec_fin_or_rst_reloads_initP hi (s := s₁) (by rw [heng]; rfl)
  refine ⟨t, hexec, ?_⟩
  rw [ht, heng]
  rfl

/-- Settles O49: REG is fed the message from INIT_P, and FIN delivers its number and loads INIT_P again. -/
theorem sessionRespondsCrc : Obligations.SessionRespondsCrc := by
  intro s message hs hreg
  obtain ⟨s₁, hrun, heng, hlen⟩ := runCommands_upds s.port message hs
  refine ⟨s₁, _, hrun, execFin_of_accumulating (by rw [heng]; exact hs), ?_, ?_, ?_⟩
  · show { s₁.eng with reg := s₁.eng.initP } = s.eng
    rw [heng, ← hreg]
  · rw [respond_responses, heng, hreg]
    rfl
  · rw [respond_responses, List.length_cons, setReg_responses, hlen]

end Sys2Proof.Machine
end

section
/-! What a command word meets first (60_exceptions.md R181 to R186): the one fault that the word, STATE and MAX_WIDTH decide, and
only without a fault a refusal (R193) or a successful response. -/

namespace Sys2Proof.Machine

/-- R181: the table of the illegal widths is where `Geometry` raises INVALID_PARAMETER. -/
theorem geometry_eq_none_iff {maxWidth width : Nat} {shape : Shape} :
    geometry maxWidth shape width = none ↔ widthIllegal maxWidth shape width = true := by
  by_cases hzero : width = 0
  · cases shape <;> simp [geometry, widthIllegal, hzero]
  · cases shape with
    | d128 =>
      simp only [geometry, widthIllegal, shapeKind, hzero, if_false, ite_eq_left_iff, reduceCtorEq, imp_false, not_not,
        decide_eq_true_eq]
    | _ => simp [geometry, widthIllegal, shapeKind, shapeLimbBits, hzero]

theorem exists_geometry_iff {maxWidth width : Nat} {shape : Shape} :
    (∃ g, geometry maxWidth shape width = some g) ↔ widthIllegal maxWidth shape width = false := by
  rw [← Option.ne_none_iff_exists', ne_eq, geometry_eq_none_iff, Bool.not_eq_true]

theorem cfg_wf_iff_not_explicit_none {width : BitVec 16} {tsrc : TSrc} {tmode : TMode} {refout refin : Bool} {shape : Shape} :
    (Instr.cfg width tsrc tmode refout refin shape).wf = true ↔ ¬ (tsrc = .explicit ∧ tmode = .none) := by
  simp [Instr.wf, imp_iff_not_or]

/-! ### The first fault of a command -/

section FirstFault

variable {maxWidth : Nat} {phase : Phase}

/-- The fault a command meets first, `ok` for none. A CFG that no word encodes counts as an illegal word (log 18). -/
def commandFault (maxWidth : Nat) (phase : Phase) : Instr → ErrCode
  | .cfg width tsrc tmode _ _ shape =>
    if tsrc = .explicit ∧ tmode = .none then .illegalCommand
    else if widthIllegal maxWidth shape width.toNat then .invalidParameter
    else .ok
  | i => if needsInstance i = true ∧ phase = .unconfigured then .notConfigured else .ok

theorem commandFault_of_not_cfg {i : Instr} (hi : isCfg i = false) : commandFault maxWidth phase i =
    if needsInstance i = true ∧ phase = .unconfigured then .notConfigured else .ok := by
  cases i with
  | cfg => cases hi
  | _ => rfl

/-- Of a legal word, R186's order is the command's. -/
theorem faultOf_of_decode_ok {cw : Word} {i : Instr} (h : decode cw = .ok i) :
    faultOf maxWidth phase cw = commandFault maxWidth phase i := by
  obtain ⟨_, hwf⟩ := decode_eq_ok_iff.mp h
  simp only [faultOf, h]
  cases i with
  | cfg => simp [commandFault, needsInstance, cfg_wf_iff_not_explicit_none.mp hwf]
  | _ => simp [commandFault]

theorem commandFault_of_needsInstance {i : Instr} (hi : needsInstance i = true) :
    commandFault maxWidth .unconfigured i = .notConfigured := by
  have hcfg : isCfg i = false := by
    cases i with
    | cfg => cases hi
    | _ => rfl
  rw [commandFault_of_not_cfg hcfg, if_pos ⟨hi, rfl⟩]

theorem needsInstance_of_commandFault {i : Instr} (h : commandFault maxWidth phase i = .notConfigured) :
    needsInstance i = true ∧ phase = .unconfigured := by
  by_contra hno
  cases i with
  | cfg =>
    simp only [commandFault] at h
    split_ifs at h
  | _ =>
    rw [commandFault_of_not_cfg rfl, if_neg hno] at h
    cases h

theorem isCfg_of_commandFault {i : Instr} (h : commandFault maxWidth phase i = .invalidParameter) : isCfg i = true := by
  by_contra hcfg
  rw [commandFault_of_not_cfg (Bool.not_eq_true _ ▸ hcfg)] at h
  split_ifs at h

end FirstFault

/-! ### The answer of a command word -/

/-- What a command may answer when the fault it meets first is `c` (`ok` for none); it never stops the machine with a fault. -/
inductive Answer (s : State) : ErrCode → Host.Outcome State Fault Refusal → Prop where
  | fault {c : ErrCode} (hc : c ≠ .ok) : Answer s c (.next (raiseFault c s))
  | success (p : Payload) {u : State} (hu : u.responses = s.responses) : Answer s .ok (.next (respond p u))
  | refusal (why : Refusal) : Answer s .ok (.refused why)

namespace Answer

variable {s t : State} {c : ErrCode}

theorem eq_faulted {o : Host.Outcome State Fault Refusal} (h : Answer s c o) (hc : c ≠ .ok) : o = .next (faulted c s) := by
  cases h with
  | fault => rfl
  | success => exact absurd rfl hc
  | refusal => exact absurd rfl hc

theorem exists_response (h : Answer s c (.next t)) :
    ∃ payload, t.responses = { status := c, payload := payload } :: s.responses := by
  cases h with
  | fault => exact ⟨_, rfl⟩
  | success p hu => exact ⟨p, by rw [respond_responses, hu]⟩

theorem status_eq {r : Response} (h : Answer s c (.next t)) (hr : t.responses = r :: s.responses) : r.status = c := by
  obtain ⟨payload, hresp⟩ := h.exists_response
  rw [(List.cons.inj (hr.symm.trans hresp)).1]

theorem eq_ok_of_refused {why : Refusal} (h : Answer s c (.refused why)) : c = .ok := by
  cases h
  rfl

theorem not_stops {f : Fault} : ¬ Answer s c (.fault f) := nofun

end Answer

section Commands

variable {s : State}

/-- R184: while UNCONFIGURED these commands do nothing but raise the fault. -/
theorem exec_of_needsInstance {i : Instr} (hi : needsInstance i = true) (hs : s.eng.status = .unconfigured) :
    exec i s = .next (raiseFault .notConfigured s) := by
  cases i with
  | upd b => simp only [exec, execUpd, hs]
  | updb => simp only [exec, execUpdb, hs]
  | fin => simp only [exec, execFin, hs]
  | rst => simp only [exec, execRst, hs]
  | tclone => simp only [exec, execTclone, hs]
  | _ => cases hi

theorem exec_cfg_answer (width : BitVec 16) (tsrc : TSrc) (tmode : TMode) (refout refin : Bool) (shape : Shape) :
    Answer s (commandFault s.plat.maxWidth s.eng.status (.cfg width tsrc tmode refout refin shape))
      (exec (.cfg width tsrc tmode refout refin shape) s) := by
  simp only [exec, execCfg, commandFault]
  split
  · exact .fault (by decide)
  · cases hg : geometry s.plat.maxWidth shape width.toNat with
    | none =>
      rw [if_pos (geometry_eq_none_iff.mp hg)]
      exact .fault (by decide)
    | some g =>
      rw [if_neg (Bool.eq_false_iff.mp (exists_geometry_iff.mp ⟨g, hg⟩))]
      dsimp only
      split
      · exact .refusal _
      · split
        · exact .refusal _
        · exact .success .none rfl

/-- R186: the command raises its first fault, and answers OK or is refused only without one. -/
theorem exec_answer (i : Instr) : Answer s (commandFault s.plat.maxWidth s.eng.status i) (exec i s) := by
  by_cases hno : needsInstance i = true ∧ s.eng.status = .unconfigured
  · obtain ⟨hi, hs⟩ := hno
    rw [exec_of_needsInstance hi hs, hs, commandFault_of_needsInstance hi]
    exact .fault (by decide)
  · have hs (hi : needsInstance i = true) : s.eng.status = .accumulating := by
      cases h : s.eng.status with
      | unconfigured => exact absurd ⟨hi, h⟩ hno
      | accumulating => rfl
    cases i with
    | cfg width tsrc tmode refout refin shape => exact exec_cfg_answer ..
    | upd b =>
      rw [exec_upd_of_accumulating (hs rfl), hs rfl]
      exact .success .none rfl
    | updb =>
      simp only [exec, execUpdb, hs rfl]
      split
      · exact .refusal _
      · split
        · exact .refusal _
        · split
          · exact .refusal _
          · exact .success .none rfl
    | fin =>
      rw [execFin_of_accumulating (hs rfl), hs rfl]
      exact .success _ rfl
    | rst =>
      rw [exec_rst_of_accumulating (hs rfl), hs rfl]
      exact .success .none rfl
    | refl bw => exact .success _ rfl
    | reflm count lb =>
      simp only [exec, execReflm]
      split
      · exact .success _ rfl
      · exact .refusal _
    | tclone =>
      rw [exec_tclone_of_accumulating (hs rfl), hs rfl]
      exact .success _ rfl

theorem status_of_exec_next {i : Instr} {t : State} {r : Response} (h : exec i s = .next t)
    (hr : t.responses = r :: s.responses) : r.status = commandFault s.plat.maxWidth s.eng.status i :=
  (h ▸ exec_answer i).status_eq hr

theorem runWord_answer (cw : Word) : Answer s (faultOf s.plat.maxWidth s.eng.status cw) (runWord cw s) := by
  cases hdec : decode cw with
  | ok i =>
    rw [runWord_of_decode_ok hdec, faultOf_of_decode_ok hdec]
    exact exec_answer i
  | error why =>
    simp only [runWord, faultOf, hdec]
    exact .fault (by decide)

theorem step_answer {cw : Word} {p : Bundle} {rest : List HostEvent} (hin : s.inbox = .command cw p [] :: rest) :
    Answer { s with port := p, inbox := rest } (faultOf s.plat.maxWidth s.eng.status cw) (step s) := by
  rw [step_of_inbox_cons hin, serveEvent_command_nil]
  exact runWord_answer cw

end Commands

/-- Settles O14: the step's answer is governed by the first fault of the word. -/
theorem faultPriority : Obligations.FaultPriority := by
  intro s cw p rest hin f
  have hanswer := step_answer hin
  exact ⟨hanswer.eq_faulted, fun t ht => (ht ▸ hanswer).exists_response, fun why hwhy => (hwhy ▸ hanswer).eq_ok_of_refused⟩

/-- Settles O9: a status other than OK is that of the word's first fault, and a fault leaves the state `faulted`. -/
theorem faultWritesOnlyErr : Obligations.FaultWritesOnlyErr := by
  intro s t cw p rest r hin hstep hr hbad
  have hanswer := step_answer hin
  rw [hstep] at hanswer
  rw [← hanswer.status_eq hr] at hanswer
  obtain rfl := Host.Outcome.next.inj (hanswer.eq_faulted hbad)
  exact ⟨rfl, (congrArg Response.payload (List.cons.inj hr).1).symm⟩

/-- Settles O12: the five commands need a configured engine, and of no other is NOT_CONFIGURED the first fault. -/
theorem notConfiguredExactly : Obligations.NotConfiguredExactly := by
  intro s
  refine ⟨fun hs b => ?_, fun i t r hexec hr hstatus =>
    needsInstance_of_commandFault ((status_of_exec_next hexec hr).symm.trans hstatus)⟩
  have hfault {i : Instr} (hi : needsInstance i = true) := exec_of_needsInstance hi hs
  exact ⟨hfault rfl, hfault rfl, hfault rfl, hfault rfl, hfault rfl⟩

/-- Settles O13: `Geometry` raises the fault on the widths of R181's table; on the others CFG commits, and of no other command is
INVALID_PARAMETER the first fault. -/
theorem invalidParameterExactly : Obligations.InvalidParameterExactly := by
  intro s
  refine ⟨fun width tsrc tmode refout refin shape hwf => ⟨fun hwidth => ?_, fun hwidth hp ht => ?_⟩,
    fun i t r hexec hr hstatus => isCfg_of_commandFault ((status_of_exec_next hexec hr).symm.trans hstatus)⟩
  · have hfirst : commandFault s.plat.maxWidth s.eng.status (.cfg width tsrc tmode refout refin shape) = .invalidParameter := by
      rw [commandFault, if_neg (cfg_wf_iff_not_explicit_none.mp hwf), if_pos hwidth]
    have hanswer := exec_answer (s := s) (.cfg width tsrc tmode refout refin shape)
    rw [hfirst] at hanswer
    exact hanswer.eq_faulted (by decide)
  · obtain ⟨g, hg⟩ := exists_geometry_iff.mpr hwidth
    exact ⟨_, exec_cfg_of_accepted hwf hg hp fun hsrc => ht hsrc g hg, rfl⟩

/-! ### Refusals (60_exceptions.md R193) -/

/-- Every way a command is refused. -/
inductive Refused (s : State) : Instr → Refusal → Prop where
  | operand {width : BitVec 16} {tsrc : TSrc} {tmode : TMode} {refout refin : Bool} {shape : Shape}
      (hlegal : ¬ (tsrc = .explicit ∧ tmode = .none)) (hwidth : widthIllegal s.plat.maxWidth shape width.toNat = false)
      (hp : ¬ operandsBelowWidth width.toNat s.port = true) :
      Refused s (.cfg width tsrc tmode refout refin shape) .operandAboveWidth
  | table {width : BitVec 16} {tmode : TMode} {refout refin : Bool} {shape : Shape} {g : Geom} (hmode : tmode ≠ .none)
      (hg : geometry s.plat.maxWidth shape width.toNat = some g) (hp : operandsBelowWidth width.toNat s.port = true)
      (ht : ¬ presentableList (tableCount tmode) g.s s.port.opTable = true) :
      Refused s (.cfg width .explicit tmode refout refin shape) .operandNotPresentable
  | addresses (hs : s.eng.status = .accumulating) (hp : ¬ addressesPresentable s = true) :
      Refused s .updb .operandNotPresentable
  | overflow (hs : s.eng.status = .accumulating) (hp : addressesPresentable s = true) (hi : ¬ rangeInside s = true) :
      Refused s .updb .bufRangeOverflow
  | unreadable (hs : s.eng.status = .accumulating) (hp : addressesPresentable s = true) (hi : rangeInside s = true)
      (hr : ¬ rangeReadable s = true) : Refused s .updb .bufNotReadable
  | limbs {count : BitVec 16} {lb : LimbWidth} (hp : ¬ presentableList count.toNat (limbBits lb) s.port.opLimbs = true) :
      Refused s (.reflm count lb) .operandNotPresentable

section Refusals

variable {s : State} {i : Instr} {why : Refusal}

theorem refused_of_execCfg {width : BitVec 16} {tsrc : TSrc} {tmode : TMode} {refout refin : Bool} {shape : Shape}
    (h : execCfg width tsrc tmode refout refin shape s = .refused why) :
    Refused s (.cfg width tsrc tmode refout refin shape) why := by
  unfold execCfg at h
  split at h
  · cases h
  · rename_i hlegal
    split at h
    · cases h
    · rename_i g hg
      split at h
      · cases h
        exact .operand hlegal (exists_geometry_iff.mp ⟨g, hg⟩) ‹_›
      · rename_i hp
        split at h
        · rename_i ht
          cases h
          obtain ⟨rfl, ht⟩ := ht
          exact .table (fun hmode => hlegal ⟨rfl, hmode⟩) hg (not_not.mp hp) ht
        · cases h

theorem refused_of_execUpdb (h : execUpdb s = .refused why) : Refused s .updb why := by
  unfold execUpdb at h
  split at h
  · cases h
  · rename_i hs
    split at h
    · cases h
      exact .addresses hs ‹_›
    · rename_i hp
      split at h
      · cases h
        exact .overflow hs (not_not.mp hp) ‹_›
      · rename_i hi
        split at h
        · cases h
          exact .unreadable hs (not_not.mp hp) (not_not.mp hi) ‹_›
        · cases h

theorem refused_of_execReflm {count : BitVec 16} {lb : LimbWidth} (h : execReflm count lb s = .refused why) :
    Refused s (.reflm count lb) why := by
  unfold execReflm at h
  split at h
  · cases h
  · cases h
    exact .limbs ‹_›

theorem Refused.exec_eq (h : Refused s i why) : exec i s = .refused why := by
  cases h with
  | operand hlegal hwidth hp =>
    obtain ⟨g, hg⟩ := exists_geometry_iff.mpr hwidth
    simp only [exec, execCfg, if_neg hlegal, hg, if_pos hp]
  | table hmode hg hp ht => simp [exec, execCfg, hmode, hg, hp, ht]
  | addresses hs hp => simp only [exec, execUpdb, hs, if_pos hp]
  | overflow hs hp hi => simp [exec, execUpdb, hs, hp, hi]
  | unreadable hs hp hi hr => simp [exec, execUpdb, hs, hp, hi, hr]
  | limbs hp => simp only [exec, execReflm, if_neg hp]

/-- R193, R56: exactly the listed cases are refused. -/
theorem exec_eq_refused_iff : exec i s = .refused why ↔ Refused s i why := by
  refine ⟨fun h => ?_, Refused.exec_eq⟩
  cases i with
  | cfg width tsrc tmode refout refin shape => exact refused_of_execCfg h
  | updb => exact refused_of_execUpdb h
  | reflm count lb => exact refused_of_execReflm h
  | refl bw => cases h
  | _ =>
    simp only [exec, execUpd, execFin, execRst, execTclone] at h
    split at h <;> cases h

theorem not_operandsBelowWidth_iff {width : Nat} {p : Bundle} :
    ¬ operandsBelowWidth width p = true ↔ 2 ^ width ≤ p.opPoly ∨ 2 ^ width ≤ p.opInit ∨ 2 ^ width ≤ p.opXorout := by
  simp only [operandsBelowWidth, Bool.and_eq_true, decide_eq_true_eq, not_and_or, not_lt, or_assoc]

theorem not_rangeInside_iff :
    ¬ rangeInside s = true ↔ s.port.opLen ≠ 0 ∧ 2 ^ s.plat.addrBits < s.port.opBase + s.port.opOff + s.port.opLen := by
  rw [rangeInside_iff, not_or, not_le]

theorem not_rangeReadable_iff :
    ¬ rangeReadable s = true ↔
      ∃ k, k < s.port.opLen ∧ s.plat.bufReadable (s.port.opBase + s.port.opOff + k) = false := by
  simp only [rangeReadable_iff, not_forall, exists_prop, Bool.not_eq_true]

theorem refused_operandAboveWidth_iff : Refused s i .operandAboveWidth ↔
    ∃ width tsrc tmode refout refin shape, i = .cfg width tsrc tmode refout refin shape ∧ i.wf = true ∧
      widthIllegal s.plat.maxWidth shape width.toNat = false ∧ ¬ operandsBelowWidth width.toNat s.port = true := by
  constructor
  · rintro ⟨⟩
    exact ⟨_, _, _, _, _, _, rfl, cfg_wf_iff_not_explicit_none.mpr ‹_›, ‹_›, ‹_›⟩
  · rintro ⟨_, _, _, _, _, _, rfl, hwf, hwidth, hp⟩
    exact .operand (cfg_wf_iff_not_explicit_none.mp hwf) hwidth hp

theorem refused_bufRangeOverflow_iff : Refused s i .bufRangeOverflow ↔
    i = .updb ∧ s.eng.status = .accumulating ∧ addressesPresentable s = true ∧ ¬ rangeInside s = true := by
  constructor
  · rintro ⟨⟩
    exact ⟨rfl, ‹_›, ‹_›, ‹_›⟩
  · rintro ⟨rfl, hs, hp, hi⟩
    exact .overflow hs hp hi

theorem refused_bufNotReadable_iff : Refused s i .bufNotReadable ↔
    i = .updb ∧ s.eng.status = .accumulating ∧ addressesPresentable s = true ∧ rangeInside s = true ∧
      ¬ rangeReadable s = true := by
  constructor
  · rintro ⟨⟩
    exact ⟨rfl, ‹_›, ‹_›, ‹_›, ‹_›⟩
  · rintro ⟨rfl, hs, hp, hi, hr⟩
    exact .unreadable hs hp hi hr

/-- An unreadable byte shows that the range is not empty, so it lies inside the address space by its end. -/
theorem rangeInside_and_not_rangeReadable_iff : rangeInside s = true ∧ ¬ rangeReadable s = true ↔
    s.port.opBase + s.port.opOff + s.port.opLen ≤ 2 ^ s.plat.addrBits ∧
      ∃ k, k < s.port.opLen ∧ s.plat.bufReadable (s.port.opBase + s.port.opOff + k) = false := by
  rw [rangeInside_iff, not_rangeReadable_iff]
  refine and_congr_left fun ⟨k, hk, _⟩ => or_iff_right ?_
  omega

end Refusals

/-- Settles O15: each refusal has its causes listed, and an answer is never a stop. -/
theorem refusalsExactly : Obligations.RefusalsExactly := by
  intro i s
  simp only [exec_eq_refused_iff, refused_operandAboveWidth_iff, refused_bufRangeOverflow_iff, refused_bufNotReadable_iff,
    not_operandsBelowWidth_iff, not_rangeInside_iff, rangeInside_and_not_rangeReadable_iff, true_and]
  exact fun f hstop => Answer.not_stops (hstop ▸ exec_answer i)

end Sys2Proof.Machine
end

section
/-! Power-on reset (70_reset_and_hazards.md R200) and the reset state. -/

namespace Sys2Proof.Machine

/-- Settles O8: POR puts the engine's reset state and touches nothing else. -/
theorem powerOnResetUnconfigures : Obligations.PowerOnResetUnconfigures :=
  ⟨fun _ _ hin => ⟨_, step_of_inbox_cons hin, rfl, rfl, rfl, rfl, rfl, rfl⟩, rfl, rfl⟩

/-- Settles O52: the platform is legal, BUF is unwritten, and what speaks of a configured engine holds of none. -/
theorem resetMeetsInvariants : Obligations.ResetMeetsInvariants :=
  ⟨{ platform := ⟨by decide, by decide, by decide⟩
     buf_wf := rfl
     buf_inside := nofun
     configured := nofun }, nofun⟩

end Sys2Proof.Machine
end
